-- ==== Sys2Proof/Word.lean ====
section
/-! DEFINITION. The fixed-width words of the request and response ports (spec 10_state.md R26 and
30_encoding.md R51, R54, R58, R59).  Patterns have no type here: their width is a shape parameter
of the instance (00_scope.md R6), so a pattern is a `BitVec` of that width inside a unit and the
unsigned integer its bits denote (00_scope.md R11) where it stands on a port. -/

namespace Sys2Proof

/-- The operation select `op[4:0]` (R51). -/
abbrev OpCode := BitVec 5

/-- The constant selector `sel[2:0]` (R54). -/
abbrev Sel := BitVec 3

/-- The two wires that carry the `special` tag of a tuple (R23). -/
abbrev SpecialWires := BitVec 2

/-- The `fault` field of a response (R58). -/
abbrev FaultWires := BitVec 3

/-- The one-hot `cmp` field, bits `un, gt, eq, lt` from bit 3 down to bit 0 (R59). -/
abbrev CmpWires := BitVec 4

/-- The `cls` field, bits `isNegative, isSpecial, isZero` from bit 2 down to bit 0 (R59). -/
abbrev ClsWires := BitVec 3

/-- A byte of a pattern that a host serialises (20_memory.md R41). -/
abbrev Byte := BitVec 8

end Sys2Proof
end

