-- ==== Sys2Proof/Config.lean ====
section
/-! DEFINITION. The configuration record of an instance (spec 10_state.md R21, 00_scope.md R6 to R8)
and the values the spec leaves open: `LNS_ADDSUB` (47_ext_arith.md R189) and the draw W1 of the
rounder (43_rounder.md R134, 93_implementation_defined.md).  An open value is an `opaque` constant:
nothing in Lean can evaluate it. -/

namespace Sys2Proof

/-- `FX_OVERFLOW` (R8): `Saturate` is the only value admitted (R132). -/
inductive FxOverflow where
  | saturate
deriving DecidableEq, Repr

/-- `FX_DIV0_POLICY` (R8, R197). -/
inductive Div0Policy where
  | signal
  | clamp
deriving DecidableEq, Repr

/-- `P_ROUND_DOMAIN` (R8, R121, R125). -/
inductive RoundDomain where
  | value
  | bitstring
deriving DecidableEq, Repr

/-- `SER_ENDIAN` (R8, R41). -/
inductive Endian where
  | little
  | big
deriving DecidableEq, Repr

/-- The configuration record (R21).  It carries the proof that R6 holds, as R7 asks: an instance of
an ill-formed shape does not exist.  The defaults of the policy fields are those of R8.
`lnsAddSub` names which conforming function the instance uses for `LNS_ADDSUB`; the function itself
is `Config.lnsSumCode` at that name, and nothing is known of it. -/
structure Config where
  /-- `P_N` -/
  pN : Nat
  /-- `P_ES` -/
  pES : Nat
  /-- `L_N` -/
  lN : Nat
  /-- `L_R` -/
  lR : Nat
  /-- `F_N` -/
  fN : Nat
  /-- `F_R` -/
  fR : Nat
  fxOverflow : FxOverflow := .saturate
  fxDiv0Policy : Div0Policy
  narEqReflexive : Bool := false
  pRoundDomain : RoundDomain := .value
  extArith : Bool
  lnsAddSub : Nat
  serEndian : Endian := .little
  pN_ge : 2 ≤ pN := by decide
  pES_lt : pES < pN := by decide
  lN_ge : 2 ≤ lN := by decide
  lR_lt : lR < lN := by decide
  fN_ge : 2 ≤ fN := by decide
  fR_le : fR ≤ fN := by decide
deriving DecidableEq, Repr

/-- FREE (R189, draw W6): what the function named `unit` answers for the magnitude of an LNS sum of
the patterns `a ≤ b` of shape `lns<lN,lR>`: no code (the zero token) or a logarithm code.  The
constraints of R189 are imposed where it is used (`Lns.addSub`). -/
opaque Config.lnsSumCode (unit lN lR a b : Nat) : Option Int

/-- FREE (R134, draw W1): two naturals from which the rounder's choice inside a sticky interval is
made.  They may depend on everything the request and the instance are, and on how many draws
were made before. -/
opaque Config.stickyDraw (cfg : Config) (op : OpCode) (sign : Bool) (mant exp2 : Int)
  (count : Nat) : Nat × Nat

end Sys2Proof
end

