-- ==== Sys2Proof/Syntax.lean ====
section
/-! DEFINITION. What crosses the request ports (spec 10_state.md R22 to R26, 30_encoding.md R50) and
the instructions: one constructor of `Instr` per row of spec/opcode_table.json, carrying exactly the
operand ports that its format reads. -/

namespace Sys2Proof

/-- The tag of a decoded tuple or an unrounded value (R23). -/
inductive Special where
  | none
  | zero
  | inf
  | nar
deriving DecidableEq, Repr

/-- `PositDec` (R23, R75). -/
structure PositDec where
  special : SpecialWires
  sign : Bool
  scale : Int
  sig : Nat
deriving DecidableEq, Repr

/-- `LnsDec` (R23, R93). -/
structure LnsDec where
  special : SpecialWires
  sign : Bool
  scale : Int
  logfrac : Nat
deriving DecidableEq, Repr

/-- `FixDec` (R23, R107). -/
structure FixDec where
  special : SpecialWires
  sign : Bool
  ipart : Nat
  fpart : Nat
deriving DecidableEq, Repr

/-- `Unrounded`, the rounder's operand for posit and fixed-point targets (R24). -/
structure Unrounded where
  special : SpecialWires
  sign : Bool
  mant : Nat
  exp2 : Int
  sticky : Bool
deriving DecidableEq, Repr

/-- `UnroundedLog`, the rounder's operand for the LNS target (R24). -/
structure UnroundedLog where
  special : SpecialWires
  sign : Bool
  lmant : Int
  lexp2 : Int
  sticky : Bool
deriving DecidableEq, Repr

/-- The request port group (R26).  `a` and `b` carry the pattern of the format `op` names, as the
unsigned integer of its bits; `d` and `u` have one port for each shape their operand can take. -/
structure Request where
  op : OpCode
  a : Nat
  b : Nat
  dP : PositDec
  dL : LnsDec
  dF : FixDec
  u : Unrounded
  uLog : UnroundedLog
  sel : Sel
deriving DecidableEq, Repr

/-- The thirty operations (R52), each with the operands of its format (R50):
`PP` two patterns, `P` one, `D` a decoded tuple, `U` an unrounded value, `S` a selector. -/
inductive Instr where
  | pdec (a : Nat)
  | penc (d : PositDec)
  | prnd (u : Unrounded)
  | pcls (a : Nat)
  | padd (a b : Nat)
  | psub (a b : Nat)
  | pmul (a b : Nat)
  | pdiv (a b : Nat)
  | ldec (a : Nat)
  | lenc (d : LnsDec)
  | lrnd (u : UnroundedLog)
  | lcls (a : Nat)
  | ladd (a b : Nat)
  | lsub (a b : Nat)
  | lmul (a b : Nat)
  | ldiv (a b : Nat)
  | fdec (a : Nat)
  | fenc (d : FixDec)
  | frnd (u : Unrounded)
  | fcls (a : Nat)
  | fadd (a b : Nat)
  | fsub (a b : Nat)
  | fmul (a b : Nat)
  | fdiv (a b : Nat)
  | pcmp (a b : Nat)
  | lcmp (a b : Nat)
  | fcmp (a b : Nat)
  | pconst (sel : Sel)
  | lconst (sel : Sel)
  | fconst (sel : Sel)
deriving DecidableEq, Repr

end Sys2Proof
end

