-- ==== Sys2Proof/WellFormed.lean ====
section
/-! DEFINITION. Well-formed instructions of an instance: every pattern operand is a bit vector of
exactly the width of its format (spec 30_encoding.md R50, 10_state.md R22).  Tuples, unrounded values
and selectors have no condition: the rules are stated for every integer (R25), and an operand an
operation does not accept has a response of its own (60_exceptions.md R209). -/

namespace Sys2Proof

/-- A pattern of width `width` (R22). -/
def isPattern (width p : Nat) : Bool := p < 2 ^ width

/-- The operands fit the ports of an instance with configuration `c`. -/
def Instr.wellFormed (c : Config) : Instr → Bool
  | .pdec a | .pcls a => isPattern c.pN a
  | .padd a b | .psub a b | .pmul a b | .pdiv a b | .pcmp a b =>
      isPattern c.pN a && isPattern c.pN b
  | .ldec a | .lcls a => isPattern c.lN a
  | .ladd a b | .lsub a b | .lmul a b | .ldiv a b | .lcmp a b =>
      isPattern c.lN a && isPattern c.lN b
  | .fdec a | .fcls a => isPattern c.fN a
  | .fadd a b | .fsub a b | .fmul a b | .fdiv a b | .fcmp a b =>
      isPattern c.fN a && isPattern c.fN b
  | .penc _ | .lenc _ | .fenc _ | .prnd _ | .lrnd _ | .frnd _ => true
  | .pconst _ | .lconst _ | .fconst _ => true

end Sys2Proof
end

