-- ==== Sys2Proof/Decode.lean ====
section
/-! DEFINITION. The decoder of a request (spec 30_encoding.md R51 to R57), total on all 32 operation
codes, and the encoder of an instruction into the request ports.  Whether an extension operation is
present (R56) depends on the configuration and is decided by its meaning. -/

namespace Sys2Proof

/-- Why a request names no instruction. -/
inductive DecodeError where
  /-- `op = 11011` or `op = 11111` (R55) -/
  | reservedOp (op : OpCode)
deriving DecidableEq, Repr

/-- The operation the `op` field selects, with the operand ports its format reads (R52, R53). -/
def decode (q : Request) : Except DecodeError Instr :=
  match q.op.toNat with
  | 0b00000 => .ok (.pdec q.a)
  | 0b00001 => .ok (.penc q.dP)
  | 0b00010 => .ok (.prnd q.u)
  | 0b00011 => .ok (.pcls q.a)
  | 0b00100 => .ok (.padd q.a q.b)
  | 0b00101 => .ok (.psub q.a q.b)
  | 0b00110 => .ok (.pmul q.a q.b)
  | 0b00111 => .ok (.pdiv q.a q.b)
  | 0b01000 => .ok (.ldec q.a)
  | 0b01001 => .ok (.lenc q.dL)
  | 0b01010 => .ok (.lrnd q.uLog)
  | 0b01011 => .ok (.lcls q.a)
  | 0b01100 => .ok (.ladd q.a q.b)
  | 0b01101 => .ok (.lsub q.a q.b)
  | 0b01110 => .ok (.lmul q.a q.b)
  | 0b01111 => .ok (.ldiv q.a q.b)
  | 0b10000 => .ok (.fdec q.a)
  | 0b10001 => .ok (.fenc q.dF)
  | 0b10010 => .ok (.frnd q.u)
  | 0b10011 => .ok (.fcls q.a)
  | 0b10100 => .ok (.fadd q.a q.b)
  | 0b10101 => .ok (.fsub q.a q.b)
  | 0b10110 => .ok (.fmul q.a q.b)
  | 0b10111 => .ok (.fdiv q.a q.b)
  | 0b11000 => .ok (.pcmp q.a q.b)
  | 0b11001 => .ok (.lcmp q.a q.b)
  | 0b11010 => .ok (.fcmp q.a q.b)
  | 0b11100 => .ok (.pconst q.sel)
  | 0b11101 => .ok (.lconst q.sel)
  | 0b11110 => .ok (.fconst q.sel)
  | _ => .error (.reservedOp q.op)

/-- The request whose every port is zero: a port an operation does not list is ignored by it (R26),
and the encoder drives such a port with zero. -/
def Request.idle : Request where
  op := 0
  a := 0
  b := 0
  dP := { special := 0, sign := false, scale := 0, sig := 0 }
  dL := { special := 0, sign := false, scale := 0, logfrac := 0 }
  dF := { special := 0, sign := false, ipart := 0, fpart := 0 }
  u := { special := 0, sign := false, mant := 0, exp2 := 0, sticky := false }
  uLog := { special := 0, sign := false, lmant := 0, lexp2 := 0, sticky := false }
  sel := 0

/-- Format `P`: `op` and one pattern (R50). -/
def Request.ofPattern (op : OpCode) (a : Nat) : Request :=
  { Request.idle with op := op, a := a }

/-- Format `PP`: `op` and two patterns (R50). -/
def Request.ofPatterns (op : OpCode) (a b : Nat) : Request :=
  { Request.idle with op := op, a := a, b := b }

/-- Format `S`: `op` and a selector (R50). -/
def Request.ofSel (op : OpCode) (sel : Sel) : Request :=
  { Request.idle with op := op, sel := sel }

/-- The request ports of an instruction: its code of R52 and its operands. -/
def encode : Instr → Request
  | .pdec a => .ofPattern 0b00000#5 a
  | .penc d => { Request.idle with op := 0b00001#5, dP := d }
  | .prnd u => { Request.idle with op := 0b00010#5, u := u }
  | .pcls a => .ofPattern 0b00011#5 a
  | .padd a b => .ofPatterns 0b00100#5 a b
  | .psub a b => .ofPatterns 0b00101#5 a b
  | .pmul a b => .ofPatterns 0b00110#5 a b
  | .pdiv a b => .ofPatterns 0b00111#5 a b
  | .ldec a => .ofPattern 0b01000#5 a
  | .lenc d => { Request.idle with op := 0b01001#5, dL := d }
  | .lrnd u => { Request.idle with op := 0b01010#5, uLog := u }
  | .lcls a => .ofPattern 0b01011#5 a
  | .ladd a b => .ofPatterns 0b01100#5 a b
  | .lsub a b => .ofPatterns 0b01101#5 a b
  | .lmul a b => .ofPatterns 0b01110#5 a b
  | .ldiv a b => .ofPatterns 0b01111#5 a b
  | .fdec a => .ofPattern 0b10000#5 a
  | .fenc d => { Request.idle with op := 0b10001#5, dF := d }
  | .frnd u => { Request.idle with op := 0b10010#5, u := u }
  | .fcls a => .ofPattern 0b10011#5 a
  | .fadd a b => .ofPatterns 0b10100#5 a b
  | .fsub a b => .ofPatterns 0b10101#5 a b
  | .fmul a b => .ofPatterns 0b10110#5 a b
  | .fdiv a b => .ofPatterns 0b10111#5 a b
  | .pcmp a b => .ofPatterns 0b11000#5 a b
  | .lcmp a b => .ofPatterns 0b11001#5 a b
  | .fcmp a b => .ofPatterns 0b11010#5 a b
  | .pconst sel => .ofSel 0b11100#5 sel
  | .lconst sel => .ofSel 0b11101#5 sel
  | .fconst sel => .ofSel 0b11110#5 sel

/-- An instruction's operation code. -/
def Instr.op (i : Instr) : OpCode := (encode i).op

/-- The eight operations present only when `EXT_ARITH = true` (R56). -/
def Instr.isExt : Instr → Bool
  | .ladd .. | .lsub .. | .lmul .. | .ldiv .. => true
  | .fadd .. | .fsub .. | .fmul .. | .fdiv .. => true
  | _ => false

/-- The request whose `op` wires carry the low five of the bits `w` of a table row and whose operand
ports are zero.  There is no memory layout of a request (R50): the bits above `op[4]` are no wires
of the port. -/
def requestOfTableWord (nbits w : Nat) : Request :=
  { Request.idle with op := BitVec.ofNat 5 (w % 2 ^ nbits) }

/-- The instruction the decoder reads from the bits `w` of a table row. -/
def decodeTableWord (nbits w : Nat) : Option Instr :=
  (decode (requestOfTableWord nbits w)).toOption

end Sys2Proof
end

