-- ==== Sys2Proof/Machine/State.lean ====
section
/-! DEFINITION. The machine's state.  LU-CORE holds no state between transactions (spec 10_state.md
R20, R27 to R33): no register, no program counter, no flag, no memory.  What stands here is the
configuration of the instance (R21), the two port groups (R26), and one field of the model's own that
counts draws (93_implementation_defined.md W1). -/

namespace Sys2Proof.Machine

/-- The fault codes of a response (R206). -/
inductive FaultCode where
  /-- the response carries a result -/
  | none
  /-- FDIV, zero divisor, `FX_DIV0_POLICY = Signal` (R207) -/
  | divByZero
  /-- FENC, FRND, operand tagged NaR (R210) -/
  | noImage
  /-- an operand outside the operation's precondition (R209) -/
  | malformedOperand
  /-- reserved `op`, or an extension `op` with `EXT_ARITH = false` (R208) -/
  | illegalOp
deriving DecidableEq, Repr

/-- The answers of the comparator (R160). -/
inductive Relation where
  | lt
  | eq
  | gt
  | un
deriving DecidableEq, Repr

/-- The `scan` port (R26, R72, R77). -/
structure Scan where
  r0 : Bool
  run : Nat
  term : Bool
  ne : Nat
  nf : Nat
deriving DecidableEq, Repr

/-- What the `dq` port carries (R26). -/
inductive DecTuple where
  | posit (d : PositDec)
  | lns (d : LnsDec)
  | fix (d : FixDec)
deriving DecidableEq, Repr

/-- The response port group (R26).  A port that the transaction does not drive is `none`: its value is
unspecified and the model omits it (R26, R214, W2, W3). -/
structure Response where
  fault : FaultWires
  r : Option Nat := .none
  dq : Option DecTuple := .none
  scan : Option Scan := .none
  cmp : Option CmpWires := .none
  cls : Option ClsWires := .none
deriving DecidableEq, Repr

/-- The machine: the configuration of the instance, the request ports as the host drives them, the
response ports (`none` before the first response, R33), and the number of draws made so far
(the model's own field). -/
structure State where
  cfg : Config
  req : Request
  resp : Option Response
  draws : Nat
deriving DecidableEq, Repr

/-- A step of this machine never ends in a fault of the model: a fault of the spec is delivered in the
response of its transaction and the block goes on (R214), and no behaviour halts the block
(93_implementation_defined.md, treatment `stuck`, not used).  So there is no constructor. -/
inductive Fault where
deriving DecidableEq, Repr

/-- Why a step has no meaning. -/
inductive Refusal where
  /-- Raised by the dispatcher for an instruction the model gives no meaning.  Safe: nothing is
  claimed of it.  No arm raises it. -/
  | notModelled (mnemonic : String)
deriving DecidableEq, Repr

/-- The outcome of an instruction or of a step. -/
abbrev Outcome := Host.Outcome State Fault Refusal

/-- DESIGN CHOICE (notes/assumptions/2.md): the instance `State.reset` stands for.  The spec fixes no
shape; these three are the shapes of most of its own test vectors.  R8 leaves `FX_DIV0_POLICY`,
`EXT_ARITH` and `LNS_ADDSUB` open without a default: `Signal`, `true` and the function named 0, of which
nothing is known (notes/assumptions/8.md), are chosen here.  The other policies have R8's defaults. -/
def sampleConfig : Config where
  pN := 8
  pES := 0
  lN := 16
  lR := 8
  fN := 8
  fR := 2
  fxDiv0Policy := .signal
  extArith := true
  lnsAddSub := 0

/-- An instance of configuration `c` after reset: nothing to restore, no response yet (R33, R225).
The request ports are the host's; they stand at zero until it drives them (notes/assumptions/3.md). -/
def State.resetWith (c : Config) : State where
  cfg := c
  req := Request.idle
  resp := .none
  draws := 0

/-- The machine right after reset. -/
def State.reset : State := State.resetWith sampleConfig

end Sys2Proof.Machine
end

