-- ==== Sys2Proof/Machine/Numeric.lean ====
section
/-! DEFINITION. Exact arithmetic on integers and rationals (spec 00_scope.md R11, R12) and the derived
constants of an instance (R9). -/

namespace Sys2Proof.Machine

/-- `2^e` as a rational, for any integer `e`. -/
def pow2 (e : Int) : ℚ := (2 : ℚ) ^ e

/-- How a value exactly halfway between two candidates is settled.  `even` is the spec's rule (R12);
`up` and `down` give the one-sided limits of a rounding function, from which the rounder tells
whether a sticky interval holds a breakpoint (R134). -/
inductive Tie where
  | even
  | up
  | down
deriving DecidableEq, Repr

/-- Does a tie above `n` go to `n + 1`? -/
def Tie.goesUp (tie : Tie) (n : Int) : Bool :=
  match tie with
  | .even => n % 2 != 0
  | .up => true
  | .down => false

/-- The integer nearest to `t`, ties settled by `tie`. -/
def roundInt (tie : Tie) (t : ℚ) : Int :=
  let f := t.floor
  let r := t - f
  if 1 / 2 < r then f + 1
  else if r < 1 / 2 then f
  else if tie.goesUp f then f + 1 else f

/-- `rne(t)`: round to nearest, ties to even (R12). -/
def rne (t : ℚ) : Int := roundInt .even t

/-- `floor(log2 x)` for `x > 0`: the largest `s` with `2^s ≤ x`. -/
def floorLog2 (x : ℚ) : Int :=
  let s := (Nat.log2 x.num.natAbs : Int) - Nat.log2 x.den
  if pow2 s ≤ x then s else s - 1

/-- The largest code below `base + 2^bits` that satisfies `p`, for a `p` that holds of `base` and, of
two codes, holds of the smaller wherever it holds of the larger: its bits are settled from the top. -/
def largestCode (p : Nat → Bool) : Nat → Nat → Nat
  | 0, base => base
  | bits + 1, base =>
      largestCode p bits (if p (base + 2 ^ bits) then base + 2 ^ bits else base)

/-- `min(max(i, lo), hi)`. -/
def clampInt (lo hi i : Int) : Int := min (max i lo) hi

end Sys2Proof.Machine

namespace Sys2Proof.Config

/-- `P_FW = max(P_N − 3 − P_ES, 0)`; the subtraction of naturals stops at 0. -/
def pFW (c : Config) : Nat := c.pN - 3 - c.pES

/-- `P_USEED_LOG2 = 2^P_ES`. -/
def pUseedLog2 (c : Config) : Nat := 2 ^ c.pES

/-- `P_MAXSCALE = (P_N − 2) · 2^P_ES`. -/
def pMaxScale (c : Config) : Int := (c.pN - 2 : Nat) * c.pUseedLog2

/-- `P_MINSCALE = −(P_N − 2) · 2^P_ES`. -/
def pMinScale (c : Config) : Int := -c.pMaxScale

/-- `P_MAXPOS = 2^P_MAXSCALE`. -/
def pMaxPos (c : Config) : ℚ := Machine.pow2 c.pMaxScale

/-- `P_MINPOS = 2^P_MINSCALE`. -/
def pMinPos (c : Config) : ℚ := Machine.pow2 c.pMinScale

/-- `L_W = L_N − 1`. -/
def lW (c : Config) : Nat := c.lN - 1

/-- `L_EMAX = 2^(L_N − 2) − 1`. -/
def lEMax (c : Config) : Int := 2 ^ (c.lN - 2) - 1

/-- `L_EMIN = −2^(L_N − 2) + 1`. -/
def lEMin (c : Config) : Int := -2 ^ (c.lN - 2) + 1

/-- `L_ERES = −2^(L_N − 2)`. -/
def lERes (c : Config) : Int := -2 ^ (c.lN - 2)

/-- `F_IMAX = 2^(F_N − 1) − 1`. -/
def fIMax (c : Config) : Int := 2 ^ (c.fN - 1) - 1

/-- `F_IMIN = −2^(F_N − 1)`. -/
def fIMin (c : Config) : Int := -2 ^ (c.fN - 1)

end Sys2Proof.Config
end

