-- ==== Sys2Proof/Machine/Flags.lean ====
section
/-! DEFINITION. The bits of the response fields `fault`, `cmp` and `cls` (spec 30_encoding.md R58, R59)
and the relational predicates a host reads off `cmp` (45_comparator.md R165).  LU-CORE has no flag
that persists (10_state.md R29). -/

namespace Sys2Proof.Machine

/-- The 3-bit code of a fault (R58, R206). -/
def FaultCode.bits : FaultCode → FaultWires
  | .none => 0b000#3
  | .divByZero => 0b001#3
  | .noImage => 0b010#3
  | .malformedOperand => 0b011#3
  | .illegalOp => 0b100#3

/-- The one-hot code of a comparison (R59): `cmp[0] = lt`, `cmp[1] = eq`, `cmp[2] = gt`,
`cmp[3] = un`. -/
def Relation.bits : Relation → CmpWires
  | .lt => 0b0001#4
  | .eq => 0b0010#4
  | .gt => 0b0100#4
  | .un => 0b1000#4

/-- `if x < y then lt else if x > y then gt else eq`, the comparison of two numbers (R162 to R164). -/
def relationOf (x y : Int) : Relation :=
  if x < y then .lt else if y < x then .gt else .eq

/-- The comparison of two patterns of a format that has NaR (R161): with `NAR_EQ_REFLEXIVE = true`
two NaR operands are equal; any other comparison with a NaR operand is unordered. -/
def relationWithNar (c : Config) (aNar bNar : Bool) (x y : Int) : Relation :=
  if aNar && bNar then (if c.narEqReflexive then .eq else .un)
  else if aNar || bNar then .un
  else relationOf x y

/-- `cls`: `cls[2] = isNegative`, `cls[1] = isSpecial`, `cls[0] = isZero` (R59). -/
def clsBits (isNegative isSpecial isZero : Bool) : ClsWires :=
  BitVec.ofBool isNegative ++ BitVec.ofBool isSpecial ++ BitVec.ofBool isZero

/-- `cmp[0]` -/
def cmpLt (w : CmpWires) : Bool := w.getLsbD 0
/-- `cmp[1]` -/
def cmpEq (w : CmpWires) : Bool := w.getLsbD 1
/-- `cmp[2]` -/
def cmpGt (w : CmpWires) : Bool := w.getLsbD 2
/-- `cmp[3]` -/
def cmpUn (w : CmpWires) : Bool := w.getLsbD 3

/-- `a != b` on the host's side (R165). -/
def hostNe (w : CmpWires) : Bool := !cmpEq w
/-- `a <= b` on the host's side (R165). -/
def hostLe (w : CmpWires) : Bool := cmpLt w || cmpEq w
/-- `a >= b` on the host's side (R165). -/
def hostGe (w : CmpWires) : Bool := cmpGt w || cmpEq w

end Sys2Proof.Machine
end

