-- ==== Sys2Proof/Machine/Ops.lean ====
section
/-! DEFINITION. The named operations over the state: delivering a response, delivering a fault, and
what the host does to the ports.  There is no memory and no register to operate on (spec 20_memory.md
R40, 10_state.md R27). -/

namespace Sys2Proof.Machine

/-- The response of a transaction that ended with a fault: the code, and no other port (R214, W3). -/
def Response.faulted (f : FaultCode) : Response := { fault := f.bits }

/-- `r` alone: encoders, arithmetic and constants (R26). -/
def Response.pattern {n : Nat} (r : BitVec n) : Response :=
  { fault := FaultCode.none.bits, r := some r.toNat }

/-- `r` and `dq`: the rounder (R26, R120). -/
def Response.rounded {n : Nat} (r : BitVec n) (dq : DecTuple) : Response :=
  { fault := FaultCode.none.bits, r := some r.toNat, dq := some dq }

/-- `dq` alone: LDEC and FDEC (R26). -/
def Response.decoded (dq : DecTuple) : Response :=
  { fault := FaultCode.none.bits, dq := some dq }

/-- `dq` and `scan`: PDEC (R26, R77). -/
def Response.scanned (dq : DecTuple) (scan : Scan) : Response :=
  { fault := FaultCode.none.bits, dq := some dq, scan := some scan }

/-- `cmp` alone: the comparator (R26, R160). -/
def Response.compared (x : Relation) : Response :=
  { fault := FaultCode.none.bits, cmp := some x.bits }

/-- `cls` alone: the classifier (R26, R170). -/
def Response.classified (w : ClsWires) : Response :=
  { fault := FaultCode.none.bits, cls := some w }

/-- The block drives its response ports; nothing else changes (R20, R43). -/
def State.answer (s : State) (p : Response) : State := { s with resp := some p }

/-- One more draw has been made (the model's own counter, W1). -/
def State.countDraw (s : State) (drawn : Bool) : State :=
  { s with draws := if drawn then s.draws + 1 else s.draws }

/-- TAKING A FAULT (R214, R216): the fault code is delivered in the response of the transaction that
caused it, every other response port is undriven, and nothing else happens: no state is saved, no
mode changes, no handler runs, and the block accepts the next request as if the fault had not
occurred.  There is no return operation and nothing to restore (R215). -/
def State.takeFault (s : State) (f : FaultCode) : State := s.answer (Response.faulted f)

/-- The end of every operation (R14, R214): a response is delivered, or the fault it raised is taken.
Either way the machine goes on. -/
def deliver (s : State) (e : Except FaultCode Response) : Outcome :=
  .next (match e with
    | .ok p => s.answer p
    | .error f => s.takeFault f)

/-- The gate of an extension operation (R56, R185, R213): with `EXT_ARITH = false` its code is illegal
and its operands are not examined. -/
def gated (c : Config) (e : Except FaultCode Response) : Except FaultCode Response :=
  if c.extArith then e else .error .illegalOp

/-- The host presents a request (R26, R28): all request ports change together (R43).  What the response
ports carry until it is answered the spec leaves open; DESIGN CHOICE (notes/assumptions/18.md): nothing,
since the response on them belonged to the request before. -/
def State.present (s : State) (q : Request) : State := { s with req := q, resp := .none }

/-- A reset input, if an implementation has one (R225): the transaction in flight is never answered,
and nothing else is affected.  That no response is left and that the request ports stay is
notes/assumptions/10.md. -/
def State.assertReset (s : State) : State := { s with resp := .none }

/-- The bytes of a pattern of width `nbits`, from bits 7 to 0 upwards, after zero extension to a whole
number of bytes (R41). -/
def patternBytes (nbits p : Nat) : List Byte :=
  (List.range ((nbits + 7) / 8)).map fun i => BitVec.ofNat 8 (p >>> (8 * i))

/-- How a host stores a pattern in bytes (R41): the byte of bits 7 to 0 comes first when `SER_ENDIAN`
is `little`, last when it is `big`.  No operation of the block depends on it. -/
def serialise (c : Config) (nbits p : Nat) : List Byte :=
  match c.serEndian with
  | .little => patternBytes nbits p
  | .big => (patternBytes nbits p).reverse

end Sys2Proof.Machine
end

