-- ==== Sys2Proof/Machine/Operands.lean ====
section
/-! DEFINITION. Reading the operand ports (spec 30_encoding.md R53, 10_state.md R23, R24) and what an
unrounded value denotes (43_rounder.md R134). -/

namespace Sys2Proof

/-- The tag on two wires: `None = 00`, `Zero = 01`, `Inf = 10`, `NaR = 11`; all four codes are legal
(R23, R53). -/
def Special.ofBits (w : SpecialWires) : Special :=
  match w.toNat with
  | 0b00 => .none
  | 0b01 => .zero
  | 0b10 => .inf
  | _ => .nar

/-- The two wires of a tag (R23). -/
def Special.bits : Special → SpecialWires
  | .none => 0b00#2
  | .zero => 0b01#2
  | .inf => 0b10#2
  | .nar => 0b11#2

end Sys2Proof

namespace Sys2Proof.Machine

/-- A pattern on a posit port: the port has exactly `P_N` wires (R50). -/
def posPort (c : Config) (a : Nat) : BitVec c.pN := BitVec.ofNat c.pN a

/-- A pattern on an LNS port: the port has exactly `L_N` wires (R50). -/
def lnsPort (c : Config) (a : Nat) : BitVec c.lN := BitVec.ofNat c.lN a

/-- A pattern on a fixed-point port: the port has exactly `F_N` wires (R50). -/
def fixPort (c : Config) (a : Nat) : BitVec c.fN := BitVec.ofNat c.fN a

/-- A sign bit as a factor. -/
def signFactor (sign : Bool) : ℚ := if sign then -1 else 1

/-- What an operand of the rounder denotes: with `sticky = 0` the operand denotes `low`
exactly; with `sticky = 1` an unknown real strictly between `low` and `high` (R24, R134). -/
structure Denoted where
  low : ℚ
  high : ℚ
  sticky : Bool
deriving DecidableEq, Repr

/-- The magnitude an unrounded value denotes (R24). -/
def magnitudeOf (u : Unrounded) : Denoted where
  low := u.mant * pow2 u.exp2
  high := (u.mant + 1) * pow2 u.exp2
  sticky := u.sticky

/-- The base-2 logarithm of the magnitude that an unrounded LNS value denotes (R24). -/
def logarithmOf (u : UnroundedLog) : Denoted where
  low := u.lmant * pow2 u.lexp2
  high := (u.lmant + 1) * pow2 u.lexp2
  sticky := u.sticky

/-- The interval of the values `−x` for the `x` of `i`: what a magnitude denotes under sign 1. -/
def Denoted.withSign (i : Denoted) (sign : Bool) : Denoted :=
  if sign then
    (if i.sticky then { low := -i.high, high := -i.low, sticky := true }
     else { low := -i.low, high := -i.low, sticky := false })
  else i

/-- The point of the open interval that a pair of naturals selects.  Every rational point of the
interval is selected by some pair, and only those are. -/
def Denoted.point (i : Denoted) (pick : Nat × Nat) : ℚ :=
  i.low + (i.high - i.low) * ((pick.1 + 1) / (pick.1 + pick.2 + 2))

/-- Rounding what an operand denotes (R134).  `f` is the rounding function with its ties settled as
told.  With `sticky = 1` the function is constant on the open interval exactly when its limit from
above at `low` equals its limit from below at `high`; then that value is the result, and otherwise
the value at a point of the interval that nothing determines (draw W1). -/
def roundDenoted {α : Type} [DecidableEq α] (f : Tie → ℚ → α) (i : Denoted) (pick : Nat × Nat) : α :=
  if i.sticky then
    (if f .up i.low = f .down i.high then f .up i.low else f .even (i.point pick))
  else f .even i.low

/-- Is the result a draw (R134, W1)? -/
def isDraw {α : Type} [DecidableEq α] (f : Tie → ℚ → α) (i : Denoted) : Bool :=
  i.sticky && decide (f .up i.low ≠ f .down i.high)

end Sys2Proof.Machine
end

