-- ==== Sys2Proof/Machine/SpecialPatterns.lean ====
section
/-! DEFINITION. The reserved and extreme patterns of the three formats (spec 46_special_values.md R171 to
R173): what every other rule means by zero, NaR, maxpos and so on (R170). -/

namespace Sys2Proof.Machine

/-- The zero pattern of posit (R71, R171). -/
def Posit.zero (c : Config) : BitVec c.pN := BitVec.ofNat c.pN 0
/-- NaR: the sign bit only (R71, R171). -/
def Posit.nar (c : Config) : BitVec c.pN := BitVec.ofNat c.pN (2 ^ (c.pN - 1))
/-- `0b01…1` (R171). -/
def Posit.maxPos (c : Config) : BitVec c.pN := BitVec.ofNat c.pN (2 ^ (c.pN - 1) - 1)
/-- `0b00…01` (R171). -/
def Posit.minPos (c : Config) : BitVec c.pN := BitVec.ofNat c.pN 1
/-- `0b10…01` (R171). -/
def Posit.maxNeg (c : Config) : BitVec c.pN := BitVec.ofNat c.pN (2 ^ (c.pN - 1) + 1)
/-- `0b11…1` (R171). -/
def Posit.minNeg (c : Config) : BitVec c.pN := BitVec.ofNat c.pN (2 ^ c.pN - 1)

/-- `{sign, (E mod 2^W) as W bits}`: the LNS pattern of a sign and a logarithm code (R96, R127). -/
def Lns.pack (c : Config) (sign : Bool) (E : Int) : BitVec c.lN :=
  BitVec.ofNat c.lN ((if sign then 2 ^ c.lW else 0) + (E % 2 ^ c.lW).toNat)

/-- The zero token `0b0_10…0`: the reserved code with sign 0 (R92, R172). -/
def Lns.zero (c : Config) : BitVec c.lN := BitVec.ofNat c.lN (2 ^ (c.lN - 2))
/-- NaR `0b1_10…0`: the reserved code with sign 1 (R92, R172). -/
def Lns.nar (c : Config) : BitVec c.lN := BitVec.ofNat c.lN (2 ^ (c.lN - 1) + 2 ^ (c.lN - 2))
/-- The code `L_EMAX` with sign 0 (R172). -/
def Lns.maxPos (c : Config) : BitVec c.lN := Lns.pack c false c.lEMax
/-- The code `L_EMIN` with sign 0 (R172). -/
def Lns.minPos (c : Config) : BitVec c.lN := Lns.pack c false c.lEMin
/-- The code `L_EMAX` with sign 1 (R172). -/
def Lns.maxNeg (c : Config) : BitVec c.lN := Lns.pack c true c.lEMax
/-- The code `L_EMIN` with sign 1 (R172). -/
def Lns.minNeg (c : Config) : BitVec c.lN := Lns.pack c true c.lEMin

/-- The zero pattern of fixed-point (R106, R173). -/
def Fix.zero (c : Config) : BitVec c.fN := BitVec.ofNat c.fN 0
/-- `0b01…1`, the upper saturation bound (R173). -/
def Fix.maxPos (c : Config) : BitVec c.fN := BitVec.ofNat c.fN (2 ^ (c.fN - 1) - 1)
/-- `0b00…01` (R173). -/
def Fix.minPos (c : Config) : BitVec c.fN := BitVec.ofNat c.fN 1
/-- `0b10…0`, the lower saturation bound (R173). -/
def Fix.maxNeg (c : Config) : BitVec c.fN := BitVec.ofNat c.fN (2 ^ (c.fN - 1))
/-- `0b11…1` (R173). -/
def Fix.minNeg (c : Config) : BitVec c.fN := BitVec.ofNat c.fN (2 ^ c.fN - 1)

end Sys2Proof.Machine
end

