-- ==== Sys2Proof/Machine/LnsCodec.lean ====
section
/-! DEFINITION. The LNS codec (spec 41_lns_codec.md): lns_decoder (LDEC) and lns_encoder (LENC). -/

namespace Sys2Proof.Machine

/-- `E = signed_W(p[N−2:0])`: the logarithm code of a pattern (R91). -/
def Lns.code (c : Config) (p : BitVec c.lN) : Int := (p.setWidth c.lW).toInt

/-- The decoded tuple of LDEC (R93, R95). -/
def Lns.decode (c : Config) (a : BitVec c.lN) : LnsDec :=
  if a = Lns.zero c then { special := Special.zero.bits, sign := false, scale := 0, logfrac := 0 }
  else if a = Lns.nar c then
    { special := Special.nar.bits, sign := true, scale := 0, logfrac := 0 }
  else
    let E := Lns.code c a
    { special := Special.none.bits
      sign := a.msb
      scale := E / 2 ^ c.lR
      logfrac := (E % 2 ^ c.lR).toNat }

/-- What an LNS pattern denotes: zero, NaR, or a sign and the base-2 logarithm of the magnitude (R15). -/
inductive LnsValue where
  | zero
  | nar
  | number (sign : Bool) (log : ℚ)
deriving DecidableEq, Repr

/-- `val_L` (R94). -/
def Lns.val (c : Config) (p : BitVec c.lN) : LnsValue :=
  if p = Lns.zero c then .zero
  else if p = Lns.nar c then .nar
  else .number p.msb (Lns.code c p / 2 ^ c.lR)

/-- LENC (R96). -/
def Lns.encode (c : Config) (d : LnsDec) : Except FaultCode (BitVec c.lN) :=
  match Special.ofBits d.special with
  | .zero => .ok (Lns.zero c)
  | .nar => .ok (Lns.nar c)
  | .inf => .ok (Lns.nar c)
  | .none =>
      if 2 ^ c.lR ≤ d.logfrac then .error .malformedOperand
      else
        let E := d.scale * 2 ^ c.lR + d.logfrac
        if c.lEMax < E ∨ E < c.lEMin then .ok (Lns.nar c) else .ok (Lns.pack c d.sign E)

/-- LDEC, lns_decoder (R95). -/
def execLdec (a : Nat) (s : State) : Outcome :=
  deliver s (.ok (.decoded (.lns (Lns.decode s.cfg (lnsPort s.cfg a)))))

/-- LENC, lns_encoder (R96). -/
def execLenc (d : LnsDec) (s : State) : Outcome :=
  deliver s ((Lns.encode s.cfg d).map Response.pattern)

end Sys2Proof.Machine
end

