-- ==== Sys2Proof/Machine/Comparator.lean ====
section
/-! DEFINITION. The comparator (spec 45_comparator.md): PCMP, LCMP, FCMP. -/

namespace Sys2Proof.Machine

/-- What PCMP answers (R162): numbers are ordered as their patterns read in two's complement. -/
def Posit.compare (c : Config) (a b : BitVec c.pN) : Relation :=
  relationWithNar c (a == Posit.nar c) (b == Posit.nar c) a.toInt b.toInt

/-- `key_L` (R163): 0 for the zero token; otherwise the distance of the logarithm code above the least
one, counted from 1, with the sign of the value. -/
def Lns.key (c : Config) (p : BitVec c.lN) : Int :=
  if p = Lns.zero c then 0
  else
    let m := Lns.code c p - c.lEMin + 1
    if p.msb then -m else m

/-- What LCMP answers (R163). -/
def Lns.compare (c : Config) (a b : BitVec c.lN) : Relation :=
  relationWithNar c (a == Lns.nar c) (b == Lns.nar c) (Lns.key c a) (Lns.key c b)

/-- What FCMP answers (R164): fixed-point has no NaR. -/
def Fix.compare (c : Config) (a b : BitVec c.fN) : Relation := relationOf a.toInt b.toInt

/-- PCMP, comparator (R162). -/
def execPcmp (a b : Nat) (s : State) : Outcome :=
  deliver s (.ok (.compared (Posit.compare s.cfg (posPort s.cfg a) (posPort s.cfg b))))

/-- LCMP, comparator (R163). -/
def execLcmp (a b : Nat) (s : State) : Outcome :=
  deliver s (.ok (.compared (Lns.compare s.cfg (lnsPort s.cfg a) (lnsPort s.cfg b))))

/-- FCMP, comparator (R164). -/
def execFcmp (a b : Nat) (s : State) : Outcome :=
  deliver s (.ok (.compared (Fix.compare s.cfg (fixPort s.cfg a) (fixPort s.cfg b))))

end Sys2Proof.Machine
end

