-- ==== Sys2Proof/Machine/FixedCodec.lean ====
section
/-! DEFINITION. The fixed-point codec (spec 42_fixed_codec.md): fixed_point_decoder (FDEC) and
fixed_point_encoder (FENC). -/

namespace Sys2Proof.Machine

/-- The decoded tuple of FDEC: the magnitude of `signed_N(a)` split at the radix point (R107, R109). -/
def Fix.decode (c : Config) (a : BitVec c.fN) : FixDec :=
  let mag := a.toInt.natAbs
  { special := if a = Fix.zero c then Special.zero.bits else Special.none.bits
    sign := a.msb
    ipart := mag / 2 ^ c.fR
    fpart := mag % 2 ^ c.fR }

/-- `val_F(p) = signed_N(p) / 2^R` (R105, R108). -/
def Fix.val (c : Config) (p : BitVec c.fN) : ℚ := p.toInt / 2 ^ c.fR

/-- The pattern of an integer code after overflow handling (R131, R132): `Saturate` clamps it to
`F_IMIN … F_IMAX`. -/
def Fix.saturate (c : Config) (i : Int) : BitVec c.fN :=
  match c.fxOverflow with
  | .saturate => BitVec.ofInt c.fN (clampInt c.fIMin c.fIMax i)

/-- The saturation bound of a sign: `0b10…0` for sign 1, `0b01…1` for sign 0 (R110, R133, R197). -/
def Fix.bound (c : Config) (sign : Bool) : BitVec c.fN :=
  if sign then Fix.maxNeg c else Fix.maxPos c

/-- FENC (R110 to R112). -/
def Fix.encode (c : Config) (d : FixDec) : Except FaultCode (BitVec c.fN) :=
  match Special.ofBits d.special with
  | .nar => .error .noImage
  | .zero => .ok (Fix.zero c)
  | .inf => .ok (Fix.bound c d.sign)
  | .none =>
      if 2 ^ c.fR ≤ d.fpart then .error .malformedOperand
      else
        .ok (Fix.saturate c
          ((if d.sign then -1 else 1) * ((d.ipart * 2 ^ c.fR + d.fpart : Nat) : Int)))

/-- FDEC, fixed_point_decoder (R109). -/
def execFdec (a : Nat) (s : State) : Outcome :=
  deliver s (.ok (.decoded (.fix (Fix.decode s.cfg (fixPort s.cfg a)))))

/-- FENC, fixed_point_encoder (R110). -/
def execFenc (d : FixDec) (s : State) : Outcome :=
  deliver s ((Fix.encode s.cfg d).map Response.pattern)

end Sys2Proof.Machine
end

