-- ==== Sys2Proof/Machine/PositCodec.lean ====
section
/-! DEFINITION. The posit codec (spec 40_posit_codec.md): posit_decoder (PDEC) and posit_encoder (PENC). -/

namespace Sys2Proof.Machine

/-- How many of the bits `q[bits−1], q[bits−2], …` in a row equal `r0` (R72). -/
def Posit.runLength {n : Nat} (q : BitVec n) (r0 : Bool) : Nat → Nat
  | 0 => 0
  | bits + 1 => if q.getLsbD bits == r0 then Posit.runLength q r0 bits + 1 else 0

/-- The first regime bit `r0 = q[N−2]` (R72). -/
def Posit.regimeBit (c : Config) (q : BitVec c.pN) : Bool := q.getLsbD (c.pN - 2)

/-- `run`: the length of the regime run, at most `N − 1` (R72). -/
def Posit.regimeRun (c : Config) (q : BitVec c.pN) : Nat :=
  Posit.runLength q (Posit.regimeBit c q) (c.pN - 1)

/-- The magnitude pattern: `p` or its two's complement negation by the sign bit (R73). -/
def Posit.magPattern (c : Config) (p : BitVec c.pN) : BitVec c.pN := if p.msb then -p else p

/-- `k`: the power of useed (R74). -/
def Posit.regimeValue (r0 : Bool) (run : Nat) : Int := if r0 then (run : Int) - 1 else -(run : Int)

/-- `rem`: the number of bits below the terminator (R75); the subtraction of naturals stops at 0. -/
def Posit.remBits (c : Config) (run : Nat) : Nat := c.pN - 1 - run - 1

/-- `ne`: the exponent bits present (R75). -/
def Posit.expBits (c : Config) (run : Nat) : Nat := min c.pES (Posit.remBits c run)

/-- `nf`: the fraction bits present (R75). -/
def Posit.fracBits (c : Config) (run : Nat) : Nat := Posit.remBits c run - Posit.expBits c run

/-- `low = q[rem−1:0]` (R75). -/
def Posit.lowBits (c : Config) (q : BitVec c.pN) : Nat :=
  q.toNat % 2 ^ Posit.remBits c (Posit.regimeRun c q)

/-- `e`: the exponent, cut-off bits read as 0 (R75). -/
def Posit.exponent (c : Config) (q : BitVec c.pN) : Nat :=
  let run := Posit.regimeRun c q
  (Posit.lowBits c q / 2 ^ Posit.fracBits c run) * 2 ^ (c.pES - Posit.expBits c run)

/-- `scale = k · 2^ES + e` (R75). -/
def Posit.scale (c : Config) (q : BitVec c.pN) : Int :=
  Posit.regimeValue (Posit.regimeBit c q) (Posit.regimeRun c q) * 2 ^ c.pES + Posit.exponent c q

/-- `sig`: the hidden 1 and the fraction, left-aligned in `FW` bits (R75). -/
def Posit.significand (c : Config) (q : BitVec c.pN) : Nat :=
  let nf := Posit.fracBits c (Posit.regimeRun c q)
  2 ^ c.pFW + (Posit.lowBits c q % 2 ^ nf) * 2 ^ (c.pFW - nf)

/-- The `scan` port for a magnitude pattern (R72, R77). -/
def Posit.scanOf (c : Config) (q : BitVec c.pN) : Scan :=
  let run := Posit.regimeRun c q
  { r0 := Posit.regimeBit c q
    run := run
    term := decide (run < c.pN - 1)
    ne := Posit.expBits c run
    nf := Posit.fracBits c run }

/-- The `scan` port for the zero and NaR patterns (R72, R77). -/
def Posit.specialScan (c : Config) : Scan :=
  { r0 := false, run := c.pN - 1, term := false, ne := 0, nf := 0 }

/-- The decoded tuple of PDEC (R77). -/
def Posit.decode (c : Config) (a : BitVec c.pN) : PositDec :=
  if a = Posit.zero c then { special := Special.zero.bits, sign := false, scale := 0, sig := 0 }
  else if a = Posit.nar c then { special := Special.nar.bits, sign := true, scale := 0, sig := 0 }
  else
    let q := Posit.magPattern c a
    { special := Special.none.bits
      sign := a.msb
      scale := Posit.scale c q
      sig := Posit.significand c q }

/-- The regime scan that PDEC answers (R77). -/
def Posit.scan (c : Config) (a : BitVec c.pN) : Scan :=
  if a = Posit.zero c ∨ a = Posit.nar c then Posit.specialScan c
  else Posit.scanOf c (Posit.magPattern c a)

/-- `2^scale · sig / 2^FW` (R76, R79). -/
def Posit.tupleMagnitude (c : Config) (scale : Int) (sig : Nat) : ℚ :=
  pow2 scale * (sig / 2 ^ c.pFW)

/-- The magnitude of a nonzero magnitude pattern (R76). -/
def Posit.magnitude (c : Config) (q : BitVec c.pN) : ℚ :=
  Posit.tupleMagnitude c (Posit.scale c q) (Posit.significand c q)

/-- `val_P` (R76); `none` is NaR. -/
def Posit.val (c : Config) (p : BitVec c.pN) : Option ℚ :=
  if p = Posit.zero c then some 0
  else if p = Posit.nar c then none
  else some (signFactor p.msb * Posit.magnitude c (Posit.magPattern c p))

/-- The regime of `k` as a bit string: its value and its length (R80). -/
def Posit.regimeString (k : Int) : Nat × Nat :=
  if 0 ≤ k then ((2 ^ (k.toNat + 1) - 1) * 2, k.toNat + 2) else (1, (-k).toNat + 1)

/-- The `N − 1` leading bits `q` of the string regime, exponent, fraction, and the `tail` that does not
fit (R80). -/
def Posit.bitString (c : Config) (scale : Int) (sig : Nat) : Nat × Nat :=
  let k := scale / 2 ^ c.pES
  let e := (scale - k * 2 ^ c.pES).toNat
  let f := sig - 2 ^ c.pFW
  let regime := Posit.regimeString k
  let X := (regime.1 * 2 ^ c.pES + e) * 2 ^ c.pFW + f
  let cut := regime.2 + c.pES + c.pFW - (c.pN - 1)
  (X / 2 ^ cut, X % 2 ^ cut)

/-- The pattern of a sign and a magnitude code: `{0, code}` or its negation (R80, R121).  Code 0 is the
zero pattern under either sign: there is no negative zero (R142). -/
def Posit.ofCode (c : Config) (sign : Bool) (code : Nat) : BitVec c.pN :=
  if sign then -BitVec.ofNat c.pN code else BitVec.ofNat c.pN code

/-- PENC (R78 to R82). -/
def Posit.encode (c : Config) (d : PositDec) : Except FaultCode (BitVec c.pN) :=
  match Special.ofBits d.special with
  | .zero => .ok (Posit.zero c)
  | .nar => .ok (Posit.nar c)
  | .inf => .ok (Posit.nar c)
  | .none =>
      if d.sig < 2 ^ c.pFW ∨ 2 ^ (c.pFW + 1) ≤ d.sig then .error .malformedOperand
      else
        let m := Posit.tupleMagnitude c d.scale d.sig
        if c.pMaxPos < m ∨ m < c.pMinPos then .ok (Posit.nar c)
        else
          let (q, tail) := Posit.bitString c d.scale d.sig
          if tail ≠ 0 then .error .malformedOperand else .ok (Posit.ofCode c d.sign q)

/-- PDEC, posit_decoder (R77). -/
def execPdec (a : Nat) (s : State) : Outcome :=
  deliver s (.ok (.scanned (.posit (Posit.decode s.cfg (posPort s.cfg a)))
    (Posit.scan s.cfg (posPort s.cfg a))))

/-- PENC, posit_encoder (R82). -/
def execPenc (d : PositDec) (s : State) : Outcome :=
  deliver s ((Posit.encode s.cfg d).map Response.pattern)

end Sys2Proof.Machine
end

