-- ==== Sys2Proof/Machine/Rounder.lean ====
section
/-! DEFINITION. round_to_nearest_engine (spec 43_rounder.md): the rounding functions of the three
formats, which every arithmetic operation uses too, and PRND, LRND, FRND. -/

namespace Sys2Proof.Machine

/-- `mag(c)`: the magnitude of a magnitude code, 0 for code 0 (R121). -/
def Posit.mag (c : Config) (code : Nat) : ℚ :=
  if code = 0 then 0 else Posit.magnitude c (BitVec.ofNat c.pN code)

/-- `M = 2^(N−1) − 1`, the largest magnitude code (R121). -/
def Posit.maxCode (c : Config) : Nat := 2 ^ (c.pN - 1) - 1

/-- The code of the magnitude nearest to `x ≥ 0` by arithmetic distance: `P_ROUND_DOMAIN = value`
(R121 to R124). -/
def Posit.nearestCode (c : Config) (tie : Tie) (x : ℚ) : Nat :=
  if Posit.mag c (Posit.maxCode c) ≤ x then Posit.maxCode c
  else
    let lo := largestCode (fun code => decide (Posit.mag c code ≤ x)) (c.pN - 1) 0
    let hi := lo + 1
    if x - Posit.mag c lo < Posit.mag c hi - x then lo
    else if Posit.mag c hi - x < x - Posit.mag c lo then hi
    else if tie.goesUp lo then hi else lo

/-- The code obtained by cutting the unbounded bit string of `x > 0` to `N − 1` bits, to nearest on
the cut: `P_ROUND_DOMAIN = bitstring` (R125).  `S` is the string read as a binary numeral with its
point after the exponent bits, so `S · 2^(N−1−len)` has the kept bits before the point, the guard
bit just after it, and a remainder exactly when a later bit is set. -/
def Posit.bitstringCode (c : Config) (tie : Tie) (x : ℚ) : Nat :=
  if x ≤ 0 then 0
  else
    let s := floorLog2 x
    let t := x / pow2 s - 1
    let k := s / 2 ^ c.pES
    let e := s - k * 2 ^ c.pES
    let regime := Posit.regimeString k
    let len := regime.2 + c.pES
    let S : ℚ := (regime.1 : ℚ) * 2 ^ c.pES + e + t
    let cut := S * pow2 ((c.pN : Int) - 1 - len)
    let keep := cut.floor
    let guarded := ((cut - keep) * 2).floor
    let sticky := decide (guarded < (cut - keep) * 2)
    let up := guarded == 1 && (sticky || tie.goesUp keep)
    min (if up then keep + 1 else keep).toNat (Posit.maxCode c)

/-- The magnitude code that `x ≥ 0` rounds to, in the instance's reading of "nearest" (R121, R125). -/
def Posit.roundCode (c : Config) (tie : Tie) (x : ℚ) : Nat :=
  match c.pRoundDomain with
  | .value => Posit.nearestCode c tie x
  | .bitstring => Posit.bitstringCode c tie x

/-- `RoundP(v)` or `RoundP_bits(v)` (R121, R125). -/
def Posit.round (c : Config) (v : ℚ) : BitVec c.pN :=
  if v = 0 then Posit.zero c else Posit.ofCode c (decide (v < 0)) (Posit.roundCode c .even |v|)

/-- The pattern of a rounded magnitude with a given sign: `RoundP((−1)^sign · x)`. -/
def Posit.roundMagnitude (c : Config) (sign : Bool) (tie : Tie) (x : ℚ) : BitVec c.pN :=
  Posit.ofCode c sign (Posit.roundCode c tie x)

/-- `RoundL(sign, L)` (R127 to R129).  Below `Lmin` the result is zero up to the value-domain midpoint
`Lmin − 1`, which goes to zero (the limit from above goes to `L_EMIN`). -/
def Lns.roundTie (c : Config) (sign : Bool) (tie : Tie) (L : ℚ) : BitVec c.lN :=
  let Lmin : ℚ := c.lEMin / 2 ^ c.lR
  if L < Lmin then
    (if L < Lmin - 1 ∨ (L = Lmin - 1 ∧ tie ≠ .up) then Lns.zero c else Lns.pack c sign c.lEMin)
  else Lns.pack c sign (min (roundInt tie (L * 2 ^ c.lR)) c.lEMax)

/-- `RoundL(sign, L)` (R127). -/
def Lns.round (c : Config) (sign : Bool) (L : ℚ) : BitVec c.lN := Lns.roundTie c sign .even L

/-- `RoundF(v)` with its ties settled by `tie` (R131, R132). -/
def Fix.roundTie (c : Config) (tie : Tie) (v : ℚ) : BitVec c.fN :=
  Fix.saturate c (roundInt tie (v * 2 ^ c.fR))

/-- `RoundF(v)` (R131, R132). -/
def Fix.round (c : Config) (v : ℚ) : BitVec c.fN := Fix.roundTie c .even v

/-- The two naturals that settle a draw of this transaction, if it makes one (R134, W1). -/
def drawOf (s : State) (op : OpCode) (sign : Bool) (mant exp2 : Int) : Nat × Nat :=
  Config.stickyDraw s.cfg op sign mant exp2 s.draws

/-- The pattern PRND answers (R126, R134, R135). -/
def Posit.roundOperand (c : Config) (u : Unrounded) (pick : Nat × Nat) : BitVec c.pN :=
  match Special.ofBits u.special with
  | .nar => Posit.nar c
  | .zero => Posit.zero c
  | .inf => if u.sign then Posit.maxNeg c else Posit.maxPos c
  | .none =>
      if u.mant = 0 ∧ u.sticky = false then Posit.zero c
      else roundDenoted (Posit.roundMagnitude c u.sign) (magnitudeOf u) pick

/-- Is PRND's answer a draw? -/
def Posit.draws (c : Config) (u : Unrounded) : Bool :=
  Special.ofBits u.special == .none && isDraw (Posit.roundMagnitude c u.sign) (magnitudeOf u)

/-- The pattern LRND answers (R130, R134, R135). -/
def Lns.roundOperand (c : Config) (u : UnroundedLog) (pick : Nat × Nat) : BitVec c.lN :=
  match Special.ofBits u.special with
  | .nar => Lns.nar c
  | .zero => Lns.zero c
  | .inf => Lns.pack c u.sign c.lEMax
  | .none => roundDenoted (Lns.roundTie c u.sign) (logarithmOf u) pick

/-- Is LRND's answer a draw? -/
def Lns.draws (c : Config) (u : UnroundedLog) : Bool :=
  Special.ofBits u.special == .none && isDraw (Lns.roundTie c u.sign) (logarithmOf u)

/-- The pattern FRND answers, or `NO_IMAGE` (R133, R134, R135). -/
def Fix.roundOperand (c : Config) (u : Unrounded) (pick : Nat × Nat) :
    Except FaultCode (BitVec c.fN) :=
  match Special.ofBits u.special with
  | .nar => .error .noImage
  | .zero => .ok (Fix.zero c)
  | .inf => .ok (Fix.bound c u.sign)
  | .none =>
      if u.mant = 0 ∧ u.sticky = false then .ok (Fix.zero c)
      else .ok (roundDenoted (Fix.roundTie c) ((magnitudeOf u).withSign u.sign) pick)

/-- Is FRND's answer a draw? -/
def Fix.draws (c : Config) (u : Unrounded) : Bool :=
  Special.ofBits u.special == .none &&
    isDraw (Fix.roundTie c) ((magnitudeOf u).withSign u.sign)

/-- `r` and `dq = PDEC(r).dq` (R126). -/
def Posit.roundedResponse (c : Config) (r : BitVec c.pN) : Response :=
  .rounded r (.posit (Posit.decode c r))

/-- `r` and `dq = LDEC(r).dq` (R130). -/
def Lns.roundedResponse (c : Config) (r : BitVec c.lN) : Response :=
  .rounded r (.lns (Lns.decode c r))

/-- `r` and `dq = FDEC(r).dq` (R133). -/
def Fix.roundedResponse (c : Config) (r : BitVec c.fN) : Response :=
  .rounded r (.fix (Fix.decode c r))

/-- PRND, round_to_nearest_engine with posit target (R126). -/
def execPrnd (u : Unrounded) (s : State) : Outcome :=
  deliver (s.countDraw (Posit.draws s.cfg u))
    (.ok (Posit.roundedResponse s.cfg
      (Posit.roundOperand s.cfg u (drawOf s 0b00010#5 u.sign u.mant u.exp2))))

/-- LRND, round_to_nearest_engine with LNS target (R130). -/
def execLrnd (u : UnroundedLog) (s : State) : Outcome :=
  deliver (s.countDraw (Lns.draws s.cfg u))
    (.ok (Lns.roundedResponse s.cfg
      (Lns.roundOperand s.cfg u (drawOf s 0b01010#5 u.sign u.lmant u.lexp2))))

/-- FRND, round_to_nearest_engine with fixed-point target (R133). -/
def execFrnd (u : Unrounded) (s : State) : Outcome :=
  deliver (s.countDraw (Fix.draws s.cfg u))
    ((Fix.roundOperand s.cfg u (drawOf s 0b10010#5 u.sign u.mant u.exp2)).map
      (Fix.roundedResponse s.cfg))

end Sys2Proof.Machine
end

