-- ==== Sys2Proof/Machine/ExtArith.lean ====
section
/-! DEFINITION. The extension `EXT_ARITH` (spec 47_ext_arith.md): LNS and fixed-point addition,
subtraction, multiplication and division.  With `EXT_ARITH = false` their codes are illegal (R185). -/

namespace Sys2Proof.Machine

/-- The common form of LMUL and LDIV on two nonzero numbers (R187, R188). -/
def Lns.combine (c : Config) (a b : BitVec c.lN) (E : Int) : BitVec c.lN :=
  Lns.round c (a.msb != b.msb) (E / 2 ^ c.lR)

/-- The pattern LMUL answers (R187). -/
def Lns.mul (c : Config) (a b : BitVec c.lN) : BitVec c.lN :=
  if a = Lns.nar c ∨ b = Lns.nar c then Lns.nar c
  else if a = Lns.zero c ∨ b = Lns.zero c then Lns.zero c
  else Lns.combine c a b (Lns.code c a + Lns.code c b)

/-- The pattern LDIV answers (R188): division by zero gives NaR. -/
def Lns.div (c : Config) (a b : BitVec c.lN) : BitVec c.lN :=
  if a = Lns.nar c ∨ b = Lns.nar c then Lns.nar c
  else if b = Lns.zero c then Lns.nar c
  else if a = Lns.zero c then Lns.zero c
  else Lns.combine c a b (Lns.code c a - Lns.code c b)

/-- The sign of the exact sum of two nonzero numbers that do not cancel: that of the operand of larger
magnitude (R189, condition 3). -/
def Lns.sumSign (c : Config) (a b : BitVec c.lN) : Bool :=
  if Lns.code c a < Lns.code c b then b.msb else a.msb

/-- `LNS_ADDSUB` (R189): the instance's open function, under the three constraints of the rule.  It
sees the operands in one order, so it is commutative; it answers the zero token or a code within
`L_EMIN … L_EMAX` with the sign of the exact sum, so it is never NaR and is sign-correct.  Every
function that meets the constraints is of this form for some `Config.lnsSumCode`. -/
def Lns.addSub (c : Config) (a b : BitVec c.lN) : BitVec c.lN :=
  match Config.lnsSumCode c.lnsAddSub c.lN c.lR (min a.toNat b.toNat) (max a.toNat b.toNat) with
  | none => Lns.zero c
  | some E => Lns.pack c (Lns.sumSign c a b) (clampInt c.lEMin c.lEMax E)

/-- The pattern LADD answers (R190). -/
def Lns.add (c : Config) (a b : BitVec c.lN) : BitVec c.lN :=
  if a = Lns.nar c ∨ b = Lns.nar c then Lns.nar c
  else if a = Lns.zero c then b
  else if b = Lns.zero c then a
  else if a.msb ≠ b.msb ∧ Lns.code c a = Lns.code c b then Lns.zero c
  else Lns.addSub c a b

/-- `neg_L` (R191). -/
def Lns.neg (c : Config) (p : BitVec c.lN) : BitVec c.lN :=
  if p = Lns.zero c ∨ p = Lns.nar c then p else p ^^^ BitVec.ofNat c.lN (2 ^ (c.lN - 1))

/-- The pattern LSUB answers (R191). -/
def Lns.sub (c : Config) (a b : BitVec c.lN) : BitVec c.lN := Lns.add c a (Lns.neg c b)

/-- The pattern FADD answers (R193). -/
def Fix.add (c : Config) (a b : BitVec c.fN) : BitVec c.fN := Fix.saturate c (a.toInt + b.toInt)

/-- The pattern FSUB answers (R194). -/
def Fix.sub (c : Config) (a b : BitVec c.fN) : BitVec c.fN := Fix.saturate c (a.toInt - b.toInt)

/-- The pattern FMUL answers (R195). -/
def Fix.mul (c : Config) (a b : BitVec c.fN) : BitVec c.fN :=
  Fix.saturate c (rne ((a.toInt * b.toInt : Int) / 2 ^ c.fR))

/-- The pattern FDIV answers (R196), by a zero divisor as `FX_DIV0_POLICY` says (R197). -/
def Fix.div (c : Config) (a b : BitVec c.fN) : Except FaultCode (BitVec c.fN) :=
  if b.toInt = 0 then
    match c.fxDiv0Policy with
    | .signal => .error .divByZero
    | .clamp => .ok (Fix.bound c a.msb)
  else .ok (Fix.saturate c (rne ((a.toInt * 2 ^ c.fR : Int) / (b.toInt : ℚ))))

/-- LADD (R190). -/
def execLadd (a b : Nat) (s : State) : Outcome :=
  deliver s (gated s.cfg (.ok (.pattern (Lns.add s.cfg (lnsPort s.cfg a) (lnsPort s.cfg b)))))

/-- LSUB (R191). -/
def execLsub (a b : Nat) (s : State) : Outcome :=
  deliver s (gated s.cfg (.ok (.pattern (Lns.sub s.cfg (lnsPort s.cfg a) (lnsPort s.cfg b)))))

/-- LMUL (R187). -/
def execLmul (a b : Nat) (s : State) : Outcome :=
  deliver s (gated s.cfg (.ok (.pattern (Lns.mul s.cfg (lnsPort s.cfg a) (lnsPort s.cfg b)))))

/-- LDIV (R188). -/
def execLdiv (a b : Nat) (s : State) : Outcome :=
  deliver s (gated s.cfg (.ok (.pattern (Lns.div s.cfg (lnsPort s.cfg a) (lnsPort s.cfg b)))))

/-- FADD (R193). -/
def execFadd (a b : Nat) (s : State) : Outcome :=
  deliver s (gated s.cfg (.ok (.pattern (Fix.add s.cfg (fixPort s.cfg a) (fixPort s.cfg b)))))

/-- FSUB (R194). -/
def execFsub (a b : Nat) (s : State) : Outcome :=
  deliver s (gated s.cfg (.ok (.pattern (Fix.sub s.cfg (fixPort s.cfg a) (fixPort s.cfg b)))))

/-- FMUL (R195). -/
def execFmul (a b : Nat) (s : State) : Outcome :=
  deliver s (gated s.cfg (.ok (.pattern (Fix.mul s.cfg (fixPort s.cfg a) (fixPort s.cfg b)))))

/-- FDIV (R196, R197). -/
def execFdiv (a b : Nat) (s : State) : Outcome :=
  deliver s (gated s.cfg
    ((Fix.div s.cfg (fixPort s.cfg a) (fixPort s.cfg b)).map Response.pattern))

end Sys2Proof.Machine
end

