-- ==== Sys2Proof/Machine/PositArith.lean ====
section
/-! DEFINITION. adder_posit, subtractor_posit, multiplier_posit and divider_posit (spec
44_posit_arith.md): exact rational arithmetic, rounded once (R140, R143). -/

namespace Sys2Proof.Machine

/-- `posit_op(f, a, b)` (R140): NaR absorbs (R141); otherwise the exact result is rounded, and an
operation that has none (`f` answers `none`: a zero divisor, R148) gives NaR. -/
def Posit.operate (c : Config) (f : ℚ → ℚ → Option ℚ) (a b : BitVec c.pN) : BitVec c.pN :=
  match Posit.val c a, Posit.val c b with
  | some x, some y =>
      match f x y with
      | some v => Posit.round c v
      | none => Posit.nar c
  | _, _ => Posit.nar c

/-- The quotient of two rationals, none by zero (R148). -/
def exactQuotient (x y : ℚ) : Option ℚ := if y = 0 then none else some (x / y)

/-- The pattern PADD answers (R145). -/
def Posit.add (c : Config) : BitVec c.pN → BitVec c.pN → BitVec c.pN :=
  Posit.operate c fun x y => some (x + y)

/-- The pattern PSUB answers (R146). -/
def Posit.sub (c : Config) : BitVec c.pN → BitVec c.pN → BitVec c.pN :=
  Posit.operate c fun x y => some (x - y)

/-- The pattern PMUL answers (R147). -/
def Posit.mul (c : Config) : BitVec c.pN → BitVec c.pN → BitVec c.pN :=
  Posit.operate c fun x y => some (x * y)

/-- The pattern PDIV answers (R148). -/
def Posit.div (c : Config) : BitVec c.pN → BitVec c.pN → BitVec c.pN :=
  Posit.operate c exactQuotient

/-- PADD, adder_posit (R145). -/
def execPadd (a b : Nat) (s : State) : Outcome :=
  deliver s (.ok (.pattern (Posit.add s.cfg (posPort s.cfg a) (posPort s.cfg b))))

/-- PSUB, subtractor_posit (R146). -/
def execPsub (a b : Nat) (s : State) : Outcome :=
  deliver s (.ok (.pattern (Posit.sub s.cfg (posPort s.cfg a) (posPort s.cfg b))))

/-- PMUL, multiplier_posit (R147). -/
def execPmul (a b : Nat) (s : State) : Outcome :=
  deliver s (.ok (.pattern (Posit.mul s.cfg (posPort s.cfg a) (posPort s.cfg b))))

/-- PDIV, divider_posit (R148). -/
def execPdiv (a b : Nat) (s : State) : Outcome :=
  deliver s (.ok (.pattern (Posit.div s.cfg (posPort s.cfg a) (posPort s.cfg b))))

end Sys2Proof.Machine
end

