-- ==== Sys2Proof/Machine/SpecialValues.lean ====
section
/-! DEFINITION. special_value_handler (spec 46_special_values.md): the classifiers PCLS, LCLS, FCLS and
the constants PCONST, LCONST, FCONST. -/

namespace Sys2Proof.Machine

/-- What PCLS answers: bit tests of the pattern (R174, R180). -/
def Posit.classify (c : Config) (a : BitVec c.pN) : ClsWires :=
  clsBits a.msb (a.msb && a.setWidth (c.pN - 1) == 0) (a == 0)

/-- The reserved logarithm code: `a[N−2] = 1` and `a[N−3:0] = 0` (R175). -/
def Lns.isReserved (c : Config) (a : BitVec c.lN) : Bool :=
  a.getLsbD (c.lN - 2) && a.setWidth (c.lN - 2) == 0

/-- What LCLS answers (R175). -/
def Lns.classify (c : Config) (a : BitVec c.lN) : ClsWires :=
  clsBits a.msb (Lns.isReserved c a && a.msb) (Lns.isReserved c a && !a.msb)

/-- What FCLS answers (R176): no fixed-point pattern is special. -/
def Fix.classify (c : Config) (a : BitVec c.fN) : ClsWires :=
  clsBits a.msb false (a == 0)

/-- The pattern `sel` names (R171, R177); `110` and `111` are reserved (R54). -/
def Posit.constant (c : Config) (sel : Sel) : Except FaultCode (BitVec c.pN) :=
  match sel.toNat with
  | 0b000 => .ok (Posit.zero c)
  | 0b001 => .ok (Posit.nar c)
  | 0b010 => .ok (Posit.maxPos c)
  | 0b011 => .ok (Posit.minPos c)
  | 0b100 => .ok (Posit.maxNeg c)
  | 0b101 => .ok (Posit.minNeg c)
  | _ => .error .malformedOperand

/-- The pattern `sel` names (R172, R178). -/
def Lns.constant (c : Config) (sel : Sel) : Except FaultCode (BitVec c.lN) :=
  match sel.toNat with
  | 0b000 => .ok (Lns.zero c)
  | 0b001 => .ok (Lns.nar c)
  | 0b010 => .ok (Lns.maxPos c)
  | 0b011 => .ok (Lns.minPos c)
  | 0b100 => .ok (Lns.maxNeg c)
  | 0b101 => .ok (Lns.minNeg c)
  | _ => .error .malformedOperand

/-- The pattern `sel` names (R173, R179): fixed-point has no NaR, so `001` is reserved too. -/
def Fix.constant (c : Config) (sel : Sel) : Except FaultCode (BitVec c.fN) :=
  match sel.toNat with
  | 0b000 => .ok (Fix.zero c)
  | 0b010 => .ok (Fix.maxPos c)
  | 0b011 => .ok (Fix.minPos c)
  | 0b100 => .ok (Fix.maxNeg c)
  | 0b101 => .ok (Fix.minNeg c)
  | _ => .error .malformedOperand

/-- PCLS, special_value_handler (R174). -/
def execPcls (a : Nat) (s : State) : Outcome :=
  deliver s (.ok (.classified (Posit.classify s.cfg (posPort s.cfg a))))

/-- LCLS, special_value_handler (R175). -/
def execLcls (a : Nat) (s : State) : Outcome :=
  deliver s (.ok (.classified (Lns.classify s.cfg (lnsPort s.cfg a))))

/-- FCLS, special_value_handler (R176). -/
def execFcls (a : Nat) (s : State) : Outcome :=
  deliver s (.ok (.classified (Fix.classify s.cfg (fixPort s.cfg a))))

/-- PCONST, special_value_handler (R177). -/
def execPconst (sel : Sel) (s : State) : Outcome :=
  deliver s ((Posit.constant s.cfg sel).map Response.pattern)

/-- LCONST, special_value_handler (R178). -/
def execLconst (sel : Sel) (s : State) : Outcome :=
  deliver s ((Lns.constant s.cfg sel).map Response.pattern)

/-- FCONST, special_value_handler (R179). -/
def execFconst (sel : Sel) (s : State) : Outcome :=
  deliver s ((Fix.constant s.cfg sel).map Response.pattern)

end Sys2Proof.Machine
end

