-- ==== Sys2Proof/Machine/Dispatch.lean ====
section
/-! DEFINITION. The dispatcher: one arm per constructor of `Instr`, each one call of its meaning. -/

namespace Sys2Proof.Machine

/-- The outcome of an instruction in a state. -/
def exec (i : Instr) (s : State) : Host.Outcome State Fault Refusal :=
  match i with
  | .pdec a => Sys2Proof.Machine.execPdec a s
  | .penc d => Sys2Proof.Machine.execPenc d s
  | .prnd u => Sys2Proof.Machine.execPrnd u s
  | .pcls a => Sys2Proof.Machine.execPcls a s
  | .padd a b => Sys2Proof.Machine.execPadd a b s
  | .psub a b => Sys2Proof.Machine.execPsub a b s
  | .pmul a b => Sys2Proof.Machine.execPmul a b s
  | .pdiv a b => Sys2Proof.Machine.execPdiv a b s
  | .ldec a => Sys2Proof.Machine.execLdec a s
  | .lenc d => Sys2Proof.Machine.execLenc d s
  | .lrnd u => Sys2Proof.Machine.execLrnd u s
  | .lcls a => Sys2Proof.Machine.execLcls a s
  | .ladd a b => Sys2Proof.Machine.execLadd a b s
  | .lsub a b => Sys2Proof.Machine.execLsub a b s
  | .lmul a b => Sys2Proof.Machine.execLmul a b s
  | .ldiv a b => Sys2Proof.Machine.execLdiv a b s
  | .fdec a => Sys2Proof.Machine.execFdec a s
  | .fenc d => Sys2Proof.Machine.execFenc d s
  | .frnd u => Sys2Proof.Machine.execFrnd u s
  | .fcls a => Sys2Proof.Machine.execFcls a s
  | .fadd a b => Sys2Proof.Machine.execFadd a b s
  | .fsub a b => Sys2Proof.Machine.execFsub a b s
  | .fmul a b => Sys2Proof.Machine.execFmul a b s
  | .fdiv a b => Sys2Proof.Machine.execFdiv a b s
  | .pcmp a b => Sys2Proof.Machine.execPcmp a b s
  | .lcmp a b => Sys2Proof.Machine.execLcmp a b s
  | .fcmp a b => Sys2Proof.Machine.execFcmp a b s
  | .pconst sel => Sys2Proof.Machine.execPconst sel s
  | .lconst sel => Sys2Proof.Machine.execLconst sel s
  | .fconst sel => Sys2Proof.Machine.execFconst sel s

end Sys2Proof.Machine
end

