-- ==== Sys2Proof/Machine/Step.lean ====
section
/-! DEFINITION. One step: one transaction.  The block samples the request ports together and answers on
the response ports (spec 20_memory.md R43); it fetches nothing (10_state.md R28). -/

namespace Sys2Proof.Machine

/-- One transaction: the operation that `op` selects, or `ILLEGAL_OP` for a reserved code (R55, R208). -/
def step (s : State) : Host.Outcome State Fault Refusal :=
  match decode s.req with
  | .ok i => exec i s
  | .error (.reservedOp _) => deliver s (.error .illegalOp)

/-- The host drives `op` with the bits of a table row, and zero on every operand port
(notes/assumptions/9.md).  The spec does not say what the response ports carry while a new request is
driven and not yet answered.  DESIGN CHOICE (notes/assumptions/18.md): here the earlier response stays,
because nothing but the request ports is changed, while `State.present` leaves none; the step that
follows replaces it in either case. -/
def State.withFetchWord (s : State) (nbits w : Nat) : State :=
  { s with req := requestOfTableWord nbits w }

end Sys2Proof.Machine
end

