-- ==== Sys2Proof/Machine/HostSequences.lean ====
section
/-! DEFINITION. The requests a host builds from earlier responses (spec 43_rounder.md R136,
44_posit_arith.md R144): conversions between formats and negation are not operations of the block. -/

namespace Sys2Proof.Machine

/-- The rounder's operand that denotes a decoded posit of an instance `c` exactly (R23, R136). -/
def unroundedOfPosit (c : Config) (d : PositDec) : Unrounded where
  special := d.special
  sign := d.sign
  mant := d.sig
  exp2 := d.scale - c.pFW
  sticky := false

/-- The rounder's operand that denotes a decoded fixed-point number of an instance `c` exactly
(R23, R136). -/
def unroundedOfFix (c : Config) (d : FixDec) : Unrounded where
  special := d.special
  sign := d.sign
  mant := d.ipart * 2 ^ c.fR + d.fpart
  exp2 := -c.fR
  sticky := false

/-- The LNS rounder's operand that denotes a decoded LNS number of an instance `c` exactly
(R23, R136). -/
def unroundedOfLns (c : Config) (d : LnsDec) : UnroundedLog where
  special := d.special
  sign := d.sign
  lmant := d.scale * 2 ^ c.lR + d.logfrac
  lexp2 := -c.lR
  sticky := false

/-- Posit to fixed-point, of this instance or another: the request after `t = PDEC p` (R136). -/
def positToFix (c : Config) (d : PositDec) : Instr := .frnd (unroundedOfPosit c d)

/-- Posit to a posit of another shape: the request to the other instance after `t = PDEC p` (R136). -/
def positToPosit (c : Config) (d : PositDec) : Instr := .prnd (unroundedOfPosit c d)

/-- Fixed-point to posit: the request after `t = FDEC p` (R136). -/
def fixToPosit (c : Config) (d : FixDec) : Instr := .prnd (unroundedOfFix c d)

/-- Fixed-point to a fixed-point of another shape: the request after `t = FDEC p` (R136). -/
def fixToFix (c : Config) (d : FixDec) : Instr := .frnd (unroundedOfFix c d)

/-- LNS to an LNS of another shape: the request to the other instance after `t = LDEC p` (R136). -/
def lnsToLns (c : Config) (d : LnsDec) : Instr := .lrnd (unroundedOfLns c d)

/-- Negation of a posit pattern: `PSUB 0, p` (R144). -/
def negatePosit (p : Nat) : Instr := .psub 0 p

end Sys2Proof.Machine
end

