-- ==== Sys2Proof/Safety.lean ====
section
/-! DEFINITION. What counts as a legal response (spec 10_state.md R25, R26, 30_encoding.md R58, R59,
60_exceptions.md R206) and how a host's run of transactions ends (60_exceptions.md R214,
70_reset_and_hazards.md R230), and the terms the statements use. -/

namespace Sys2Proof.Machine

/-- Exactly one bit of `cmp` is 1 (R59). -/
def oneHot (w : CmpWires) : Bool := w == 1#4 || w == 2#4 || w == 4#4 || w == 8#4

/-- `isZero` and `isSpecial` are never both 1 (R174, R175). -/
def clsConsistent (w : ClsWires) : Bool := !(w.getLsbD 0 && w.getLsbD 1)

/-- The tuples a posit decoder can drive: the ranges of R25, and for zero and NaR the fixed fields of
R77. -/
def PositDec.inRange (c : Config) (d : PositDec) : Bool :=
  match Special.ofBits d.special with
  | .none => c.pMinScale ≤ d.scale && d.scale ≤ c.pMaxScale &&
      2 ^ c.pFW ≤ d.sig && d.sig < 2 ^ (c.pFW + 1)
  | .zero => !d.sign && d.scale == 0 && d.sig == 0
  | .nar => d.sign && d.scale == 0 && d.sig == 0
  | .inf => false

/-- The tuples an LNS decoder can drive (R25, R95). -/
def LnsDec.inRange (c : Config) (d : LnsDec) : Bool :=
  match Special.ofBits d.special with
  | .none => c.lEMin / 2 ^ c.lR ≤ d.scale && d.scale ≤ c.lEMax / 2 ^ c.lR && d.logfrac < 2 ^ c.lR
  | .zero => !d.sign && d.scale == 0 && d.logfrac == 0
  | .nar => d.sign && d.scale == 0 && d.logfrac == 0
  | .inf => false

/-- The tuples a fixed-point decoder can drive (R25, R109): never NaR, never `Inf`. -/
def FixDec.inRange (c : Config) (d : FixDec) : Bool :=
  match Special.ofBits d.special with
  | .none => (if c.fR < c.fN then d.ipart ≤ 2 ^ (c.fN - 1 - c.fR) else d.ipart == 0) &&
      d.fpart < 2 ^ c.fR && d.ipart + d.fpart != 0
  | .zero => !d.sign && d.ipart == 0 && d.fpart == 0
  | .nar => false
  | .inf => false

/-- The scans a posit decoder can drive (R72, R75): the regime, its terminator, the exponent bits and
the fraction bits fill the pattern below the sign. -/
def Scan.inRange (c : Config) (x : Scan) : Bool :=
  1 ≤ x.run && x.ne ≤ c.pES && x.nf ≤ c.pFW && x.run + x.term.toNat + x.ne + x.nf == c.pN - 1

/-- What a transaction without a fault drives. -/
inductive Driven where
  | posDecode
  | lnsDecode
  | fixDecode
  | posPattern
  | lnsPattern
  | fixPattern
  | posRounded
  | lnsRounded
  | fixRounded
  | relation
  | classes
  | nothing
deriving DecidableEq, Repr

/-- The result ports of each operation code (R26, R52; the column "results" of the opcode table). -/
def resultsOf (op : OpCode) : Driven :=
  match op.toNat with
  | 0x00 => .posDecode
  | 0x08 => .lnsDecode
  | 0x10 => .fixDecode
  | 0x02 => .posRounded
  | 0x0A => .lnsRounded
  | 0x12 => .fixRounded
  | 0x03 | 0x0B | 0x13 => .classes
  | 0x18 | 0x19 | 0x1A => .relation
  | 0x01 | 0x04 | 0x05 | 0x06 | 0x07 | 0x1C => .posPattern
  | 0x09 | 0x0C | 0x0D | 0x0E | 0x0F | 0x1D => .lnsPattern
  | 0x11 | 0x14 | 0x15 | 0x16 | 0x17 | 0x1E => .fixPattern
  | _ => .nothing

/-- A driven pattern port of width `n`. -/
def patternIn (n : Nat) (r : Option Nat) : Bool :=
  match r with
  | some p => isPattern n p
  | none => false

/-- A driven `dq` port with a tuple that satisfies the test of its format. -/
def tupleIn (c : Config) (fmt : Driven) (dq : Option DecTuple) : Bool :=
  match fmt, dq with
  | .posDecode, some (.posit d) => PositDec.inRange c d
  | .lnsDecode, some (.lns d) => LnsDec.inRange c d
  | .fixDecode, some (.fix d) => FixDec.inRange c d
  | _, _ => false

/-- A response with `fault = NONE` drives exactly the ports its operation lists, each within its range
(R25, R26). -/
def Response.resultLegal (c : Config) (k : Driven) (p : Response) : Bool :=
  match k with
  | .posDecode => tupleIn c .posDecode p.dq && (p.scan.map (Scan.inRange c)).getD false &&
      p.r.isNone && p.cmp.isNone && p.cls.isNone
  | .lnsDecode => tupleIn c .lnsDecode p.dq &&
      p.r.isNone && p.scan.isNone && p.cmp.isNone && p.cls.isNone
  | .fixDecode => tupleIn c .fixDecode p.dq &&
      p.r.isNone && p.scan.isNone && p.cmp.isNone && p.cls.isNone
  | .posPattern => patternIn c.pN p.r && p.dq.isNone && p.scan.isNone && p.cmp.isNone && p.cls.isNone
  | .lnsPattern => patternIn c.lN p.r && p.dq.isNone && p.scan.isNone && p.cmp.isNone && p.cls.isNone
  | .fixPattern => patternIn c.fN p.r && p.dq.isNone && p.scan.isNone && p.cmp.isNone && p.cls.isNone
  | .posRounded => patternIn c.pN p.r && tupleIn c .posDecode p.dq &&
      p.scan.isNone && p.cmp.isNone && p.cls.isNone
  | .lnsRounded => patternIn c.lN p.r && tupleIn c .lnsDecode p.dq &&
      p.scan.isNone && p.cmp.isNone && p.cls.isNone
  | .fixRounded => patternIn c.fN p.r && tupleIn c .fixDecode p.dq &&
      p.scan.isNone && p.cmp.isNone && p.cls.isNone
  | .relation => (p.cmp.map oneHot).getD false &&
      p.r.isNone && p.dq.isNone && p.scan.isNone && p.cls.isNone
  | .classes => (p.cls.map clsConsistent).getD false &&
      p.r.isNone && p.dq.isNone && p.scan.isNone && p.cmp.isNone
  | .nothing => false

/-- The extension codes `01100`–`01111` and `10100`–`10111` (R56). -/
def isExtCode (op : OpCode) : Bool :=
  (0x0C ≤ op.toNat && op.toNat ≤ 0x0F) || (0x14 ≤ op.toNat && op.toNat ≤ 0x17)

/-- The reserved codes `11011` and `11111` (R55). -/
def isReservedCode (op : OpCode) : Bool := op == 0b11011#5 || op == 0b11111#5

/-- Which operations can raise which fault (R206). -/
def mayRaise (c : Config) (op : OpCode) (f : FaultWires) : Bool :=
  match f.toNat with
  | 0b001 => op == 0b10111#5 && c.extArith && c.fxDiv0Policy == .signal
  | 0b010 => op == 0b10001#5 || op == 0b10010#5
  | 0b011 => op == 0b00001#5 || op == 0b01001#5 || op == 0b10001#5 ||
      op == 0b11100#5 || op == 0b11101#5 || op == 0b11110#5
  | 0b100 => isReservedCode op || (isExtCode op && !c.extArith)
  | _ => false

/-- A legal response to a request with operation code `op`: a result on exactly the listed ports, or
the code of a fault that operation can raise and no other port (R206, R214). -/
def Response.legal (c : Config) (op : OpCode) (p : Response) : Bool :=
  if p.fault = FaultCode.none.bits then
    p.resultLegal c (resultsOf op) && !isReservedCode op && (!isExtCode op || c.extArith)
  else mayRaise c op p.fault && p == { fault := p.fault }

/-- The invariant of the machine: the response on the ports, if there is one, is a legal response to
the request on the ports. -/
def State.legal (s : State) : Bool :=
  match s.resp with
  | some p => p.legal s.cfg s.req.op
  | none => true

/-- The fault code of class Misuse: `MALFORMED_OPERAND` and `ILLEGAL_OP` (R206). -/
def isMisuse (f : FaultWires) : Bool :=
  f == FaultCode.malformedOperand.bits || f == FaultCode.illegalOp.bits

/-- The fault codes of class ArithmeticFault: `DIV_BY_ZERO` and `NO_IMAGE` (R206). -/
def isArithmeticFault (f : FaultWires) : Bool :=
  f == FaultCode.divByZero.bits || f == FaultCode.noImage.bits

/-- One entry of a host's list: a request, which may name the responses of earlier transactions, oldest
first (R60, R230). -/
abbrev Transaction := List Response → Request

/-- How a test ends (R230). -/
inductive TestEnd where
  /-- the list is exhausted; the named responses are the observable result -/
  | completed (responses : List Response)
  /-- the first fault of class Misuse is the terminal outcome; the responses before it -/
  | misuse (f : FaultWires) (responses : List Response)
  /-- the machine itself stopped; no transaction does -/
  | stopped
deriving DecidableEq, Repr

/-- A host's run from a state, with the responses it holds so far (R214, R230). -/
def runTest (s : State) (held : List Response) : List Transaction → TestEnd
  | [] => .completed held
  | t :: rest =>
      match step (s.present (t held)) with
      | .next s' =>
          match s'.resp with
          | some p => if isMisuse p.fault then .misuse p.fault held else runTest s' (held ++ [p]) rest
          | none => .stopped
      | _ => .stopped

/-- A test as R230 describes it: a configuration and a list of transactions, from the first one on. -/
def runProgram (c : Config) (program : List Transaction) : TestEnd :=
  runTest (State.resetWith c) [] program

/-- The real number an LNS value denotes (41_lns_codec.md R94). -/
def LnsValue.denotes (v : LnsValue) (x : ℝ) : Prop :=
  match v with
  | .zero => x = 0
  | .nar => False
  | .number sign log => x = (if sign then -1 else 1) * (2 : ℝ) ^ (log : ℝ)

/-- `r` is the number nearest to `v`: every other number is farther, or as far while `r` has bit 0
equal to 0 (43_rounder.md R121, R122).  At most one pattern is. -/
def Posit.nearest (c : Config) (v : ℚ) (r : BitVec c.pN) : Prop :=
  ∃ w, Posit.val c r = some w ∧
    ∀ p z, Posit.val c p = some z → p ≠ r →
      |v - w| < |v - z| ∨ (|v - w| = |v - z| ∧ r.getLsbD 0 = false)

/-- Bit `j`, counted from the first, of the unbounded bit string of `x > 0` (43_rounder.md R125): the
regime and its terminator, `P_ES` exponent bits, and the binary expansion of `t`. -/
def Posit.stringBit (c : Config) (x : ℚ) (j : Nat) : Bool :=
  let s := floorLog2 x
  let t := x / pow2 s - 1
  let k := s / 2 ^ c.pES
  let e := (s - k * 2 ^ c.pES).toNat
  let run := if 0 ≤ k then k.toNat + 1 else (-k).toNat
  if j < run then decide (0 ≤ k)
  else if j = run then decide (k < 0)
  else if j ≤ run + c.pES then e.testBit (c.pES - (j - run))
  else (t * 2 ^ (j - run - c.pES)).floor % 2 == 1

/-- The first bits of that string, as an integer. -/
def Posit.leadingBits (c : Config) (x : ℚ) : Nat → Nat
  | 0 => 0
  | n + 1 => 2 * Posit.leadingBits c x n + (Posit.stringBit c x n).toNat

/-- The cut of R125 rounds up: the guard bit is 1, and a later bit is 1 or the kept part is odd. -/
def Posit.cutRoundsUp (c : Config) (x : ℚ) : Prop :=
  Posit.stringBit c x (c.pN - 1) = true ∧
    ((∃ j, c.pN ≤ j ∧ Posit.stringBit c x j = true) ∨ Posit.leadingBits c x (c.pN - 1) % 2 = 1)

/-- `r` is what `RoundL` makes of the integer logarithm code `E` with sign `sign` (47_ext_arith.md R187):
clamped to `L_EMAX`, raised to `L_EMIN`, or the zero token. -/
def Lns.clampsTo (c : Config) (sign : Bool) (E : Int) (r : BitVec c.lN) : Prop :=
  if E ≤ c.lEMin - 2 ^ c.lR then r = Lns.zero c
  else r.msb = sign ∧ Lns.code c r = max c.lEMin (min E c.lEMax)

/-- An open interval with the ends of what a sticky operand denotes (43_rounder.md R134). -/
def Denoted.holds (i : Denoted) (x : ℚ) : Prop := i.low < x ∧ x < i.high

/-- The responses are those of a host's run from the state after reset: `states k` is the state in which
the host presents its request number `k`, which sees the responses before it, and the step then taken
answers response number `k` and leads to `states (k + 1)` (70_reset_and_hazards.md R230). -/
def answeredInOrder (c : Config) (program : List Transaction) (responses : List Response)
    (states : Nat → State) : Prop :=
  states 0 = State.resetWith c ∧
    ∀ k request p, program[k]? = some request → responses[k]? = some p →
      step ((states k).present (request (responses.take k))) = .next (states (k + 1)) ∧
        (states (k + 1)).resp = some p

end Sys2Proof.Machine
end

