-- ==== Sys2Proof/Certificates/Slice0/Obligations.lean ====
section
/-! DEFINITION. The statements for the provers.  A pattern operand is a bit vector of its port's width, so
`a.toNat` runs over every pattern the port can carry; the configuration is the state's own and so
runs over every instance that exists. -/

open Sys2Proof Sys2Proof.Machine

/- ### Requests and operation codes -/

/-- A step runs the instruction that the request ports name. -/
def Obligations.StepRunsTheDecodedInstruction : Prop :=
  (∀ (s : State) (i : Instr), decode s.req = .ok i → step s = exec i s) ∧
    (∀ (s : State) (i : Instr), i.wellFormed s.cfg = true →
      step (s.present (encode i)) = exec i (s.present (encode i)))

/-- R52, R55: the operation of each of the 32 codes, whatever the operand ports carry. -/
def Obligations.EveryOperationCodeDecodesByTheTable : Prop :=
  ∀ q : Request,
    decode { q with op := 0b00000#5 } = .ok (.pdec q.a) ∧
    decode { q with op := 0b00001#5 } = .ok (.penc q.dP) ∧
    decode { q with op := 0b00010#5 } = .ok (.prnd q.u) ∧
    decode { q with op := 0b00011#5 } = .ok (.pcls q.a) ∧
    decode { q with op := 0b00100#5 } = .ok (.padd q.a q.b) ∧
    decode { q with op := 0b00101#5 } = .ok (.psub q.a q.b) ∧
    decode { q with op := 0b00110#5 } = .ok (.pmul q.a q.b) ∧
    decode { q with op := 0b00111#5 } = .ok (.pdiv q.a q.b) ∧
    decode { q with op := 0b01000#5 } = .ok (.ldec q.a) ∧
    decode { q with op := 0b01001#5 } = .ok (.lenc q.dL) ∧
    decode { q with op := 0b01010#5 } = .ok (.lrnd q.uLog) ∧
    decode { q with op := 0b01011#5 } = .ok (.lcls q.a) ∧
    decode { q with op := 0b01100#5 } = .ok (.ladd q.a q.b) ∧
    decode { q with op := 0b01101#5 } = .ok (.lsub q.a q.b) ∧
    decode { q with op := 0b01110#5 } = .ok (.lmul q.a q.b) ∧
    decode { q with op := 0b01111#5 } = .ok (.ldiv q.a q.b) ∧
    decode { q with op := 0b10000#5 } = .ok (.fdec q.a) ∧
    decode { q with op := 0b10001#5 } = .ok (.fenc q.dF) ∧
    decode { q with op := 0b10010#5 } = .ok (.frnd q.u) ∧
    decode { q with op := 0b10011#5 } = .ok (.fcls q.a) ∧
    decode { q with op := 0b10100#5 } = .ok (.fadd q.a q.b) ∧
    decode { q with op := 0b10101#5 } = .ok (.fsub q.a q.b) ∧
    decode { q with op := 0b10110#5 } = .ok (.fmul q.a q.b) ∧
    decode { q with op := 0b10111#5 } = .ok (.fdiv q.a q.b) ∧
    decode { q with op := 0b11000#5 } = .ok (.pcmp q.a q.b) ∧
    decode { q with op := 0b11001#5 } = .ok (.lcmp q.a q.b) ∧
    decode { q with op := 0b11010#5 } = .ok (.fcmp q.a q.b) ∧
    decode { q with op := 0b11100#5 } = .ok (.pconst q.sel) ∧
    decode { q with op := 0b11101#5 } = .ok (.lconst q.sel) ∧
    decode { q with op := 0b11110#5 } = .ok (.fconst q.sel) ∧
    decode { q with op := 0b11011#5 } = .error (.reservedOp 0b11011#5) ∧
    decode { q with op := 0b11111#5 } = .error (.reservedOp 0b11111#5)

/-- Encoding an instruction and decoding the request gives it back. -/
def Obligations.DecodeInvertsEncode : Prop :=
  ∀ i : Instr, decode (encode i) = .ok i

/-- R26: "A request port that an operation does not list is ignored by it": a request and the request
with zero on every port its operation does not read get the same response.  Two clauses are the model's
choices and not R26's words: that the counts of draws agree, the counter being the model's own field
(notes/assumptions/16.md), and that responses which are draws (W1) agree, because a draw depends on no
unlisted port (notes/assumptions/7.md). -/
def Obligations.UnlistedRequestPortsAreIgnored : Prop :=
  ∀ (s : State) (q : Request) (i : Instr), decode q = .ok i →
    (encode i).op = q.op ∧
    ∃ t t', step (s.present q) = .next t ∧ step (s.present (encode i)) = .next t' ∧
      t.resp = t'.resp ∧ t.cfg = t'.cfg ∧ t.draws = t'.draws

/- ### The block as a whole -/

/-- Every instruction is answered in every state, and changes only the response ports: the
configuration and the request stay, and the model's draw counter moves only for a rounder operation
with its sticky flag set (R20, R43, R212; the counter is the model's choice,
notes/assumptions/16.md). -/
def Obligations.ExecAnswersAndChangesNothingElse : Prop :=
  ∀ (i : Instr) (s : State), ∃ t p, exec i s = .next t ∧
    t.resp = some p ∧ t.cfg = s.cfg ∧ t.req = s.req ∧
    (t.draws = s.draws ∨
      (t.draws = s.draws + 1 ∧
        ((∃ u, (i = .prnd u ∨ i = .frnd u) ∧ u.sticky = true) ∨ (∃ u, i = .lrnd u ∧ u.sticky = true))))

/-- R20: "two transactions with equal requests give equal responses", on one instance, whatever stood
on the response ports and however many draws were made before, unless the response is itself a draw
(W1; the counter of draws is the model's choice, notes/assumptions/16.md). -/
def Obligations.EqualRequestsGetEqualResponses : Prop :=
  ∀ s s' t t' : State, s.cfg = s'.cfg → s.req = s'.req →
    step s = .next t → step s' = .next t' → t.draws = s.draws →
    t.resp = t'.resp ∧ t'.draws = s'.draws

/-- R214, R32: a transaction that made no draw, one that faulted included, leaves the block as if it had
not taken place: the next request is answered in the same way.  R225: a reset keeps the configuration,
and the block then answers as it would have without it.  Three clauses are the model's choices and not
the spec's words: that a reset keeps the request ports and leaves no response on the response ports
(notes/assumptions/10.md, with 4.md for the absent response), and that draws are counted
(notes/assumptions/16.md). -/
def Obligations.EarlierTransactionsAndResetLeaveNoTrace : Prop :=
  (∀ (s t : State) (q : Request), step s = .next t → t.draws = s.draws →
    step (t.present q) = step (s.present q)) ∧
  (∀ s : State, s.assertReset.cfg = s.cfg ∧ s.assertReset.req = s.req ∧ s.assertReset.resp = none ∧
    step s.assertReset = step s)

/-- After every step, from whatever state, the response on the ports is a legal response to the request:
exactly the listed ports are driven, each within its range, or a fault that the operation can raise
is reported alone (R25, R26, R58, R59, R206, R214).  So `State.legal` is an invariant. -/
def Obligations.EveryStepGivesALegalResponse : Prop :=
  (∀ s t : State, s.legal = true → step s = .next t → t.legal = true) ∧
    (∀ s t : State, step s = .next t → t.legal = true)

/-- The invariant holds after reset, for every configuration; the instance that `State.reset` itself stands
for is the model's choice (notes/assumptions/2.md). -/
def Obligations.ResetStateIsLegal : Prop :=
  State.reset.legal = true ∧ ∀ c : Config, (State.resetWith c).legal = true

/- ### Faults -/

/-- R208, R55, R56, R185: `ILLEGAL_OP`, whatever the operand ports carry, for the reserved codes and for
the extension codes of an instance without the extension, and for no other request. -/
def Obligations.IllegalOpIsRaisedExactlyForIllegalCodes : Prop :=
  (∀ s : State,
    (s.req.op = 0b11011#5 ∨ s.req.op = 0b11111#5 ∨
      (s.cfg.extArith = false ∧ s.req.op ∈ [0b01100#5, 0b01101#5, 0b01110#5, 0b01111#5,
        0b10100#5, 0b10101#5, 0b10110#5, 0b10111#5])) →
    step s = .next (s.answer { fault := 0b100#3 })) ∧
  (∀ s t : State, step s = .next t → t.resp.map (·.fault) = some 0b100#3 →
    s.req.op = 0b11011#5 ∨ s.req.op = 0b11111#5 ∨
      (s.cfg.extArith = false ∧ s.req.op ∈ [0b01100#5, 0b01101#5, 0b01110#5, 0b01111#5,
        0b10100#5, 0b10101#5, 0b10110#5, 0b10111#5])) ∧
  (∀ (s : State) (i : Instr), i.isExt = true → s.cfg.extArith = false →
    exec i s = .next (s.answer { fault := 0b100#3 }))

/-- R207: `DIV_BY_ZERO` is raised by FDIV with a zero divisor under `Signal`, for every dividend, and by
nothing else; PDIV and LDIV answer NaR with `fault = NONE`. -/
def Obligations.DivByZeroIsRaisedExactlyByFdiv : Prop :=
  (∀ (s : State) (i : Instr), i.wellFormed s.cfg = true → ∃ t, exec i s = .next t ∧
    (t.resp.map (·.fault) = some 0b001#3 ↔
      s.cfg.extArith = true ∧ s.cfg.fxDiv0Policy = .signal ∧ ∃ a, i = .fdiv a 0)) ∧
  (∀ (s : State) (a : BitVec s.cfg.pN),
    exec (.pdiv a.toNat 0) s = .next (s.answer (.pattern (Posit.nar s.cfg)))) ∧
  (∀ (s : State) (a : BitVec s.cfg.lN), s.cfg.extArith = true →
    exec (.ldiv a.toNat (Lns.zero s.cfg).toNat) s = .next (s.answer (.pattern (Lns.nar s.cfg))))

/-- R210: `NO_IMAGE` is raised by FENC and FRND for a NaR tag, under either policy of division by zero,
and by nothing else. -/
def Obligations.NoImageIsRaisedExactlyForNarTags : Prop :=
  ∀ (s : State) (i : Instr), ∃ t, exec i s = .next t ∧
    (t.resp.map (·.fault) = some 0b010#3 ↔
      (∃ d, i = .fenc d ∧ d.special = 0b11#2) ∨ (∃ u, i = .frnd u ∧ u.special = 0b11#2))

/-- R209: `MALFORMED_OPERAND` is raised for exactly the conditions of the table.  "Not exactly
representable" is said through the value function: no pattern has that magnitude. -/
def Obligations.MalformedOperandIsRaisedExactlyByTheTable : Prop :=
  ∀ (s : State) (i : Instr), ∃ t, exec i s = .next t ∧
    (t.resp.map (·.fault) = some 0b011#3 ↔
      (∃ d, i = .penc d ∧ d.special = 0b00#2 ∧
        (d.sig < 2 ^ s.cfg.pFW ∨ 2 ^ (s.cfg.pFW + 1) ≤ d.sig ∨
          (s.cfg.pMinPos ≤ Posit.tupleMagnitude s.cfg d.scale d.sig ∧
            Posit.tupleMagnitude s.cfg d.scale d.sig ≤ s.cfg.pMaxPos ∧
            ∀ p, Posit.val s.cfg p ≠ some (Posit.tupleMagnitude s.cfg d.scale d.sig)))) ∨
      (∃ d, i = .lenc d ∧ d.special = 0b00#2 ∧ 2 ^ s.cfg.lR ≤ d.logfrac) ∨
      (∃ d, i = .fenc d ∧ d.special = 0b00#2 ∧ 2 ^ s.cfg.fR ≤ d.fpart) ∨
      (∃ sel, (i = .pconst sel ∨ i = .lconst sel ∨ i = .fconst sel) ∧
        (sel = 0b110#3 ∨ sel = 0b111#3)) ∨
      i = .fconst 0b001#3)

/- ### The posit codec -/

/-- R77 with R72 to R75: what PDEC answers for every pattern.  The regime run is said by the bits it
covers, the other fields by arithmetic on the magnitude pattern `q`. -/
def Obligations.PdecDecodesEveryPattern : Prop :=
  ∀ (s : State) (a : BitVec s.cfg.pN), ∃ (d : PositDec) (x : Scan),
    exec (.pdec a.toNat) s = .next (s.answer (.scanned (.posit d) x)) ∧
    (a.toNat = 0 →
      d = { special := 0b01#2, sign := false, scale := 0, sig := 0 } ∧
      x = { r0 := false, run := s.cfg.pN - 1, term := false, ne := 0, nf := 0 }) ∧
    (a.toNat = 2 ^ (s.cfg.pN - 1) →
      d = { special := 0b11#2, sign := true, scale := 0, sig := 0 } ∧
      x = { r0 := false, run := s.cfg.pN - 1, term := false, ne := 0, nf := 0 }) ∧
    (a.toNat ≠ 0 → a.toNat ≠ 2 ^ (s.cfg.pN - 1) →
      let q : Nat := if a.msb then 2 ^ s.cfg.pN - a.toNat else a.toNat
      let rem : Nat := s.cfg.pN - 1 - x.run - 1
      let low : Nat := q % 2 ^ rem
      x.r0 = q.testBit (s.cfg.pN - 2) ∧
      1 ≤ x.run ∧ x.run ≤ s.cfg.pN - 1 ∧
      (∀ j, j < x.run → q.testBit (s.cfg.pN - 2 - j) = x.r0) ∧
      (x.run < s.cfg.pN - 1 → q.testBit (s.cfg.pN - 2 - x.run) = !x.r0) ∧
      x.term = decide (x.run < s.cfg.pN - 1) ∧
      x.ne = min s.cfg.pES rem ∧ x.nf = rem - x.ne ∧
      d.special = 0b00#2 ∧ d.sign = a.msb ∧
      d.scale = (if x.r0 then (x.run : Int) - 1 else -(x.run : Int)) * 2 ^ s.cfg.pES +
        (((low >>> x.nf) <<< (s.cfg.pES - x.ne) : Nat) : Int) ∧
      d.sig = 2 ^ s.cfg.pFW + (low % 2 ^ x.nf) <<< (s.cfg.pFW - x.nf))

/-- R76: the value of a pattern is read off its decoded tuple; two's complement negates it; maxpos and
minpos are the largest and the smallest positive value. -/
def Obligations.PositValueIsThatOfTheDecodedTuple : Prop :=
  ∀ c : Config,
    Posit.val c (Posit.zero c) = some 0 ∧ Posit.val c (Posit.nar c) = none ∧
    (∀ p, p ≠ Posit.zero c → p ≠ Posit.nar c →
      let d := Posit.decode c p
      Posit.val c p =
        some ((if d.sign then -1 else 1) * (2 : ℚ) ^ d.scale * ((d.sig : ℚ) / 2 ^ c.pFW)) ∧
      1 ≤ (d.sig : ℚ) / 2 ^ c.pFW ∧ (d.sig : ℚ) / 2 ^ c.pFW < 2) ∧
    (∀ p, p ≠ Posit.nar c → Posit.val c (-p) = (Posit.val c p).map (-·)) ∧
    Posit.val c (Posit.maxPos c) = some ((2 : ℚ) ^ c.pMaxScale) ∧
    Posit.val c (Posit.minPos c) = some ((2 : ℚ) ^ c.pMinScale) ∧
    (∀ p x, Posit.val c p = some x → x ≤ (2 : ℚ) ^ c.pMaxScale) ∧
    (∀ p x, Posit.val c p = some x → 0 < x → (2 : ℚ) ^ c.pMinScale ≤ x)

/-- R84: the value is strictly increasing in the pattern read as a two's complement integer. -/
def Obligations.PositValuesFollowTheSignedPatterns : Prop :=
  ∀ (c : Config) (a b : BitVec c.pN), a ≠ Posit.nar c → b ≠ Posit.nar c →
    ∃ x y, Posit.val c a = some x ∧ Posit.val c b = some y ∧ (x < y ↔ a.toInt < b.toInt)

/-- R83: PENC inverts PDEC on every pattern, PDEC inverts PENC on every well-formed tuple that some
pattern represents, and distinct patterns other than NaR have distinct values. -/
def Obligations.PositCodecRoundTrip : Prop :=
  (∀ (s : State) (p : BitVec s.cfg.pN), ∃ d x,
    exec (.pdec p.toNat) s = .next (s.answer (.scanned (.posit d) x)) ∧
    exec (.penc d) s = .next (s.answer (.pattern p))) ∧
  (∀ (s : State) (d : PositDec), d.special = 0b00#2 →
    2 ^ s.cfg.pFW ≤ d.sig → d.sig < 2 ^ (s.cfg.pFW + 1) →
    (∃ p, Posit.val s.cfg p = some (Posit.tupleMagnitude s.cfg d.scale d.sig)) →
    ∃ (r : BitVec s.cfg.pN) (x : Scan), exec (.penc d) s = .next (s.answer (.pattern r)) ∧
      exec (.pdec r.toNat) s = .next (s.answer (.scanned (.posit d) x))) ∧
  (∀ (c : Config) (a b : BitVec c.pN), a ≠ Posit.nar c → b ≠ Posit.nar c → a ≠ b →
    Posit.val c a ≠ Posit.val c b)

/-- R78, R79, R81, R82: what PENC answers for every tuple.  In range, the answer is the pattern whose
value the tuple denotes, and a tuple that no pattern represents is malformed. -/
def Obligations.PencEncodesExactlyTheRepresentable : Prop :=
  ∀ (s : State) (d : PositDec),
    let v : ℚ := (if d.sign then -1 else 1) * ((2 : ℚ) ^ d.scale * ((d.sig : ℚ) / 2 ^ s.cfg.pFW))
    (d.special = 0b01#2 → exec (.penc d) s = .next (s.answer (.pattern (Posit.zero s.cfg)))) ∧
    (d.special = 0b10#2 ∨ d.special = 0b11#2 →
      exec (.penc d) s = .next (s.answer (.pattern (Posit.nar s.cfg)))) ∧
    (d.special = 0b00#2 → d.sig < 2 ^ s.cfg.pFW ∨ 2 ^ (s.cfg.pFW + 1) ≤ d.sig →
      exec (.penc d) s = .next (s.answer { fault := 0b011#3 })) ∧
    (d.special = 0b00#2 → 2 ^ s.cfg.pFW ≤ d.sig → d.sig < 2 ^ (s.cfg.pFW + 1) →
      ((s.cfg.pMaxPos < |v| ∨ |v| < s.cfg.pMinPos) →
        exec (.penc d) s = .next (s.answer (.pattern (Posit.nar s.cfg)))) ∧
      (s.cfg.pMinPos ≤ |v| → |v| ≤ s.cfg.pMaxPos →
        (∀ r, Posit.val s.cfg r = some v →
          exec (.penc d) s = .next (s.answer (.pattern r))) ∧
        ((∀ r, Posit.val s.cfg r ≠ some v) →
          exec (.penc d) s = .next (s.answer { fault := 0b011#3 }))))

/- ### The LNS codec -/

/-- R95 with R93: what LDEC answers for every pattern; `E` is the field below the sign read in two's
complement. -/
def Obligations.LdecDecodesEveryPattern : Prop :=
  ∀ (s : State) (a : BitVec s.cfg.lN), ∃ d : LnsDec,
    exec (.ldec a.toNat) s = .next (s.answer (.decoded (.lns d))) ∧
    (a.toNat = 2 ^ (s.cfg.lN - 2) →
      d = { special := 0b01#2, sign := false, scale := 0, logfrac := 0 }) ∧
    (a.toNat = 2 ^ (s.cfg.lN - 1) + 2 ^ (s.cfg.lN - 2) →
      d = { special := 0b11#2, sign := true, scale := 0, logfrac := 0 }) ∧
    (a.toNat % 2 ^ (s.cfg.lN - 1) ≠ 2 ^ (s.cfg.lN - 2) →
      let field : Int := ((a.toNat % 2 ^ (s.cfg.lN - 1) : Nat) : Int)
      let E : Int := if field < 2 ^ (s.cfg.lN - 2) then field else field - 2 ^ (s.cfg.lN - 1)
      d.special = 0b00#2 ∧ d.sign = a.msb ∧
      s.cfg.lEMin ≤ E ∧ E ≤ s.cfg.lEMax ∧
      d.scale = E / 2 ^ s.cfg.lR ∧ (d.logfrac : Int) = E % 2 ^ s.cfg.lR)

/-- R96: what LENC answers for every tuple. -/
def Obligations.LencPacksTheLogarithm : Prop :=
  ∀ (s : State) (d : LnsDec),
    let E : Int := d.scale * 2 ^ s.cfg.lR + d.logfrac
    (d.special = 0b01#2 → exec (.lenc d) s = .next (s.answer (.pattern (Lns.zero s.cfg)))) ∧
    (d.special = 0b10#2 ∨ d.special = 0b11#2 →
      exec (.lenc d) s = .next (s.answer (.pattern (Lns.nar s.cfg)))) ∧
    (d.special = 0b00#2 → 2 ^ s.cfg.lR ≤ d.logfrac →
      exec (.lenc d) s = .next (s.answer { fault := 0b011#3 })) ∧
    (d.special = 0b00#2 → d.logfrac < 2 ^ s.cfg.lR →
      ((s.cfg.lEMax < E ∨ E < s.cfg.lEMin) →
        exec (.lenc d) s = .next (s.answer (.pattern (Lns.nar s.cfg)))) ∧
      (s.cfg.lEMin ≤ E → E ≤ s.cfg.lEMax →
        ∃ r : BitVec s.cfg.lN, exec (.lenc d) s = .next (s.answer (.pattern r)) ∧
          r.msb = d.sign ∧ ((r.toNat % 2 ^ (s.cfg.lN - 1) : Nat) : Int) = E % 2 ^ (s.cfg.lN - 1)))

/-- R97: LENC and LDEC invert each other. -/
def Obligations.LnsCodecRoundTrip : Prop :=
  (∀ (s : State) (p : BitVec s.cfg.lN), ∃ d,
    exec (.ldec p.toNat) s = .next (s.answer (.decoded (.lns d))) ∧
    exec (.lenc d) s = .next (s.answer (.pattern p))) ∧
  (∀ (s : State) (d : LnsDec), d.special = 0b00#2 → d.logfrac < 2 ^ s.cfg.lR →
    s.cfg.lEMin ≤ d.scale * 2 ^ s.cfg.lR + d.logfrac →
    d.scale * 2 ^ s.cfg.lR + d.logfrac ≤ s.cfg.lEMax →
    ∃ r : BitVec s.cfg.lN, exec (.lenc d) s = .next (s.answer (.pattern r)) ∧
      exec (.ldec r.toNat) s = .next (s.answer (.decoded (.lns d))))

/- ### The fixed-point codec -/

/-- R109 with R107: what FDEC answers for every pattern. -/
def Obligations.FdecSplitsTheMagnitude : Prop :=
  ∀ (s : State) (a : BitVec s.cfg.fN), ∃ d : FixDec,
    exec (.fdec a.toNat) s = .next (s.answer (.decoded (.fix d))) ∧
    d.special = (if a.toNat = 0 then 0b01#2 else 0b00#2) ∧ d.sign = a.msb ∧
    d.ipart = a.toInt.natAbs / 2 ^ s.cfg.fR ∧ d.fpart = a.toInt.natAbs % 2 ^ s.cfg.fR ∧
    (if d.sign then -1 else 1) * ((d.ipart : ℚ) + (d.fpart : ℚ) / 2 ^ s.cfg.fR) =
      (a.toInt : ℚ) / 2 ^ s.cfg.fR

/-- R110 to R112: what FENC answers for every tuple. -/
def Obligations.FencSaturates : Prop :=
  ∀ (s : State) (d : FixDec),
    let i : Int := (if d.sign then -1 else 1) * ((d.ipart : Int) * 2 ^ s.cfg.fR + d.fpart)
    (d.special = 0b11#2 → exec (.fenc d) s = .next (s.answer { fault := 0b010#3 })) ∧
    (d.special = 0b01#2 → exec (.fenc d) s = .next (s.answer (.pattern (Fix.zero s.cfg)))) ∧
    (d.special = 0b10#2 → exec (.fenc d) s = .next (s.answer (.pattern
      (if d.sign then Fix.maxNeg s.cfg else Fix.maxPos s.cfg)))) ∧
    (d.special = 0b00#2 → 2 ^ s.cfg.fR ≤ d.fpart →
      exec (.fenc d) s = .next (s.answer { fault := 0b011#3 })) ∧
    (d.special = 0b00#2 → d.fpart < 2 ^ s.cfg.fR →
      ∃ r : BitVec s.cfg.fN, exec (.fenc d) s = .next (s.answer (.pattern r)) ∧
        r.toInt = min (max i s.cfg.fIMin) s.cfg.fIMax)

/-- R113: FENC inverts FDEC on every pattern; FDEC inverts FENC on every well-formed tuple in range
whose integer is not 0.  R113 excludes 0 with sign 1 only; leaving 0 out under either sign is the model's
reading of R113 with R109 (DEDUCED, notes/assumptions/14.md), and FENC of it is `FencSaturates`. -/
def Obligations.FixCodecRoundTrip : Prop :=
  (∀ (s : State) (p : BitVec s.cfg.fN), ∃ d,
    exec (.fdec p.toNat) s = .next (s.answer (.decoded (.fix d))) ∧
    exec (.fenc d) s = .next (s.answer (.pattern p))) ∧
  (∀ (s : State) (d : FixDec), d.special = 0b00#2 → d.fpart < 2 ^ s.cfg.fR →
    d.ipart * 2 ^ s.cfg.fR + d.fpart ≠ 0 →
    s.cfg.fIMin ≤ (if d.sign then -1 else 1) * ((d.ipart : Int) * 2 ^ s.cfg.fR + d.fpart) →
    (if d.sign then -1 else 1) * ((d.ipart : Int) * 2 ^ s.cfg.fR + d.fpart) ≤ s.cfg.fIMax →
    ∃ r : BitVec s.cfg.fN, exec (.fenc d) s = .next (s.answer (.pattern r)) ∧
      exec (.fdec r.toNat) s = .next (s.answer (.decoded (.fix d))))

/- ### The rounder -/

/-- R12: `rne` answers the nearest integer, the even one when two are equally near. -/
def Obligations.RneIsTheNearestIntegerTiesToEven : Prop :=
  ∀ (t : ℚ) (n : Int), rne t = n ↔ |t - n| < 1 / 2 ∨ (|t - n| = 1 / 2 ∧ n % 2 = 0)

/-- R121, R122: with `P_ROUND_DOMAIN = value`, every rational rounds to the nearest posit, ties to the
pattern whose bit 0 is 0. -/
def Obligations.PositRoundingIsToNearestTiesToEven : Prop :=
  ∀ (c : Config) (v : ℚ), c.pRoundDomain = .value →
    Posit.nearest c v (Posit.round c v) ∧ ∀ r, Posit.nearest c v r → r = Posit.round c v

/-- R123, R124: overflow clamps, underflow goes to zero up to the midpoint and to minpos above it, and
rounding a number never gives NaR. -/
def Obligations.PositRoundingAtTheEndsOfTheRange : Prop :=
  ∀ (c : Config) (v : ℚ), c.pRoundDomain = .value →
    (c.pMaxPos ≤ v → Posit.round c v = Posit.maxPos c) ∧
    (v ≤ -c.pMaxPos → Posit.round c v = Posit.maxNeg c) ∧
    (|v| ≤ c.pMinPos / 2 → Posit.round c v = Posit.zero c) ∧
    (c.pMinPos / 2 < v → v < c.pMinPos → Posit.round c v = Posit.minPos c) ∧
    (-c.pMinPos < v → v < -(c.pMinPos / 2) → Posit.round c v = Posit.minNeg c) ∧
    Posit.round c v ≠ Posit.nar c

/-- R125: with `P_ROUND_DOMAIN = bitstring`, the magnitude is written as an unbounded bit string and cut
to `N − 1` bits, to nearest even on the cut, and clamped to maxpos. -/
def Obligations.BitstringRoundingCutsTheString : Prop :=
  ∀ (c : Config) (v : ℚ), c.pRoundDomain = .bitstring → v ≠ 0 → ∃ code : Nat,
    Posit.round c v = (if v < 0 then -BitVec.ofNat c.pN code else BitVec.ofNat c.pN code) ∧
    (Posit.cutRoundsUp c |v| →
      code = min (Posit.leadingBits c |v| (c.pN - 1) + 1) (2 ^ (c.pN - 1) - 1)) ∧
    (¬Posit.cutRoundsUp c |v| →
      code = min (Posit.leadingBits c |v| (c.pN - 1)) (2 ^ (c.pN - 1) - 1))

/-- R125: the two readings of "nearest" agree wherever the regime and all `P_ES` exponent bits fit in
the pattern, and under `bitstring` exactly the magnitudes up to `2^(−(N−1) · 2^ES)` go to zero. -/
def Obligations.BitstringRoundingAgreesInTheFraction : Prop :=
  (∀ (c c' : Config) (v : ℚ), c.pRoundDomain = .bitstring → c' = { c with pRoundDomain := .value } →
    v ≠ 0 →
    (Posit.regimeString (floorLog2 |v| / 2 ^ c.pES)).2 + c.pES ≤ c.pN - 1 →
    (Posit.round c v).toNat = (Posit.round c' v).toNat) ∧
  (∀ (c : Config) (v : ℚ), c.pRoundDomain = .bitstring →
    (Posit.round c v = Posit.zero c ↔ |v| ≤ (2 : ℚ) ^ (-((c.pN : Int) - 1) * 2 ^ c.pES)))

/-- R137 (a), under either reading of "nearest": a representable value is returned unchanged. -/
def Obligations.RepresentablePositsRoundToThemselves : Prop :=
  ∀ (c : Config) (p : BitVec c.pN) (x : ℚ), Posit.val c p = some x → Posit.round c x = p

/-- R137 (b) to (d) for the posit target: monotone (`value` domain), odd, never NaR. -/
def Obligations.PositRoundingIsMonotoneAndOdd : Prop :=
  (∀ (c : Config) (v w : ℚ), c.pRoundDomain = .value → v ≤ w →
    ∃ x y, Posit.val c (Posit.round c v) = some x ∧ Posit.val c (Posit.round c w) = some y ∧
      x ≤ y) ∧
  (∀ (c : Config) (v : ℚ), Posit.round c (-v) = -Posit.round c v) ∧
  (∀ (c : Config) (v : ℚ), Posit.round c v ≠ Posit.nar c)

/-- R137 for the LNS and fixed-point targets: exact on representable values, monotone, never NaR, the
sign copied except into the zero token, and symmetric except where a result is clamped. -/
def Obligations.LnsAndFixedRoundingLaws : Prop :=
  (∀ (c : Config) (sign : Bool) (E : Int), c.lEMin ≤ E → E ≤ c.lEMax →
    (Lns.round c sign (E / 2 ^ c.lR)).msb = sign ∧
      Lns.code c (Lns.round c sign (E / 2 ^ c.lR)) = E) ∧
  (∀ (c : Config) (sign : Bool) (L : ℚ), Lns.round c sign L ≠ Lns.nar c ∧
    (Lns.round c sign L = Lns.zero c ∨ (Lns.round c sign L).msb = sign)) ∧
  (∀ (c : Config) (L L' : ℚ), L ≤ L' →
    Lns.key c (Lns.round c false L) ≤ Lns.key c (Lns.round c false L') ∧
    Lns.key c (Lns.round c true L') ≤ Lns.key c (Lns.round c true L)) ∧
  (∀ (c : Config) (p : BitVec c.fN), Fix.round c (Fix.val c p) = p) ∧
  (∀ (c : Config) (v w : ℚ), v ≤ w → Fix.val c (Fix.round c v) ≤ Fix.val c (Fix.round c w)) ∧
  (∀ (c : Config) (v : ℚ), c.fIMin < rne (v * 2 ^ c.fR) → rne (v * 2 ^ c.fR) ≤ c.fIMax →
    Fix.round c (-v) = -Fix.round c v)

/-- R126: PRND of an operand without the sticky flag rounds the value it denotes once, answers the
decoded tuple beside the pattern, and draws nothing. -/
def Obligations.PrndRoundsTheDenotedValue : Prop :=
  ∀ (s : State) (sign : Bool) (mant : Nat) (exp2 : Int), ∃ (d : PositDec) (x : Scan),
    let r := Posit.round s.cfg ((if sign then -1 else 1) * (mant * (2 : ℚ) ^ exp2))
    exec (.prnd { special := 0b00#2, sign, mant, exp2, sticky := false }) s =
      .next (s.answer (.rounded r (.posit d))) ∧
    exec (.pdec r.toNat) s = .next (s.answer (.scanned (.posit d) x)) ∧
    exec (.penc d) s = .next (s.answer (.pattern r))

/-- R127 to R130: LRND of an operand without the sticky flag. -/
def Obligations.LrndRoundsTheLogarithm : Prop :=
  ∀ (s : State) (sign : Bool) (lmant lexp2 : Int),
    let L : ℚ := lmant * (2 : ℚ) ^ lexp2
    let Lmin : ℚ := s.cfg.lEMin / 2 ^ s.cfg.lR
    ∃ (r : BitVec s.cfg.lN) (d : LnsDec),
      exec (.lrnd { special := 0b00#2, sign, lmant, lexp2, sticky := false }) s =
        .next (s.answer (.rounded r (.lns d))) ∧
      exec (.ldec r.toNat) s = .next (s.answer (.decoded (.lns d))) ∧
      (L ≤ Lmin - 1 → r = Lns.zero s.cfg) ∧
      (Lmin - 1 < L → L < Lmin → r = Lns.pack s.cfg sign s.cfg.lEMin) ∧
      (Lmin ≤ L → r.msb = sign ∧ Lns.code s.cfg r = min (rne (L * 2 ^ s.cfg.lR)) s.cfg.lEMax)

/-- R131 to R133: FRND of an operand without the sticky flag. -/
def Obligations.FrndRoundsAndSaturates : Prop :=
  ∀ (s : State) (sign : Bool) (mant : Nat) (exp2 : Int),
    let v : ℚ := (if sign then -1 else 1) * (mant * (2 : ℚ) ^ exp2)
    ∃ (r : BitVec s.cfg.fN) (d : FixDec),
      exec (.frnd { special := 0b00#2, sign, mant, exp2, sticky := false }) s =
        .next (s.answer (.rounded r (.fix d))) ∧
      exec (.fdec r.toNat) s = .next (s.answer (.decoded (.fix d))) ∧
      r.toInt = min (max (rne (v * 2 ^ s.cfg.fR)) s.cfg.fIMin) s.cfg.fIMax

/-- R135: the special tags on the rounder's operand; every field but the sign of an infinity is
ignored. -/
def Obligations.RounderHonoursTheSpecialTags : Prop :=
  (∀ (s : State) (sign : Bool) (mant : Nat) (exp2 : Int) (sticky : Bool),
    exec (.prnd { special := 0b11#2, sign, mant, exp2, sticky }) s =
      .next (s.answer (Posit.roundedResponse s.cfg (Posit.nar s.cfg))) ∧
    exec (.prnd { special := 0b01#2, sign, mant, exp2, sticky }) s =
      .next (s.answer (Posit.roundedResponse s.cfg (Posit.zero s.cfg))) ∧
    exec (.prnd { special := 0b10#2, sign, mant, exp2, sticky }) s =
      .next (s.answer (Posit.roundedResponse s.cfg
        (if sign then Posit.maxNeg s.cfg else Posit.maxPos s.cfg))) ∧
    exec (.prnd { special := 0b00#2, sign, mant := 0, exp2, sticky := false }) s =
      .next (s.answer (Posit.roundedResponse s.cfg (Posit.zero s.cfg))) ∧
    exec (.frnd { special := 0b11#2, sign, mant, exp2, sticky }) s =
      .next (s.answer { fault := 0b010#3 }) ∧
    exec (.frnd { special := 0b01#2, sign, mant, exp2, sticky }) s =
      .next (s.answer (Fix.roundedResponse s.cfg (Fix.zero s.cfg))) ∧
    exec (.frnd { special := 0b10#2, sign, mant, exp2, sticky }) s =
      .next (s.answer (Fix.roundedResponse s.cfg
        (if sign then Fix.maxNeg s.cfg else Fix.maxPos s.cfg))) ∧
    exec (.frnd { special := 0b00#2, sign, mant := 0, exp2, sticky := false }) s =
      .next (s.answer (Fix.roundedResponse s.cfg (Fix.zero s.cfg)))) ∧
  (∀ (s : State) (sign : Bool) (lmant lexp2 : Int) (sticky : Bool),
    exec (.lrnd { special := 0b11#2, sign, lmant, lexp2, sticky }) s =
      .next (s.answer (Lns.roundedResponse s.cfg (Lns.nar s.cfg))) ∧
    exec (.lrnd { special := 0b01#2, sign, lmant, lexp2, sticky }) s =
      .next (s.answer (Lns.roundedResponse s.cfg (Lns.zero s.cfg))) ∧
    exec (.lrnd { special := 0b10#2, sign, lmant, lexp2, sticky }) s =
      .next (s.answer (Lns.roundedResponse s.cfg
        (if sign then Lns.maxNeg s.cfg else Lns.maxPos s.cfg)))) ∧
  (∀ c : Config, (∀ p, (Posit.decode c p).special ≠ 0b10#2) ∧
    (∀ p, (Lns.decode c p).special ≠ 0b10#2) ∧ (∀ p, (Fix.decode c p).special ≠ 0b10#2))

/-- R134 for PRND: with the sticky flag the answer is a value that the rounding function takes at a point
of the open interval; if it takes one value at every point, that is the answer, whatever the draw. -/
def Obligations.StickyPrndAnswersAValueTaken : Prop :=
  ∀ (s : State) (u : Unrounded), u.special = 0b00#2 → u.sticky = true →
    (∃ t x, exec (.prnd u) s = .next t ∧ (magnitudeOf u).holds x ∧
      t.resp = some (Posit.roundedResponse s.cfg
        (Posit.round s.cfg ((if u.sign then -1 else 1) * x)))) ∧
    ((∀ x y, (magnitudeOf u).holds x → (magnitudeOf u).holds y →
        Posit.round s.cfg ((if u.sign then -1 else 1) * x) =
          Posit.round s.cfg ((if u.sign then -1 else 1) * y)) →
      ∀ x, (magnitudeOf u).holds x →
        exec (.prnd u) s = .next (s.answer (Posit.roundedResponse s.cfg
          (Posit.round s.cfg ((if u.sign then -1 else 1) * x)))))

/-- R134 for LRND and FRND. -/
def Obligations.StickyLrndAndFrndAnswerAValueTaken : Prop :=
  (∀ (s : State) (u : UnroundedLog), u.special = 0b00#2 → u.sticky = true →
    (∃ t x, exec (.lrnd u) s = .next t ∧ (logarithmOf u).holds x ∧
      t.resp = some (Lns.roundedResponse s.cfg (Lns.round s.cfg u.sign x))) ∧
    ((∀ x y, (logarithmOf u).holds x → (logarithmOf u).holds y →
        Lns.round s.cfg u.sign x = Lns.round s.cfg u.sign y) →
      ∀ x, (logarithmOf u).holds x →
        exec (.lrnd u) s = .next (s.answer (Lns.roundedResponse s.cfg
          (Lns.round s.cfg u.sign x))))) ∧
  (∀ (s : State) (u : Unrounded), u.special = 0b00#2 → u.sticky = true →
    (∃ t x, exec (.frnd u) s = .next t ∧ (magnitudeOf u).holds x ∧
      t.resp = some (Fix.roundedResponse s.cfg
        (Fix.round s.cfg ((if u.sign then -1 else 1) * x)))) ∧
    ((∀ x y, (magnitudeOf u).holds x → (magnitudeOf u).holds y →
        Fix.round s.cfg ((if u.sign then -1 else 1) * x) =
          Fix.round s.cfg ((if u.sign then -1 else 1) * y)) →
      ∀ x, (magnitudeOf u).holds x →
        exec (.frnd u) s = .next (s.answer (Fix.roundedResponse s.cfg
          (Fix.round s.cfg ((if u.sign then -1 else 1) * x))))))

/-- R134: an open interval is rounded to one value exactly when no breakpoint lies strictly inside it, for
`RoundP` (non-negative magnitudes), `RoundL` and `RoundF`. -/
def Obligations.RoundingIsConstantBetweenBreakpoints : Prop :=
  (∀ (c : Config) (low high : ℚ), c.pRoundDomain = .value → 0 ≤ low → low < high →
    ((∀ x y, low < x → x < high → low < y → y < high → Posit.round c x = Posit.round c y) ↔
      ∀ code, code < Posit.maxCode c →
        ¬(low < (Posit.mag c code + Posit.mag c (code + 1)) / 2 ∧
          (Posit.mag c code + Posit.mag c (code + 1)) / 2 < high))) ∧
  (∀ (c : Config) (sign : Bool) (low high : ℚ), low < high →
    ((∀ x y, low < x → x < high → low < y → y < high →
        Lns.round c sign x = Lns.round c sign y) ↔
      ¬(low < (c.lEMin : ℚ) / 2 ^ c.lR - 1 ∧ (c.lEMin : ℚ) / 2 ^ c.lR - 1 < high) ∧
      ∀ E : Int, c.lEMin ≤ E → E < c.lEMax →
        ¬(low < ((E : ℚ) + 1 / 2) / 2 ^ c.lR ∧ ((E : ℚ) + 1 / 2) / 2 ^ c.lR < high))) ∧
  (∀ (c : Config) (low high : ℚ), low < high →
    ((∀ x y, low < x → x < high → low < y → y < high → Fix.round c x = Fix.round c y) ↔
      ∀ i : Int, c.fIMin ≤ i → i < c.fIMax →
        ¬(low < ((i : ℚ) + 1 / 2) / 2 ^ c.fR ∧ ((i : ℚ) + 1 / 2) / 2 ^ c.fR < high)))

/-- R134: the conditions a host can check without knowing the value.  An interval that fine is rounded to
one value, so by the two statements above the rounder's answer is no draw. -/
def Obligations.FineStickyOperandsAreDetermined : Prop :=
  (∀ (c : Config) (u : Unrounded) (x y : ℚ), c.pRoundDomain = .value →
    u.exp2 ≤ c.pMinScale - 1 → (magnitudeOf u).holds x → (magnitudeOf u).holds y →
    Posit.round c x = Posit.round c y) ∧
  (∀ (c : Config) (u : UnroundedLog) (x y : ℚ),
    u.lexp2 ≤ -(c.lR : Int) - 1 → (logarithmOf u).holds x → (logarithmOf u).holds y →
    Lns.round c u.sign x = Lns.round c u.sign y) ∧
  (∀ (c : Config) (u : Unrounded) (x y : ℚ),
    u.exp2 ≤ -(c.fR : Int) - 1 → (magnitudeOf u).holds x → (magnitudeOf u).holds y →
    Fix.round c x = Fix.round c y ∧ Fix.round c (-x) = Fix.round c (-y))

/- ### Posit arithmetic -/

/-- R140, R141, R143, R145 to R148: NaR absorbs; otherwise the exact result is rounded once; division by
zero gives NaR and no fault. -/
def Obligations.PositArithmeticRoundsTheExactResult : Prop :=
  (∀ (s : State) (a b : BitVec s.cfg.pN), a = Posit.nar s.cfg ∨ b = Posit.nar s.cfg →
    exec (.padd a.toNat b.toNat) s = .next (s.answer (.pattern (Posit.nar s.cfg))) ∧
    exec (.psub a.toNat b.toNat) s = .next (s.answer (.pattern (Posit.nar s.cfg))) ∧
    exec (.pmul a.toNat b.toNat) s = .next (s.answer (.pattern (Posit.nar s.cfg))) ∧
    exec (.pdiv a.toNat b.toNat) s = .next (s.answer (.pattern (Posit.nar s.cfg)))) ∧
  (∀ (s : State) (a b : BitVec s.cfg.pN), a ≠ Posit.nar s.cfg → b ≠ Posit.nar s.cfg →
    ∃ x y : ℚ, Posit.val s.cfg a = some x ∧ Posit.val s.cfg b = some y ∧
      exec (.padd a.toNat b.toNat) s = .next (s.answer (.pattern (Posit.round s.cfg (x + y)))) ∧
      exec (.psub a.toNat b.toNat) s = .next (s.answer (.pattern (Posit.round s.cfg (x - y)))) ∧
      exec (.pmul a.toNat b.toNat) s = .next (s.answer (.pattern (Posit.round s.cfg (x * y)))) ∧
      exec (.pdiv a.toNat b.toNat) s = .next (s.answer (.pattern
        (if b.toNat = 0 then Posit.nar s.cfg else Posit.round s.cfg (x / y)))))

/-- R142, R144: zero is an ordinary operand, and `PSUB 0, p` is the negation of a pattern. -/
def Obligations.PositZeroOperandsAndNegation : Prop :=
  (∀ (s : State) (p : BitVec s.cfg.pN),
    exec (.padd p.toNat 0) s = .next (s.answer (.pattern p)) ∧
    exec (.padd 0 p.toNat) s = .next (s.answer (.pattern p)) ∧
    exec (.psub p.toNat 0) s = .next (s.answer (.pattern p)) ∧
    exec (.psub 0 p.toNat) s = .next (s.answer (.pattern (-p))) ∧
    (p ≠ Posit.nar s.cfg →
      exec (.pmul p.toNat 0) s = .next (s.answer (.pattern (Posit.zero s.cfg))) ∧
      exec (.pmul 0 p.toNat) s = .next (s.answer (.pattern (Posit.zero s.cfg))) ∧
      (p ≠ Posit.zero s.cfg →
        exec (.pdiv 0 p.toNat) s = .next (s.answer (.pattern (Posit.zero s.cfg)))))) ∧
  (∀ c : Config, (∀ p x, Posit.val c p = some x → Posit.val c (-p) = some (-x)) ∧
    -Posit.zero c = Posit.zero c ∧ -Posit.nar c = Posit.nar c)

/-- R149 with R146: absorption, `x + (−x) = 0`, commutativity, sign symmetry, and that addition and
multiplication are not associative in general; subtraction is addition of the negation. -/
def Obligations.PositArithmeticLaws : Prop :=
  (∀ (c : Config) (x : BitVec c.pN),
    Posit.add c (Posit.nar c) x = Posit.nar c ∧ Posit.add c x (Posit.nar c) = Posit.nar c ∧
    Posit.sub c (Posit.nar c) x = Posit.nar c ∧ Posit.sub c x (Posit.nar c) = Posit.nar c ∧
    Posit.mul c (Posit.nar c) x = Posit.nar c ∧ Posit.mul c x (Posit.nar c) = Posit.nar c ∧
    Posit.div c (Posit.nar c) x = Posit.nar c ∧ Posit.div c x (Posit.nar c) = Posit.nar c ∧
    (x ≠ Posit.nar c → Posit.add c x (-x) = Posit.zero c)) ∧
  (∀ (c : Config) (a b : BitVec c.pN),
    Posit.add c a b = Posit.add c b a ∧ Posit.mul c a b = Posit.mul c b a ∧
    Posit.add c (-a) (-b) = -Posit.add c a b ∧ Posit.sub c (-a) (-b) = -Posit.sub c a b ∧
    Posit.mul c (-a) (-b) = Posit.mul c a b ∧ Posit.div c (-a) (-b) = Posit.div c a b ∧
    Posit.sub c a b = Posit.add c a (-b)) ∧
  (∃ (c : Config) (x y z : BitVec c.pN), x ≠ Posit.nar c ∧ y ≠ Posit.nar c ∧ z ≠ Posit.nar c ∧
    Posit.add c (Posit.add c x y) z ≠ Posit.add c x (Posit.add c y z)) ∧
  (∃ (c : Config) (x y z : BitVec c.pN), x ≠ Posit.nar c ∧ y ≠ Posit.nar c ∧ z ≠ Posit.nar c ∧
    Posit.mul c (Posit.mul c x y) z ≠ Posit.mul c x (Posit.mul c y z))

/- ### The comparator -/

/-- R160 to R162: PCMP orders the values of the operands. -/
def Obligations.PcmpOrdersTheValues : Prop :=
  ∀ (s : State) (a b : BitVec s.cfg.pN), ∃ rel : Relation,
    exec (.pcmp a.toNat b.toNat) s = .next (s.answer (.compared rel)) ∧
    (∀ x y, Posit.val s.cfg a = some x → Posit.val s.cfg b = some y →
      (rel = .lt ↔ x < y) ∧ (rel = .eq ↔ x = y) ∧ (rel = .gt ↔ y < x)) ∧
    (a = Posit.nar s.cfg ∨ b = Posit.nar s.cfg →
      rel = if a = b ∧ s.cfg.narEqReflexive = true then .eq else .un)

/-- R160, R161, R163: LCMP orders the real numbers that the operands denote. -/
def Obligations.LcmpOrdersTheRealValues : Prop :=
  ∀ (s : State) (a b : BitVec s.cfg.lN), ∃ rel : Relation,
    exec (.lcmp a.toNat b.toNat) s = .next (s.answer (.compared rel)) ∧
    (∀ x y : ℝ, (Lns.val s.cfg a).denotes x → (Lns.val s.cfg b).denotes y →
      (rel = .lt ↔ x < y) ∧ (rel = .eq ↔ x = y) ∧ (rel = .gt ↔ y < x)) ∧
    (a = Lns.nar s.cfg ∨ b = Lns.nar s.cfg →
      rel = if a = b ∧ s.cfg.narEqReflexive = true then .eq else .un)

/-- R160, R164: FCMP orders the values of the operands, and never answers `un`. -/
def Obligations.FcmpOrdersTheValues : Prop :=
  ∀ (s : State) (a b : BitVec s.cfg.fN), ∃ rel : Relation,
    exec (.fcmp a.toNat b.toNat) s = .next (s.answer (.compared rel)) ∧ rel ≠ .un ∧
    (rel = .lt ↔ Fix.val s.cfg a < Fix.val s.cfg b) ∧
    (rel = .eq ↔ Fix.val s.cfg a = Fix.val s.cfg b) ∧
    (rel = .gt ↔ Fix.val s.cfg b < Fix.val s.cfg a)

/-- R166: totality, antisymmetry, transitivity and identity in all three formats, and agreement with
PSUB. -/
def Obligations.ComparatorLaws : Prop :=
  (∀ (c : Config) (a b : BitVec c.pN),
    (a ≠ Posit.nar c → b ≠ Posit.nar c →
      Posit.compare c a b ≠ .un ∧ (Posit.compare c a b = .eq ↔ a = b) ∧
      (Posit.compare c a b = .lt → (Posit.sub c a b).msb = true)) ∧
    (c.narEqReflexive = false → Posit.compare c (Posit.nar c) a = .un) ∧
    (Posit.compare c a b = .lt ↔ Posit.compare c b a = .gt) ∧
    (Posit.compare c a b = .eq ↔ Posit.compare c b a = .eq) ∧
    (Posit.compare c a b = .un ↔ Posit.compare c b a = .un) ∧
    (∀ d, Posit.compare c a b = .lt → Posit.compare c b d = .lt → Posit.compare c a d = .lt)) ∧
  (∀ (c : Config) (a b : BitVec c.lN),
    (a ≠ Lns.nar c → b ≠ Lns.nar c →
      Lns.compare c a b ≠ .un ∧ (Lns.compare c a b = .eq ↔ a = b)) ∧
    (c.narEqReflexive = false → Lns.compare c (Lns.nar c) a = .un) ∧
    (Lns.compare c a b = .lt ↔ Lns.compare c b a = .gt) ∧
    (Lns.compare c a b = .eq ↔ Lns.compare c b a = .eq) ∧
    (Lns.compare c a b = .un ↔ Lns.compare c b a = .un) ∧
    (∀ d, Lns.compare c a b = .lt → Lns.compare c b d = .lt → Lns.compare c a d = .lt)) ∧
  (∀ (c : Config) (a b : BitVec c.fN),
    Fix.compare c a b ≠ .un ∧ (Fix.compare c a b = .eq ↔ a = b) ∧
    (Fix.compare c a b = .lt ↔ Fix.compare c b a = .gt) ∧
    (Fix.compare c a b = .eq ↔ Fix.compare c b a = .eq) ∧
    (∀ d, Fix.compare c a b = .lt → Fix.compare c b d = .lt → Fix.compare c a d = .lt))

/-- R165: the relational operators a host reads off `cmp`; `un` makes all of them false but `!=`. -/
def Obligations.HostReadsTheRelationalOperators : Prop :=
  ∀ rel : Relation,
    cmpLt rel.bits = decide (rel = .lt) ∧ cmpGt rel.bits = decide (rel = .gt) ∧
    cmpEq rel.bits = decide (rel = .eq) ∧ cmpUn rel.bits = decide (rel = .un) ∧
    hostNe rel.bits = decide (rel ≠ .eq) ∧
    hostLe rel.bits = decide (rel = .lt ∨ rel = .eq) ∧
    hostGe rel.bits = decide (rel = .gt ∨ rel = .eq)

/- ### Special values -/

/-- R174 to R176: the three `cls` bits as tests of the pattern's integer. -/
def Obligations.ClassifiersTestThePattern : Prop :=
  (∀ (s : State) (a : BitVec s.cfg.pN), ∃ w : ClsWires,
    exec (.pcls a.toNat) s = .next (s.answer (.classified w)) ∧
    w.getLsbD 0 = decide (a.toNat = 0) ∧
    w.getLsbD 1 = decide (a.toNat = 2 ^ (s.cfg.pN - 1)) ∧
    w.getLsbD 2 = decide (2 ^ (s.cfg.pN - 1) ≤ a.toNat)) ∧
  (∀ (s : State) (a : BitVec s.cfg.lN), ∃ w : ClsWires,
    exec (.lcls a.toNat) s = .next (s.answer (.classified w)) ∧
    w.getLsbD 0 = decide (a.toNat = 2 ^ (s.cfg.lN - 2)) ∧
    w.getLsbD 1 = decide (a.toNat = 2 ^ (s.cfg.lN - 1) + 2 ^ (s.cfg.lN - 2)) ∧
    w.getLsbD 2 = decide (2 ^ (s.cfg.lN - 1) ≤ a.toNat)) ∧
  (∀ (s : State) (a : BitVec s.cfg.fN), ∃ w : ClsWires,
    exec (.fcls a.toNat) s = .next (s.answer (.classified w)) ∧
    w.getLsbD 0 = decide (a.toNat = 0) ∧ w.getLsbD 1 = false ∧
    w.getLsbD 2 = decide (2 ^ (s.cfg.fN - 1) ≤ a.toNat))

/-- R180: the classifiers agree with the decoders, and `isSpecial` with the comparator. -/
def Obligations.ClassifiersAgreeWithDecodersAndComparator : Prop :=
  (∀ (c : Config) (a : BitVec c.pN),
    ((Posit.classify c a).getLsbD 0 = true ↔ (Posit.decode c a).special = 0b01#2) ∧
    ((Posit.classify c a).getLsbD 1 = true ↔ (Posit.decode c a).special = 0b11#2) ∧
    (Posit.classify c a).getLsbD 2 = (Posit.decode c a).sign ∧
    (c.narEqReflexive = false →
      (Posit.compare c a a = .un ↔ (Posit.classify c a).getLsbD 1 = true))) ∧
  (∀ (c : Config) (a : BitVec c.lN),
    ((Lns.classify c a).getLsbD 0 = true ↔ (Lns.decode c a).special = 0b01#2) ∧
    ((Lns.classify c a).getLsbD 1 = true ↔ (Lns.decode c a).special = 0b11#2) ∧
    (Lns.classify c a).getLsbD 2 = (Lns.decode c a).sign ∧
    (c.narEqReflexive = false →
      (Lns.compare c a a = .un ↔ (Lns.classify c a).getLsbD 1 = true))) ∧
  (∀ (c : Config) (a : BitVec c.fN),
    ((Fix.classify c a).getLsbD 0 = true ↔ (Fix.decode c a).special = 0b01#2) ∧
    ((Fix.classify c a).getLsbD 1 = true ↔ (Fix.decode c a).special = 0b11#2) ∧
    (Fix.classify c a).getLsbD 2 = (Fix.decode c a).sign ∧
    (Fix.compare c a a = .un ↔ (Fix.classify c a).getLsbD 1 = true))

/-- R171, R177: what PCONST answers for each selector, as an integer, and its value. -/
def Obligations.PconstAnswersTheTable : Prop :=
  ∀ s : State, ∃ zero nar maxPos minPos maxNeg minNeg : BitVec s.cfg.pN,
    exec (.pconst 0b000#3) s = .next (s.answer (.pattern zero)) ∧
    exec (.pconst 0b001#3) s = .next (s.answer (.pattern nar)) ∧
    exec (.pconst 0b010#3) s = .next (s.answer (.pattern maxPos)) ∧
    exec (.pconst 0b011#3) s = .next (s.answer (.pattern minPos)) ∧
    exec (.pconst 0b100#3) s = .next (s.answer (.pattern maxNeg)) ∧
    exec (.pconst 0b101#3) s = .next (s.answer (.pattern minNeg)) ∧
    exec (.pconst 0b110#3) s = .next (s.answer { fault := 0b011#3 }) ∧
    exec (.pconst 0b111#3) s = .next (s.answer { fault := 0b011#3 }) ∧
    zero.toNat = 0 ∧ nar.toNat = 2 ^ (s.cfg.pN - 1) ∧
    maxPos.toNat = 2 ^ (s.cfg.pN - 1) - 1 ∧ minPos.toNat = 1 ∧
    maxNeg.toNat = 2 ^ (s.cfg.pN - 1) + 1 ∧ minNeg.toNat = 2 ^ s.cfg.pN - 1 ∧
    Posit.val s.cfg zero = some 0 ∧ Posit.val s.cfg nar = none ∧
    Posit.val s.cfg maxPos = some ((2 : ℚ) ^ s.cfg.pMaxScale) ∧
    Posit.val s.cfg minPos = some ((2 : ℚ) ^ s.cfg.pMinScale) ∧
    Posit.val s.cfg maxNeg = some (-(2 : ℚ) ^ s.cfg.pMaxScale) ∧
    Posit.val s.cfg minNeg = some (-(2 : ℚ) ^ s.cfg.pMinScale)

/-- R172, R173, R178, R179: what LCONST and FCONST answer for each selector.  The integer column of
R172 holds for `L_N ≥ 3`; its row for `L_N = 2` is the last clause. -/
def Obligations.LconstAndFconstAnswerTheTables : Prop :=
  (∀ s : State, ∃ zero nar maxPos minPos maxNeg minNeg : BitVec s.cfg.lN,
    exec (.lconst 0b000#3) s = .next (s.answer (.pattern zero)) ∧
    exec (.lconst 0b001#3) s = .next (s.answer (.pattern nar)) ∧
    exec (.lconst 0b010#3) s = .next (s.answer (.pattern maxPos)) ∧
    exec (.lconst 0b011#3) s = .next (s.answer (.pattern minPos)) ∧
    exec (.lconst 0b100#3) s = .next (s.answer (.pattern maxNeg)) ∧
    exec (.lconst 0b101#3) s = .next (s.answer (.pattern minNeg)) ∧
    exec (.lconst 0b110#3) s = .next (s.answer { fault := 0b011#3 }) ∧
    exec (.lconst 0b111#3) s = .next (s.answer { fault := 0b011#3 }) ∧
    zero.toNat = 2 ^ (s.cfg.lN - 2) ∧ nar.toNat = 2 ^ (s.cfg.lN - 1) + 2 ^ (s.cfg.lN - 2) ∧
    (3 ≤ s.cfg.lN → maxPos.toNat = 2 ^ (s.cfg.lN - 2) - 1 ∧
      minPos.toNat = 2 ^ (s.cfg.lN - 2) + 1 ∧
      maxNeg.toNat = 2 ^ (s.cfg.lN - 1) + 2 ^ (s.cfg.lN - 2) - 1 ∧
      minNeg.toNat = 2 ^ (s.cfg.lN - 1) + 2 ^ (s.cfg.lN - 2) + 1) ∧
    Lns.val s.cfg zero = .zero ∧ Lns.val s.cfg nar = .nar ∧
    Lns.val s.cfg maxPos = .number false (s.cfg.lEMax / 2 ^ s.cfg.lR) ∧
    Lns.val s.cfg minPos = .number false (s.cfg.lEMin / 2 ^ s.cfg.lR) ∧
    Lns.val s.cfg maxNeg = .number true (s.cfg.lEMax / 2 ^ s.cfg.lR) ∧
    Lns.val s.cfg minNeg = .number true (s.cfg.lEMin / 2 ^ s.cfg.lR) ∧
    (s.cfg.lN = 2 → maxPos.toNat = 0 ∧ minPos.toNat = 0 ∧ maxNeg.toNat = 2 ∧ minNeg.toNat = 2)) ∧
  (∀ s : State, ∃ zero maxPos minPos maxNeg minNeg : BitVec s.cfg.fN,
    exec (.fconst 0b000#3) s = .next (s.answer (.pattern zero)) ∧
    exec (.fconst 0b001#3) s = .next (s.answer { fault := 0b011#3 }) ∧
    exec (.fconst 0b010#3) s = .next (s.answer (.pattern maxPos)) ∧
    exec (.fconst 0b011#3) s = .next (s.answer (.pattern minPos)) ∧
    exec (.fconst 0b100#3) s = .next (s.answer (.pattern maxNeg)) ∧
    exec (.fconst 0b101#3) s = .next (s.answer (.pattern minNeg)) ∧
    exec (.fconst 0b110#3) s = .next (s.answer { fault := 0b011#3 }) ∧
    exec (.fconst 0b111#3) s = .next (s.answer { fault := 0b011#3 }) ∧
    zero.toNat = 0 ∧ maxPos.toNat = 2 ^ (s.cfg.fN - 1) - 1 ∧ minPos.toNat = 1 ∧
    maxNeg.toNat = 2 ^ (s.cfg.fN - 1) ∧ minNeg.toNat = 2 ^ s.cfg.fN - 1 ∧
    Fix.val s.cfg zero = 0 ∧ Fix.val s.cfg maxPos = s.cfg.fIMax / 2 ^ s.cfg.fR ∧
    Fix.val s.cfg minPos = 1 / 2 ^ s.cfg.fR ∧
    Fix.val s.cfg maxNeg = s.cfg.fIMin / 2 ^ s.cfg.fR ∧
    Fix.val s.cfg minNeg = -1 / 2 ^ s.cfg.fR)

/- ### The extension -/

/-- R187, R188 with R186: LMUL adds the logarithms and LDIV subtracts them, on every pair of patterns. -/
def Obligations.LmulAndLdivCombineTheLogarithms : Prop :=
  ∀ (s : State) (a b : BitVec s.cfg.lN), s.cfg.extArith = true →
    (a = Lns.nar s.cfg ∨ b = Lns.nar s.cfg →
      exec (.lmul a.toNat b.toNat) s = .next (s.answer (.pattern (Lns.nar s.cfg))) ∧
      exec (.ldiv a.toNat b.toNat) s = .next (s.answer (.pattern (Lns.nar s.cfg)))) ∧
    (a ≠ Lns.nar s.cfg → b = Lns.zero s.cfg →
      exec (.lmul a.toNat b.toNat) s = .next (s.answer (.pattern (Lns.zero s.cfg))) ∧
      exec (.ldiv a.toNat b.toNat) s = .next (s.answer (.pattern (Lns.nar s.cfg)))) ∧
    (a = Lns.zero s.cfg → b ≠ Lns.nar s.cfg → b ≠ Lns.zero s.cfg →
      exec (.lmul a.toNat b.toNat) s = .next (s.answer (.pattern (Lns.zero s.cfg))) ∧
      exec (.ldiv a.toNat b.toNat) s = .next (s.answer (.pattern (Lns.zero s.cfg)))) ∧
    (a ≠ Lns.nar s.cfg → a ≠ Lns.zero s.cfg → b ≠ Lns.nar s.cfg → b ≠ Lns.zero s.cfg →
      ∃ r r' : BitVec s.cfg.lN,
        exec (.lmul a.toNat b.toNat) s = .next (s.answer (.pattern r)) ∧
        Lns.clampsTo s.cfg (a.msb != b.msb) (Lns.code s.cfg a + Lns.code s.cfg b) r ∧
        exec (.ldiv a.toNat b.toNat) s = .next (s.answer (.pattern r')) ∧
        Lns.clampsTo s.cfg (a.msb != b.msb) (Lns.code s.cfg a - Lns.code s.cfg b) r')

/-- R190, R191: the cases of LADD that are exact and fixed, and LSUB as LADD of the negation. -/
def Obligations.LaddFixedCasesAndLsub : Prop :=
  ∀ (s : State) (a b : BitVec s.cfg.lN), s.cfg.extArith = true →
    (a = Lns.nar s.cfg ∨ b = Lns.nar s.cfg →
      exec (.ladd a.toNat b.toNat) s = .next (s.answer (.pattern (Lns.nar s.cfg)))) ∧
    (a = Lns.zero s.cfg → b ≠ Lns.nar s.cfg →
      exec (.ladd a.toNat b.toNat) s = .next (s.answer (.pattern b))) ∧
    (a ≠ Lns.nar s.cfg → b = Lns.zero s.cfg →
      exec (.ladd a.toNat b.toNat) s = .next (s.answer (.pattern a))) ∧
    (a ≠ Lns.nar s.cfg → a ≠ Lns.zero s.cfg →
      b = a ^^^ BitVec.ofNat s.cfg.lN (2 ^ (s.cfg.lN - 1)) →
      exec (.ladd a.toNat b.toNat) s = .next (s.answer (.pattern (Lns.zero s.cfg)))) ∧
    (b = Lns.nar s.cfg ∨ b = Lns.zero s.cfg →
      exec (.lsub a.toNat b.toNat) s = exec (.ladd a.toNat b.toNat) s) ∧
    (b ≠ Lns.nar s.cfg → b ≠ Lns.zero s.cfg →
      exec (.lsub a.toNat b.toNat) s =
        exec (.ladd a.toNat (b ^^^ BitVec.ofNat s.cfg.lN (2 ^ (s.cfg.lN - 1))).toNat) s) ∧
    (∃ r : BitVec s.cfg.lN, exec (.lsub a.toNat b.toNat) s = .next (s.answer (.pattern r)))

/-- R189: the sum of two numbers that do not cancel, whatever function the instance uses: commutative,
never NaR, and zero or of the sign of the exact real sum. -/
def Obligations.OpenLnsSumsMeetTheConstraints : Prop :=
  ∀ (s : State) (a b : BitVec s.cfg.lN) (x y : ℝ), s.cfg.extArith = true →
    (Lns.val s.cfg a).denotes x → (Lns.val s.cfg b).denotes y → x ≠ 0 → y ≠ 0 → x + y ≠ 0 →
    ∃ r : BitVec s.cfg.lN,
      exec (.ladd a.toNat b.toNat) s = .next (s.answer (.pattern r)) ∧
      exec (.ladd b.toNat a.toNat) s = .next (s.answer (.pattern r)) ∧
      r ≠ Lns.nar s.cfg ∧ (r = Lns.zero s.cfg ∨ (r.msb = true ↔ x + y < 0))

/-- R192 to R197: the four fixed-point operations on every pair of patterns, as signed codes: the exact
result, rounded to nearest even, then saturated; division by zero as `FX_DIV0_POLICY` says. -/
def Obligations.FixedArithmeticRoundsAndSaturates : Prop :=
  ∀ (s : State) (a b : BitVec s.cfg.fN), s.cfg.extArith = true →
    (∃ r : BitVec s.cfg.fN, exec (.fadd a.toNat b.toNat) s = .next (s.answer (.pattern r)) ∧
      r.toInt = min (max (a.toInt + b.toInt) s.cfg.fIMin) s.cfg.fIMax) ∧
    (∃ r : BitVec s.cfg.fN, exec (.fsub a.toNat b.toNat) s = .next (s.answer (.pattern r)) ∧
      r.toInt = min (max (a.toInt - b.toInt) s.cfg.fIMin) s.cfg.fIMax) ∧
    (∃ r : BitVec s.cfg.fN, exec (.fmul a.toNat b.toNat) s = .next (s.answer (.pattern r)) ∧
      r.toInt = min (max (rne ((a.toInt : ℚ) * b.toInt / 2 ^ s.cfg.fR)) s.cfg.fIMin) s.cfg.fIMax) ∧
    (b.toNat ≠ 0 →
      ∃ r : BitVec s.cfg.fN, exec (.fdiv a.toNat b.toNat) s = .next (s.answer (.pattern r)) ∧
        r.toInt = min (max (rne ((a.toInt : ℚ) * 2 ^ s.cfg.fR / b.toInt)) s.cfg.fIMin) s.cfg.fIMax) ∧
    (b.toNat = 0 → s.cfg.fxDiv0Policy = .signal →
      exec (.fdiv a.toNat b.toNat) s = .next (s.answer { fault := 0b001#3 })) ∧
    (b.toNat = 0 → s.cfg.fxDiv0Policy = .clamp →
      exec (.fdiv a.toNat b.toNat) s = .next (s.answer (.pattern
        (if a.msb then Fix.maxNeg s.cfg else Fix.maxPos s.cfg))))

/-- R198: commutativity, saturation monotonicity, absorption, and the sum with the negation. -/
def Obligations.ExtensionArithmeticLaws : Prop :=
  (∀ (c : Config) (a b : BitVec c.lN),
    Lns.add c a b = Lns.add c b a ∧ Lns.mul c a b = Lns.mul c b a) ∧
  (∀ (c : Config) (a b : BitVec c.fN),
    Fix.add c a b = Fix.add c b a ∧ Fix.mul c a b = Fix.mul c b a) ∧
  (∀ (c : Config) (a a' b : BitVec c.fN), a.toInt ≤ a'.toInt →
    (Fix.add c a b).toInt ≤ (Fix.add c a' b).toInt ∧
    (Fix.sub c a b).toInt ≤ (Fix.sub c a' b).toInt ∧
    (0 ≤ Fix.val c b → (Fix.mul c a b).toInt ≤ (Fix.mul c a' b).toInt) ∧
    (Fix.val c b < 0 → (Fix.mul c a' b).toInt ≤ (Fix.mul c a b).toInt)) ∧
  (∀ (c : Config) (x : BitVec c.lN),
    Lns.add c (Lns.nar c) x = Lns.nar c ∧ Lns.add c x (Lns.nar c) = Lns.nar c ∧
    Lns.sub c (Lns.nar c) x = Lns.nar c ∧ Lns.sub c x (Lns.nar c) = Lns.nar c ∧
    Lns.mul c (Lns.nar c) x = Lns.nar c ∧ Lns.mul c x (Lns.nar c) = Lns.nar c ∧
    Lns.div c (Lns.nar c) x = Lns.nar c ∧ Lns.div c x (Lns.nar c) = Lns.nar c ∧
    (x ≠ Lns.nar c → Lns.add c x (Lns.neg c x) = Lns.zero c)) ∧
  (∀ (c : Config) (a : BitVec c.fN),
    (a ≠ Fix.maxNeg c → Fix.add c a (-a) = Fix.zero c) ∧
    Fix.add c (Fix.maxNeg c) (-Fix.maxNeg c) = Fix.maxNeg c)

/- ### The host's side -/

/-- R136: the host's conversion sequences, from an instance `c` into the instance of `s`, round the
value that the pattern denotes. -/
def Obligations.ConversionsRoundTheValue : Prop :=
  (∀ (c : Config) (p : BitVec c.pN) (s : State),
    (∀ x, Posit.val c p = some x →
      exec (positToFix c (Posit.decode c p)) s =
        .next (s.answer (Fix.roundedResponse s.cfg (Fix.round s.cfg x))) ∧
      exec (positToPosit c (Posit.decode c p)) s =
        .next (s.answer (Posit.roundedResponse s.cfg (Posit.round s.cfg x)))) ∧
    (Posit.val c p = none →
      exec (positToFix c (Posit.decode c p)) s = .next (s.answer { fault := 0b010#3 }) ∧
      exec (positToPosit c (Posit.decode c p)) s =
        .next (s.answer (Posit.roundedResponse s.cfg (Posit.nar s.cfg))))) ∧
  (∀ (c : Config) (p : BitVec c.fN) (s : State),
    exec (fixToPosit c (Fix.decode c p)) s =
      .next (s.answer (Posit.roundedResponse s.cfg (Posit.round s.cfg (Fix.val c p)))) ∧
    exec (fixToFix c (Fix.decode c p)) s =
      .next (s.answer (Fix.roundedResponse s.cfg (Fix.round s.cfg (Fix.val c p))))) ∧
  (∀ (c : Config) (p : BitVec c.lN) (s : State),
    exec (lnsToLns c (Lns.decode c p)) s = .next (s.answer (Lns.roundedResponse s.cfg
      (match Lns.val c p with
        | .zero => Lns.zero s.cfg
        | .nar => Lns.nar s.cfg
        | .number sign log => Lns.round s.cfg sign log))))

/-- R41: the bytes a host writes for a pattern, low byte first or last by `SER_ENDIAN`. -/
def Obligations.SerialisationFollowsSerEndian : Prop :=
  ∀ (c : Config) (nbits p : Nat), p < 2 ^ nbits →
    (serialise c nbits p).length = (nbits + 7) / 8 ∧
    (c.serEndian = .little →
      ((serialise c nbits p).foldr (fun byte acc => byte.toNat + 256 * acc) 0) = p) ∧
    (c.serEndian = .big →
      ((serialise c nbits p).foldl (fun acc byte => byte.toNat + 256 * acc) 0) = p)

/-- R230, R214: a host's run never stops inside the block.  It completes with the step's response to each
request, or it ends at the first fault of class Misuse, which is the fault of the step on the next
request, keeping the step's response to each request before it.  That a fault of class ArithmeticFault
always goes on, that a request is any function of the earlier responses, and that the Misuse response is
not among the kept ones are the model's choices (notes/assumptions/12.md). -/
def Obligations.RunsEndAtTheListOrTheFirstMisuse : Prop :=
  ∀ (c : Config) (program : List Transaction), ∃ (responses : List Response) (states : Nat → State),
    answeredInOrder c program responses states ∧
    (∀ p ∈ responses, isMisuse p.fault = false) ∧
    ((runProgram c program = .completed responses ∧ responses.length = program.length) ∨
      ∃ request t p, runProgram c program = .misuse p.fault responses ∧
        program[responses.length]? = some request ∧
        step ((states responses.length).present (request responses)) = .next t ∧
        t.resp = some p ∧ isMisuse p.fault = true)
end

