-- ==== Sys2Proof/Laws/State.lean ====
section
/-! SUPPORT. Each update of the state, field by field. -/

namespace Sys2Proof.Machine

@[simp] theorem State.answer_cfg (s : State) (p : Response) : (s.answer p).cfg = s.cfg := rfl
@[simp] theorem State.answer_req (s : State) (p : Response) : (s.answer p).req = s.req := rfl
@[simp] theorem State.answer_resp (s : State) (p : Response) : (s.answer p).resp = some p := rfl
@[simp] theorem State.answer_draws (s : State) (p : Response) : (s.answer p).draws = s.draws := rfl

@[simp] theorem State.takeFault_cfg (s : State) (f : FaultCode) : (s.takeFault f).cfg = s.cfg := rfl
@[simp] theorem State.takeFault_req (s : State) (f : FaultCode) : (s.takeFault f).req = s.req := rfl
@[simp] theorem State.takeFault_resp (s : State) (f : FaultCode) :
    (s.takeFault f).resp = some (Response.faulted f) := rfl
@[simp] theorem State.takeFault_draws (s : State) (f : FaultCode) :
    (s.takeFault f).draws = s.draws := rfl

@[simp] theorem State.countDraw_cfg (s : State) (d : Bool) : (s.countDraw d).cfg = s.cfg := rfl
@[simp] theorem State.countDraw_req (s : State) (d : Bool) : (s.countDraw d).req = s.req := rfl
@[simp] theorem State.countDraw_resp (s : State) (d : Bool) : (s.countDraw d).resp = s.resp := rfl
@[simp] theorem State.countDraw_draws_true (s : State) : (s.countDraw true).draws = s.draws + 1 := rfl
@[simp] theorem State.countDraw_false (s : State) : s.countDraw false = s := rfl

@[simp] theorem State.present_cfg (s : State) (q : Request) : (s.present q).cfg = s.cfg := rfl
@[simp] theorem State.present_req (s : State) (q : Request) : (s.present q).req = q := rfl
@[simp] theorem State.present_resp (s : State) (q : Request) : (s.present q).resp = none := rfl
@[simp] theorem State.present_draws (s : State) (q : Request) : (s.present q).draws = s.draws := rfl

@[simp] theorem State.assertReset_cfg (s : State) : s.assertReset.cfg = s.cfg := rfl
@[simp] theorem State.assertReset_req (s : State) : s.assertReset.req = s.req := rfl
@[simp] theorem State.assertReset_resp (s : State) : s.assertReset.resp = none := rfl
@[simp] theorem State.assertReset_draws (s : State) : s.assertReset.draws = s.draws := rfl

@[simp] theorem State.resetWith_cfg (c : Config) : (State.resetWith c).cfg = c := rfl
@[simp] theorem State.resetWith_req (c : Config) : (State.resetWith c).req = Request.idle := rfl
@[simp] theorem State.resetWith_resp (c : Config) : (State.resetWith c).resp = none := rfl
@[simp] theorem State.resetWith_draws (c : Config) : (State.resetWith c).draws = 0 := rfl

@[simp] theorem State.withFetchWord_cfg (s : State) (n w : Nat) :
    (s.withFetchWord n w).cfg = s.cfg := rfl
@[simp] theorem State.withFetchWord_req (s : State) (n w : Nat) :
    (s.withFetchWord n w).req = requestOfTableWord n w := rfl
@[simp] theorem State.withFetchWord_resp (s : State) (n w : Nat) :
    (s.withFetchWord n w).resp = s.resp := rfl
@[simp] theorem State.withFetchWord_draws (s : State) (n w : Nat) :
    (s.withFetchWord n w).draws = s.draws := rfl

end Sys2Proof.Machine
end

