-- ==== Sys2Proof/Laws/Ops.lean ====
section
/-! SUPPORT. What each shared operation can do, said once. -/

namespace Sys2Proof.Machine

@[simp] theorem Special.ofBits_bits (x : Special) : Special.ofBits x.bits = x := by
  cases x <;> rfl

@[simp] theorem Special.bits_ofBits (w : SpecialWires) : (Special.ofBits w).bits = w := by
  revert w; decide

theorem FaultCode.bits_eq_iff (f g : FaultCode) : f.bits = g.bits ↔ f = g := by
  cases f <;> cases g <;> decide

theorem Relation.bits_eq_iff (x y : Relation) : x.bits = y.bits ↔ x = y := by
  cases x <;> cases y <;> decide

@[simp] theorem deliver_ok (s : State) (p : Response) : deliver s (.ok p) = .next (s.answer p) := rfl

@[simp] theorem deliver_error (s : State) (f : FaultCode) :
    deliver s (.error f) = .next (s.takeFault f) := rfl

/-- Delivering always gives a next state, and that state differs in the response ports only. -/
theorem deliver_next (s : State) (e : Except FaultCode Response) :
    ∃ p, deliver s e = .next (s.answer p) ∧
      (e = .ok p ∨ ∃ f, e = .error f ∧ p = Response.faulted f) := by
  cases e with
  | ok p => exact ⟨p, rfl, .inl rfl⟩
  | error f => exact ⟨Response.faulted f, rfl, .inr ⟨f, rfl, rfl⟩⟩

/-- The next state of a delivery. -/
theorem deliver_inv {s t : State} {e : Except FaultCode Response} (h : deliver s e = .next t) :
    ∃ p, t = s.answer p := by
  obtain ⟨p, hp, -⟩ := deliver_next s e
  rw [hp] at h
  exact ⟨p, by injection h with h; exact h.symm⟩

theorem gated_present {c : Config} (h : c.extArith = true) (e : Except FaultCode Response) :
    gated c e = e := by simp [gated, h]

theorem gated_absent {c : Config} (h : c.extArith = false) (e : Except FaultCode Response) :
    gated c e = .error .illegalOp := by simp [gated, h]

/-- The four outcomes of comparing two numbers. -/
theorem relationOf_cases (x y : Int) :
    (x < y ∧ relationOf x y = .lt) ∨ (y < x ∧ relationOf x y = .gt) ∨
      (x = y ∧ relationOf x y = .eq) := by
  unfold relationOf
  split
  · exact .inl ⟨‹_›, rfl⟩
  · split
    · exact .inr (.inl ⟨‹_›, rfl⟩)
    · exact .inr (.inr ⟨by omega, rfl⟩)

section Denotation

variable {α : Type} [DecidableEq α] (f : Tie → ℚ → α)

/-- An operand without the sticky flag is rounded exactly once, at the value it denotes. -/
theorem roundDenoted_exact {i : Denoted} (h : i.sticky = false) (pick : Nat × Nat) :
    roundDenoted f i pick = f .even i.low := by simp [roundDenoted, h]

/-- A sticky operand whose interval holds no breakpoint. -/
theorem roundDenoted_determined {i : Denoted} (h : i.sticky = true)
    (hd : f .up i.low = f .down i.high) (pick : Nat × Nat) :
    roundDenoted f i pick = f .up i.low := by simp [roundDenoted, h, hd]

/-- A sticky operand whose interval holds a breakpoint: a value at a point of the interval. -/
theorem roundDenoted_drawn {i : Denoted} (h : i.sticky = true)
    (hd : f .up i.low ≠ f .down i.high) (pick : Nat × Nat) :
    roundDenoted f i pick = f .even (i.point pick) := by simp [roundDenoted, h, hd]

theorem isDraw_eq_false {i : Denoted} (h : i.sticky = false) : isDraw f i = false := by
  simp [isDraw, h]

end Denotation

/-- The selected point lies strictly inside the interval. -/
theorem Denoted.point_mem (i : Denoted) (h : i.low < i.high) (pick : Nat × Nat) :
    i.low < i.point pick ∧ i.point pick < i.high := by
  obtain ⟨n, m⟩ := pick
  have hd : (0 : ℚ) < (n : ℚ) + m + 2 := by positivity
  have h0 : (0 : ℚ) < ((n : ℚ) + 1) / ((n : ℚ) + m + 2) := by positivity
  have h1 : ((n : ℚ) + 1) / ((n : ℚ) + m + 2) < 1 := by
    rw [div_lt_one hd]
    have : (0 : ℚ) ≤ m := by positivity
    linarith
  have hw : 0 < i.high - i.low := by linarith
  constructor
  · have := mul_pos hw h0
    simp only [Denoted.point]; linarith
  · have := mul_lt_mul_of_pos_left h1 hw
    simp only [Denoted.point]; linarith

/-- Every rational point of the interval can be selected: no choice is lost. -/
theorem Denoted.point_surjective (i : Denoted) (x : ℚ) (hl : i.low < x) (hh : x < i.high) :
    ∃ pick, i.point pick = x := by
  have hw : 0 < i.high - i.low := by linarith
  have ht0 : 0 < (x - i.low) / (i.high - i.low) := div_pos (by linarith) hw
  have ht1 : (x - i.low) / (i.high - i.low) < 1 := by rw [div_lt_one hw]; linarith
  obtain ⟨t, ht⟩ : ∃ t, t = (x - i.low) / (i.high - i.low) := ⟨_, rfl⟩
  rw [← ht] at ht0 ht1
  have hnum : 0 < t.num := Rat.num_pos.mpr ht0
  have hden : (0 : ℚ) < t.den := by exact_mod_cast t.den_pos
  have hlt : t.num < t.den := by
    have h1 : (t.num : ℚ) / t.den < 1 := by rw [Rat.num_div_den]; exact ht1
    rw [div_lt_one hden] at h1
    exact_mod_cast h1
  refine ⟨(t.num.toNat - 1, t.den - t.num.toNat - 1), ?_⟩
  have e1 : ((t.num.toNat - 1 : Nat) : ℚ) + 1 = t.num := by
    have : ((t.num.toNat - 1 : Nat) : Int) + 1 = t.num := by omega
    exact_mod_cast this
  have e2 : ((t.num.toNat - 1 : Nat) : ℚ) + ((t.den - t.num.toNat - 1 : Nat) : ℚ) + 2 = t.den := by
    have : ((t.num.toNat - 1 : Nat) : Int) + ((t.den - t.num.toNat - 1 : Nat) : Int) + 2 = t.den := by
      omega
    exact_mod_cast this
  simp only [Denoted.point]
  rw [e1, e2, Rat.num_div_den, ht]
  field_simp
  ring

end Sys2Proof.Machine
end

