-- ==== Sys2Proof/Laws/Numeric.lean ====
section
/-! SUPPORT. The exact arithmetic: powers of two, rounding to an integer, the largest code. -/

namespace Sys2Proof.Machine

theorem pow2_pos (e : Int) : 0 < pow2 e := by unfold pow2; positivity

@[simp] theorem pow2_zero : pow2 0 = 1 := by simp [pow2]

theorem pow2_add (a b : Int) : pow2 (a + b) = pow2 a * pow2 b := by
  unfold pow2; exact zpow_add₀ (by norm_num) a b

theorem pow2_natCast (n : Nat) : pow2 n = 2 ^ n := by simp [pow2]

theorem pow2_le_iff {a b : Int} : pow2 a ≤ pow2 b ↔ a ≤ b := by
  unfold pow2; exact zpow_le_zpow_iff_right₀ (by norm_num)

theorem pow2_lt_iff {a b : Int} : pow2 a < pow2 b ↔ a < b := by
  unfold pow2; exact zpow_lt_zpow_iff_right₀ (by norm_num)

/-- The floor of a rational brackets it. -/
theorem floor_bracket (t : ℚ) : (t.floor : ℚ) ≤ t ∧ t < t.floor + 1 := by
  have h : t.floor = ⌊t⌋ := rfl
  rw [h]
  exact ⟨Int.floor_le t, Int.lt_floor_add_one t⟩

/-- The candidates of a rounding: the floor or the integer above it. -/
theorem roundInt_cases (tie : Tie) (t : ℚ) :
    (roundInt tie t = t.floor ∧ t - t.floor ≤ 1 / 2) ∨
      (roundInt tie t = t.floor + 1 ∧ 1 / 2 ≤ t - t.floor) := by
  unfold roundInt
  dsimp only
  split
  · exact .inr ⟨rfl, by linarith⟩
  · split
    · exact .inl ⟨rfl, by linarith⟩
    · split
      · exact .inr ⟨rfl, by linarith⟩
      · exact .inl ⟨rfl, by linarith⟩

/-- An integer rounds to itself, however ties are settled. -/
theorem roundInt_intCast (tie : Tie) (n : Int) : roundInt tie (n : ℚ) = n := by
  have hf : ((n : ℚ).floor) = n := by
    have : ((n : ℚ).floor) = ⌊(n : ℚ)⌋ := rfl
    rw [this, Int.floor_intCast]
  rcases roundInt_cases tie (n : ℚ) with ⟨h, -⟩ | ⟨-, h⟩
  · rw [h, hf]
  · rw [hf] at h; norm_num at h

theorem clampInt_mem {lo hi : Int} (h : lo ≤ hi) (i : Int) :
    lo ≤ clampInt lo hi i ∧ clampInt lo hi i ≤ hi := by
  unfold clampInt; omega

theorem clampInt_of_mem {lo hi i : Int} (h1 : lo ≤ i) (h2 : i ≤ hi) : clampInt lo hi i = i := by
  unfold clampInt; omega

theorem largestCode_mem (p : Nat → Bool) (bits : Nat) :
    ∀ base, p base = true →
      p (largestCode p bits base) = true ∧ base ≤ largestCode p bits base ∧
        largestCode p bits base < base + 2 ^ bits := by
  induction bits with
  | zero => intro base h; exact ⟨h, le_refl _, by simp [largestCode]⟩
  | succ n ih =>
    intro base h
    simp only [largestCode]
    have h2 : 2 ^ (n + 1) = 2 ^ n + 2 ^ n := by ring
    split
    · obtain ⟨a, b, d⟩ := ih _ ‹_›
      exact ⟨a, by omega, by omega⟩
    · obtain ⟨a, b, d⟩ := ih _ h
      exact ⟨a, b, by omega⟩

/-- It is the largest: no code above it, up to the bound, satisfies the predicate. -/
theorem largestCode_max (p : Nat → Bool) (hp : ∀ a b, a ≤ b → p b = true → p a = true) (bits : Nat) :
    ∀ base code, largestCode p bits base < code → code < base + 2 ^ bits → p code = false := by
  induction bits with
  | zero => intro base code h1 h2; simp [largestCode] at h1 h2; omega
  | succ n ih =>
    intro base code h1 h2
    simp only [largestCode] at h1
    have h3 : 2 ^ (n + 1) = 2 ^ n + 2 ^ n := by ring
    split at h1
    · exact ih _ code h1 (by omega)
    · by_cases hc : code < base + 2 ^ n
      · exact ih _ code h1 hc
      · by_contra hne
        have := hp (base + 2 ^ n) code (by omega) (by simpa using hne)
        contradiction

/-- `floorLog2 x` is the largest power of two that does not exceed `x`. -/
theorem floorLog2_bracket {x : ℚ} (hx : 0 < x) :
    pow2 (floorLog2 x) ≤ x ∧ x < pow2 (floorLog2 x + 1) := by
  have hn : 0 < x.num := Rat.num_pos.mpr hx
  have hd : (0 : ℚ) < x.den := by exact_mod_cast x.den_pos
  have hne : x.num.natAbs ≠ 0 := by omega
  have hcast : ((x.num.natAbs : Nat) : ℚ) = x.num := by
    have h : ((x.num.natAbs : Nat) : Int) = x.num := by omega
    rw [← Int.cast_natCast, h]
  have hxe : x = (x.num.natAbs : ℚ) / x.den := by rw [hcast, Rat.num_div_den]
  have a1 : (2 : ℚ) ^ Nat.log2 x.num.natAbs ≤ x.num.natAbs := by
    exact_mod_cast Nat.log2_self_le hne
  have a2 : (x.num.natAbs : ℚ) < 2 ^ (Nat.log2 x.num.natAbs + 1) := by
    exact_mod_cast Nat.lt_log2_self
  have b1 : (2 : ℚ) ^ Nat.log2 x.den ≤ x.den := by
    exact_mod_cast Nat.log2_self_le x.den_nz
  have b2 : (x.den : ℚ) < 2 ^ (Nat.log2 x.den + 1) := by exact_mod_cast Nat.lt_log2_self
  have hlow : pow2 ((Nat.log2 x.num.natAbs : Int) - Nat.log2 x.den - 1) ≤ x := by
    have e : pow2 ((Nat.log2 x.num.natAbs : Int) - Nat.log2 x.den - 1) =
        2 ^ Nat.log2 x.num.natAbs / 2 ^ (Nat.log2 x.den + 1) := by
      unfold pow2
      rw [show (Nat.log2 x.num.natAbs : Int) - Nat.log2 x.den - 1 =
        (Nat.log2 x.num.natAbs : Int) - ((Nat.log2 x.den + 1 : Nat) : Int) by push_cast; ring,
        zpow_sub₀ (by norm_num), zpow_natCast, zpow_natCast]
    rw [e, div_le_iff₀ (by positivity)]
    have : x * x.den = x.num.natAbs := by rw [hcast]; exact Rat.mul_den_eq_num x
    calc (2 : ℚ) ^ Nat.log2 x.num.natAbs ≤ x.num.natAbs := a1
      _ = x * x.den := this.symm
      _ ≤ x * 2 ^ (Nat.log2 x.den + 1) := by
          exact mul_le_mul_of_nonneg_left b2.le hx.le
  have hhigh : x < pow2 ((Nat.log2 x.num.natAbs : Int) - Nat.log2 x.den + 1) := by
    have e : pow2 ((Nat.log2 x.num.natAbs : Int) - Nat.log2 x.den + 1) =
        2 ^ (Nat.log2 x.num.natAbs + 1) / 2 ^ Nat.log2 x.den := by
      unfold pow2
      rw [show (Nat.log2 x.num.natAbs : Int) - Nat.log2 x.den + 1 =
        ((Nat.log2 x.num.natAbs + 1 : Nat) : Int) - (Nat.log2 x.den : Int) by push_cast; ring,
        zpow_sub₀ (by norm_num), zpow_natCast, zpow_natCast]
    rw [e, lt_div_iff₀ (by positivity)]
    have : x * x.den = x.num.natAbs := by rw [hcast]; exact Rat.mul_den_eq_num x
    calc x * 2 ^ Nat.log2 x.den ≤ x * x.den := mul_le_mul_of_nonneg_left b1 hx.le
      _ = x.num.natAbs := this
      _ < 2 ^ (Nat.log2 x.num.natAbs + 1) := a2
  unfold floorLog2
  dsimp only
  split
  · exact ⟨‹_›, hhigh⟩
  · refine ⟨hlow, ?_⟩
    rw [sub_add_cancel]
    exact not_le.mp ‹_›

end Sys2Proof.Machine
end

