-- ==== Sys2Proof/Laws/Patterns.lean ====
section
/-! SUPPORT. The patterns as integers: reserved patterns, the LNS composer, the saturator. -/

namespace Sys2Proof.Machine

theorem two_pow_pred {n : Nat} (h : 1 ≤ n) : 2 ^ n = 2 * 2 ^ (n - 1) := by
  obtain ⟨m, rfl⟩ : ∃ m, n = m + 1 := ⟨n - 1, by omega⟩
  rw [Nat.add_sub_cancel]; ring

/-- A pattern on a posit port is read whole. -/
@[simp] theorem posPort_toNat (c : Config) (a : BitVec c.pN) : posPort c a.toNat = a := by
  simp [posPort]

/-- A pattern on an LNS port is read whole. -/
@[simp] theorem lnsPort_toNat (c : Config) (a : BitVec c.lN) : lnsPort c a.toNat = a := by
  simp [lnsPort]

/-- A pattern on a fixed-point port is read whole. -/
@[simp] theorem fixPort_toNat (c : Config) (a : BitVec c.fN) : fixPort c a.toNat = a := by
  simp [fixPort]

@[simp] theorem Posit.zero_toNat (c : Config) : (Posit.zero c).toNat = 0 := by simp [Posit.zero]

@[simp] theorem Posit.nar_toNat (c : Config) : (Posit.nar c).toNat = 2 ^ (c.pN - 1) := by
  have := c.pN_ge
  rw [Posit.nar, BitVec.toNat_ofNat, Nat.mod_eq_of_lt (Nat.pow_lt_pow_right (by omega) (by omega))]

@[simp] theorem Fix.zero_toNat (c : Config) : (Fix.zero c).toNat = 0 := by simp [Fix.zero]

/-- The integer of an LNS pattern: its sign and its logarithm field. -/
theorem Lns.pack_toNat (c : Config) (sign : Bool) (E : Int) :
    (Lns.pack c sign E).toNat = (if sign then 2 ^ c.lW else 0) + (E % 2 ^ c.lW).toNat := by
  have h1 := c.lN_ge
  have hp : (0 : Int) < 2 ^ c.lW := by positivity
  have h2 : (E % 2 ^ c.lW).toNat < 2 ^ c.lW := by
    have a := Int.emod_lt_of_pos E hp
    have b := Int.emod_nonneg E (ne_of_gt hp)
    zify; rw [Int.toNat_of_nonneg b]; exact a
  have h3 : 2 ^ c.lN = 2 * 2 ^ c.lW := two_pow_pred (by omega)
  rw [Lns.pack, BitVec.toNat_ofNat, Nat.mod_eq_of_lt]
  split <;> omega

/-- The sign bit of an LNS pattern is the sign it was composed with. -/
theorem Lns.pack_msb (c : Config) (sign : Bool) (E : Int) : (Lns.pack c sign E).msb = sign := by
  have h1 := c.lN_ge
  have hp : (0 : Int) < 2 ^ c.lW := by positivity
  have h2 : (E % 2 ^ c.lW).toNat < 2 ^ c.lW := by
    have a := Int.emod_lt_of_pos E hp
    have b := Int.emod_nonneg E (ne_of_gt hp)
    zify; rw [Int.toNat_of_nonneg b]; exact a
  rw [BitVec.msb_eq_decide, Lns.pack_toNat]
  have h4 : c.lN - 1 = c.lW := rfl
  rw [h4]
  cases sign
  · simp; omega
  · simp

/-- The logarithm code of a composed pattern, for a code the field can hold. -/
theorem Lns.code_pack (c : Config) (sign : Bool) {E : Int} (h1 : c.lERes ≤ E) (h2 : E ≤ c.lEMax) :
    Lns.code c (Lns.pack c sign E) = E := by
  have hN := c.lN_ge
  have hW : c.lW = (c.lN - 2) + 1 := by unfold Config.lW; omega
  have hq : (2 : Int) ^ c.lW = 2 * 2 ^ (c.lN - 2) := by rw [hW]; ring
  have hpos : (0 : Int) < 2 ^ (c.lN - 2) := by positivity
  have hp : (0 : Int) < 2 ^ c.lW := by positivity
  have hb := Int.emod_nonneg E (ne_of_gt hp)
  have ha := Int.emod_lt_of_pos E hp
  have hmod : ((if sign then 2 ^ c.lW else 0) + (E % 2 ^ c.lW).toNat) % 2 ^ c.lW
      = (E % 2 ^ c.lW).toNat := by
    have hlt : (E % 2 ^ c.lW).toNat < 2 ^ c.lW := by
      zify; rw [Int.toNat_of_nonneg hb]; exact ha
    cases sign <;> simp [Nat.mod_eq_of_lt hlt]
  unfold Lns.code
  rw [BitVec.toInt_eq_toNat_bmod, BitVec.toNat_setWidth, Lns.pack_toNat, hmod,
    Int.toNat_of_nonneg hb]
  unfold Config.lERes at h1
  unfold Config.lEMax at h2
  have hc : ((2 ^ c.lW : Nat) : Int) = 2 ^ c.lW := by push_cast; rfl
  have : (E % 2 ^ c.lW).bmod (2 ^ c.lW) = E.bmod (2 ^ c.lW) := by
    rw [← hc, Int.emod_bmod]
  rw [this]
  apply Int.bmod_eq_of_le
  · rw [hc, hq]; omega
  · rw [hc, hq]; omega

/-- The integer of a saturated code. -/
theorem Fix.saturate_toInt (c : Config) (i : Int) :
    (Fix.saturate c i).toInt = clampInt c.fIMin c.fIMax i := by
  have hN := c.fN_ge
  have hle : c.fIMin ≤ c.fIMax := by
    unfold Config.fIMin Config.fIMax
    have : (0 : Int) < 2 ^ (c.fN - 1) := by positivity
    omega
  obtain ⟨h1, h2⟩ := clampInt_mem hle i
  have hs : Fix.saturate c i = BitVec.ofInt c.fN (clampInt c.fIMin c.fIMax i) := by
    unfold Fix.saturate; cases c.fxOverflow; rfl
  rw [hs]
  unfold Config.fIMin at *
  unfold Config.fIMax at *
  apply BitVec.toInt_ofInt_eq_self (by omega)
  · omega
  · omega

theorem Posit.nar_ne_zero (c : Config) : Posit.nar c ≠ Posit.zero c := by
  intro h
  have := congrArg BitVec.toNat h
  simp at this

/-- NaR is the only pattern without a value. -/
theorem Posit.val_eq_none_iff (c : Config) (p : BitVec c.pN) :
    Posit.val c p = none ↔ p = Posit.nar c := by
  unfold Posit.val
  split
  · rename_i h
    simp [h, (Posit.nar_ne_zero c).symm]
  · split <;> simp_all

/-- What the common procedure of posit arithmetic can answer. -/
theorem Posit.operate_cases (c : Config) (f : ℚ → ℚ → Option ℚ) (a b : BitVec c.pN) :
    ((a = Posit.nar c ∨ b = Posit.nar c) ∧ Posit.operate c f a b = Posit.nar c) ∨
      ∃ x y, Posit.val c a = some x ∧ Posit.val c b = some y ∧
        Posit.operate c f a b = ((f x y).map (Posit.round c)).getD (Posit.nar c) := by
  unfold Posit.operate
  rcases ha : Posit.val c a with _ | x
  · exact .inl ⟨.inl ((Posit.val_eq_none_iff c a).mp ha), rfl⟩
  · rcases hb : Posit.val c b with _ | y
    · exact .inl ⟨.inr ((Posit.val_eq_none_iff c b).mp hb), rfl⟩
    · refine .inr ⟨x, y, rfl, rfl, ?_⟩
      rcases hf : f x y with _ | v <;> simp [hf]

/-- The three regions of the LNS rounding function: underflow to zero, underflow to the least
magnitude, and the rounded and clamped code. -/
theorem Lns.roundTie_cases (c : Config) (sign : Bool) (tie : Tie) (L : ℚ) :
    (L ≤ c.lEMin / 2 ^ c.lR - 1 ∧ Lns.roundTie c sign tie L = Lns.zero c) ∨
      (c.lEMin / 2 ^ c.lR - 1 ≤ L ∧ L < c.lEMin / 2 ^ c.lR ∧
        Lns.roundTie c sign tie L = Lns.pack c sign c.lEMin) ∨
      (c.lEMin / 2 ^ c.lR ≤ L ∧
        Lns.roundTie c sign tie L = Lns.pack c sign (min (roundInt tie (L * 2 ^ c.lR)) c.lEMax)) := by
  unfold Lns.roundTie
  dsimp only
  split
  · split
    · rename_i h1 h2
      exact .inl ⟨h2.elim le_of_lt (fun h => h.1.le), rfl⟩
    · rename_i h1 h2
      exact .inr (.inl ⟨not_lt.mp (fun h => h2 (.inl h)), h1, rfl⟩)
  · exact .inr (.inr ⟨not_lt.mp ‹_›, rfl⟩)

end Sys2Proof.Machine
end

