-- ==== Sys2Proof/Laws/PerInstr.lean ====
section
/-! SUPPORT. A fact about each instruction as syntax: its operation code. -/

namespace Sys2Proof.Laws

open Sys2Proof.Machine

/-- An instruction's code is not reserved (spec 30_encoding.md R55), and it is one of the extension codes
exactly when the instruction is one of the eight of R56. -/
def OpField.Statement (i : Instr) : Prop :=
  isReservedCode (encode i).op = false ∧ isExtCode (encode i).op = i.isExt

theorem OpField.pdec (a : Nat) : OpField.Statement (.pdec a) := ⟨rfl, rfl⟩
theorem OpField.penc (d : PositDec) : OpField.Statement (.penc d) := ⟨rfl, rfl⟩
theorem OpField.prnd (u : Unrounded) : OpField.Statement (.prnd u) := ⟨rfl, rfl⟩
theorem OpField.pcls (a : Nat) : OpField.Statement (.pcls a) := ⟨rfl, rfl⟩
theorem OpField.padd (a b : Nat) : OpField.Statement (.padd a b) := ⟨rfl, rfl⟩
theorem OpField.psub (a b : Nat) : OpField.Statement (.psub a b) := ⟨rfl, rfl⟩
theorem OpField.pmul (a b : Nat) : OpField.Statement (.pmul a b) := ⟨rfl, rfl⟩
theorem OpField.pdiv (a b : Nat) : OpField.Statement (.pdiv a b) := ⟨rfl, rfl⟩
theorem OpField.ldec (a : Nat) : OpField.Statement (.ldec a) := ⟨rfl, rfl⟩
theorem OpField.lenc (d : LnsDec) : OpField.Statement (.lenc d) := ⟨rfl, rfl⟩
theorem OpField.lrnd (u : UnroundedLog) : OpField.Statement (.lrnd u) := ⟨rfl, rfl⟩
theorem OpField.lcls (a : Nat) : OpField.Statement (.lcls a) := ⟨rfl, rfl⟩
theorem OpField.ladd (a b : Nat) : OpField.Statement (.ladd a b) := ⟨rfl, rfl⟩
theorem OpField.lsub (a b : Nat) : OpField.Statement (.lsub a b) := ⟨rfl, rfl⟩
theorem OpField.lmul (a b : Nat) : OpField.Statement (.lmul a b) := ⟨rfl, rfl⟩
theorem OpField.ldiv (a b : Nat) : OpField.Statement (.ldiv a b) := ⟨rfl, rfl⟩
theorem OpField.fdec (a : Nat) : OpField.Statement (.fdec a) := ⟨rfl, rfl⟩
theorem OpField.fenc (d : FixDec) : OpField.Statement (.fenc d) := ⟨rfl, rfl⟩
theorem OpField.frnd (u : Unrounded) : OpField.Statement (.frnd u) := ⟨rfl, rfl⟩
theorem OpField.fcls (a : Nat) : OpField.Statement (.fcls a) := ⟨rfl, rfl⟩
theorem OpField.fadd (a b : Nat) : OpField.Statement (.fadd a b) := ⟨rfl, rfl⟩
theorem OpField.fsub (a b : Nat) : OpField.Statement (.fsub a b) := ⟨rfl, rfl⟩
theorem OpField.fmul (a b : Nat) : OpField.Statement (.fmul a b) := ⟨rfl, rfl⟩
theorem OpField.fdiv (a b : Nat) : OpField.Statement (.fdiv a b) := ⟨rfl, rfl⟩
theorem OpField.pcmp (a b : Nat) : OpField.Statement (.pcmp a b) := ⟨rfl, rfl⟩
theorem OpField.lcmp (a b : Nat) : OpField.Statement (.lcmp a b) := ⟨rfl, rfl⟩
theorem OpField.fcmp (a b : Nat) : OpField.Statement (.fcmp a b) := ⟨rfl, rfl⟩
theorem OpField.pconst (sel : Sel) : OpField.Statement (.pconst sel) := ⟨rfl, rfl⟩
theorem OpField.lconst (sel : Sel) : OpField.Statement (.lconst sel) := ⟨rfl, rfl⟩
theorem OpField.fconst (sel : Sel) : OpField.Statement (.fconst sel) := ⟨rfl, rfl⟩

end Sys2Proof.Laws
end

