-- ==== Sys2Proof/Tests/Slice0.lean ====
section
/-! SUPPORT. The model's own tests.  The operation codes are written out bit by bit from spec
30_encoding.md R52; the expected responses are the spec's own worked examples and vectors, cited at
each test.  Every test is one transaction. -/

set_option Elab.async false

namespace Sys2Proof.Tests

open Sys2Proof.Machine

/-- posit<8,0>, lns<16,8>, fixed<8,2>, extension present, `Signal`: the shapes of most vectors. -/
def posit80 : Config where
  pN := 8
  pES := 0
  lN := 16
  lR := 8
  fN := 8
  fR := 2
  fxDiv0Policy := .signal
  extArith := true
  lnsAddSub := 0

/-- The same instance, named for the LNS tests. -/
def lns168 : Config := posit80

/-- The same instance, named for the fixed-point tests. -/
def fixed82 : Config := posit80

/-- posit<8,2>. -/
def posit82 : Config := { posit80 with pES := 2, pES_lt := by decide }

/-- posit<2,0>, the smallest shape. -/
def posit20 : Config := { posit80 with pN := 2, pN_ge := by decide, pES_lt := by decide }

/-- posit<4,1>. -/
def posit41 : Config := { posit80 with pN := 4, pES := 1, pN_ge := by decide, pES_lt := by decide }

/-- `EXT_ARITH = false`. -/
def noExt : Config := { posit80 with extArith := false }

/-- The response of one transaction on an instance. -/
def responseTo (c : Config) (i : Instr) : Option Response :=
  match step ((State.resetWith c).present (encode i)) with
  | .next s => s.resp
  | _ => none

/-- 30_encoding.md R52, the codes of group `posit`. -/
theorem test_decode_posit :
    decodeTableWord 8 0b00000000 = some (.pdec 0) ∧
    decodeTableWord 8 0b00000001 = some (.penc ⟨0#2, false, 0, 0⟩) ∧
    decodeTableWord 8 0b00000010 = some (.prnd ⟨0#2, false, 0, 0, false⟩) ∧
    decodeTableWord 8 0b00000011 = some (.pcls 0) ∧
    decodeTableWord 8 0b00000100 = some (.padd 0 0) ∧
    decodeTableWord 8 0b00000101 = some (.psub 0 0) ∧
    decodeTableWord 8 0b00000110 = some (.pmul 0 0) ∧
    decodeTableWord 8 0b00000111 = some (.pdiv 0 0) := by decide

/-- 30_encoding.md R52, the codes of group `lns`. -/
theorem test_decode_lns :
    decodeTableWord 8 0b00001000 = some (.ldec 0) ∧
    decodeTableWord 8 0b00001001 = some (.lenc ⟨0#2, false, 0, 0⟩) ∧
    decodeTableWord 8 0b00001010 = some (.lrnd ⟨0#2, false, 0, 0, false⟩) ∧
    decodeTableWord 8 0b00001011 = some (.lcls 0) ∧
    decodeTableWord 8 0b00001100 = some (.ladd 0 0) ∧
    decodeTableWord 8 0b00001101 = some (.lsub 0 0) ∧
    decodeTableWord 8 0b00001110 = some (.lmul 0 0) ∧
    decodeTableWord 8 0b00001111 = some (.ldiv 0 0) := by decide

/-- 30_encoding.md R52, the codes of group `fixed_point`. -/
theorem test_decode_fixed_point :
    decodeTableWord 8 0b00010000 = some (.fdec 0) ∧
    decodeTableWord 8 0b00010001 = some (.fenc ⟨0#2, false, 0, 0⟩) ∧
    decodeTableWord 8 0b00010010 = some (.frnd ⟨0#2, false, 0, 0, false⟩) ∧
    decodeTableWord 8 0b00010011 = some (.fcls 0) ∧
    decodeTableWord 8 0b00010100 = some (.fadd 0 0) ∧
    decodeTableWord 8 0b00010101 = some (.fsub 0 0) ∧
    decodeTableWord 8 0b00010110 = some (.fmul 0 0) ∧
    decodeTableWord 8 0b00010111 = some (.fdiv 0 0) := by decide

/-- 30_encoding.md R52, the codes of group `cross_format`. -/
theorem test_decode_cross_format :
    decodeTableWord 8 0b00011000 = some (.pcmp 0 0) ∧
    decodeTableWord 8 0b00011001 = some (.lcmp 0 0) ∧
    decodeTableWord 8 0b00011010 = some (.fcmp 0 0) ∧
    decodeTableWord 8 0b00011100 = some (.pconst 0#3) ∧
    decodeTableWord 8 0b00011101 = some (.lconst 0#3) ∧
    decodeTableWord 8 0b00011110 = some (.fconst 0#3) := by decide

/-- 30_encoding.md R55. -/
theorem test_decode_reserved :
    decodeTableWord 8 0b00011011 = none ∧ decodeTableWord 8 0b00011111 = none := by decide

/-- A ninth wire is no posit<8,0> pattern, on either port. -/
theorem test_wellFormed_refuses_posit :
    Instr.wellFormed posit80 (.padd 0x100 0) = false ∧
    Instr.wellFormed posit80 (.padd 0 0x100) = false ∧
    Instr.wellFormed posit80 (.pdec 0x100) = false ∧
    Instr.wellFormed posit80 (.padd 0xFF 0xFF) = true := by decide

/-- A seventeenth wire is no lns<16,8> pattern. -/
theorem test_wellFormed_refuses_lns :
    Instr.wellFormed lns168 (.ldiv 0x10000 0) = false ∧
    Instr.wellFormed lns168 (.lcmp 0 0x10000) = false ∧
    Instr.wellFormed lns168 (.lcls 0x10000) = false ∧
    Instr.wellFormed lns168 (.lcls 0xFFFF) = true := by decide

/-- A ninth wire is no fixed<8,2> pattern. -/
theorem test_wellFormed_refuses_fixed_point :
    Instr.wellFormed fixed82 (.fmul 0x100 0) = false ∧
    Instr.wellFormed fixed82 (.fcmp 0 0x100) = false ∧
    Instr.wellFormed fixed82 (.fdec 0x100) = false ∧
    Instr.wellFormed fixed82 (.fdec 0xFF) = true := by decide

/-- 95_test_vectors.md 2.1, posit<8,2>: −16777216, every exponent bit cut off -/
theorem test_pdec_negative_number :
    responseTo posit82 (.pdec 0x81) = some { fault := 0b000#3, dq := some (.posit { special := 0b00#2, sign := true, scale := 24, sig := 8 }), scan := some { r0 := true, run := 7, term := false, ne := 0, nf := 0 } } := by decide +kernel

/-- 95_test_vectors.md 2.1, posit<8,2>: one of two exponent bits present -/
theorem test_pdec_cut_exponent :
    (responseTo posit82 (.pdec 0x03)).bind (·.dq) = some (.posit { special := 0b00#2, sign := false, scale := (-18), sig := 8 }) := by decide +kernel

/-- 40_posit_codec.md R82: −3/2 -/
theorem test_penc_negative :
    (responseTo posit80 (.penc { special := 0b00#2, sign := true, scale := 0, sig := 48 })).bind (·.r) = some 0xB0 := by decide +kernel

/-- 40_posit_codec.md R82: 33 lies between 32 and 64 -/
theorem test_penc_not_representable :
    responseTo posit80 (.penc { special := 0b00#2, sign := false, scale := 5, sig := 33 }) = some { fault := 0b011#3 } := by decide +kernel

/-- 95_test_vectors.md 2.5: a negative tie -/
theorem test_prnd_tie_to_even :
    (responseTo posit80 (.prnd { special := 0b00#2, sign := true, mant := 65, exp2 := -6, sticky := false })).bind (·.r) = some 0xC0 := by decide +kernel

/-- 95_test_vectors.md 2.5: strictly above the tie -/
theorem test_prnd_sticky_breaks_tie :
    (responseTo posit80 (.prnd { special := 0b00#2, sign := false, mant := 65, exp2 := -6, sticky := true })).bind (·.r) = some 0x41 := by decide +kernel

/-- 46_special_values.md R174 -/
theorem test_pcls_nar :
    (responseTo posit80 (.pcls 0x80)).bind (·.cls) = some 0b110#3 := by decide +kernel

/-- 46_special_values.md R174 -/
theorem test_pcls_negative :
    (responseTo posit80 (.pcls 0xC0)).bind (·.cls) = some 0b100#3 := by decide +kernel

/-- 95_test_vectors.md 2.6: 67/64, a tie -/
theorem test_padd_tie :
    (responseTo posit80 (.padd 0x41 0x01)).bind (·.r) = some 0x42 := by decide +kernel

/-- 95_test_vectors.md 2.6: clamp to maxneg -/
theorem test_padd_clamps :
    (responseTo posit80 (.padd 0x81 0x81)).bind (·.r) = some 0x81 := by decide +kernel

/-- 44_posit_arith.md R146: 1 − 3/2 -/
theorem test_psub_order :
    (responseTo posit80 (.psub 0x40 0x50)).bind (·.r) = some 0xE0 := by decide +kernel

/-- 44_posit_arith.md R146: x − x -/
theorem test_psub_source_is_both :
    (responseTo posit80 (.psub 0x6A 0x6A)).bind (·.r) = some 0x00 := by decide +kernel

/-- 95_test_vectors.md 2.6: minpos/2 goes to zero -/
theorem test_pmul_underflow_tie :
    (responseTo posit80 (.pmul 0x08 0x04)).bind (·.r) = some 0x00 := by decide +kernel

/-- 95_test_vectors.md 2.6: 99/64, a tie -/
theorem test_pmul_tie :
    (responseTo posit80 (.pmul 0x50 0x41)).bind (·.r) = some 0x52 := by decide +kernel

/-- 95_test_vectors.md 2.6: 1/3 -/
theorem test_pdiv_inexact :
    (responseTo posit80 (.pdiv 0x40 0x68)).bind (·.r) = some 0x15 := by decide +kernel

/-- 44_posit_arith.md R148: NaR and no fault -/
theorem test_pdiv_by_zero :
    responseTo posit80 (.pdiv 0x00 0x00) = some { fault := 0b000#3, r := some 0x80 } := by decide +kernel

/-- 41_lns_codec.md R95 -/
theorem test_ldec_negative_log :
    (responseTo lns168 (.ldec 0x7FFF)).bind (·.dq) = some (.lns { special := 0b00#2, sign := false, scale := (-1), logfrac := 255 }) := by decide +kernel

/-- 41_lns_codec.md R95 -/
theorem test_ldec_nar :
    (responseTo lns168 (.ldec 0xC000)).bind (·.dq) = some (.lns { special := 0b11#2, sign := true, scale := 0, logfrac := 0 }) := by decide +kernel

/-- 95_test_vectors.md 2.3 -/
theorem test_lenc_minpos :
    (responseTo lns168 (.lenc { special := 0b00#2, sign := false, scale := -64, logfrac := 1 })).bind (·.r) = some 0x4001 := by decide +kernel

/-- 41_lns_codec.md R96 -/
theorem test_lenc_reserved_code_is_out_of_range :
    (responseTo lns168 (.lenc { special := 0b00#2, sign := false, scale := -64, logfrac := 0 })).bind (·.r) = some 0xC000 := by decide +kernel

/-- 95_test_vectors.md 2.5: tie to the even code −2 -/
theorem test_lrnd_negative_tie :
    (responseTo lns168 (.lrnd { special := 0b00#2, sign := false, lmant := -3, lexp2 := -9, sticky := false })).bind (·.r) = some 0x7FFE := by decide +kernel

/-- 95_test_vectors.md 2.5: strictly above Lmin − 1 -/
theorem test_lrnd_sticky_underflow :
    (responseTo lns168 (.lrnd { special := 0b00#2, sign := false, lmant := -16639, lexp2 := -8, sticky := true })).bind (·.r) = some 0x4001 := by decide +kernel

/-- 46_special_values.md R175 -/
theorem test_lcls_zero_token :
    (responseTo lns168 (.lcls 0x4000)).bind (·.cls) = some 0b001#3 := by decide +kernel

/-- 46_special_values.md R175 -/
theorem test_lcls_minus_one :
    (responseTo lns168 (.lcls 0x8000)).bind (·.cls) = some 0b100#3 := by decide +kernel

/-- 95_test_vectors.md S3 -/
theorem test_ladd_cancels :
    (responseTo lns168 (.ladd 0x3FFF 0xBFFF)).bind (·.r) = some 0x4000 := by decide +kernel

/-- 30_encoding.md R56 -/
theorem test_ladd_gated :
    responseTo noExt (.ladd 0x0100 0x8100) = some { fault := 0b100#3 } := by decide +kernel

/-- 47_ext_arith.md R191: 0 − x -/
theorem test_lsub_from_zero :
    (responseTo lns168 (.lsub 0x4000 0x0100)).bind (·.r) = some 0x8100 := by decide +kernel

/-- 47_ext_arith.md R191 -/
theorem test_lsub_nar :
    (responseTo lns168 (.lsub 0x0100 0xC000)).bind (·.r) = some 0xC000 := by decide +kernel

/-- 95_test_vectors.md 2.9: just above Lmin − 1 -/
theorem test_lmul_minpos :
    (responseTo lns168 (.lmul 0x4001 0x7F01)).bind (·.r) = some 0x4001 := by decide +kernel

/-- 95_test_vectors.md 2.9: exactly Lmin − 1 -/
theorem test_lmul_to_zero :
    (responseTo lns168 (.lmul 0x4001 0x7F00)).bind (·.r) = some 0x4000 := by decide +kernel

/-- 47_ext_arith.md R188: −1 ÷ −2 -/
theorem test_ldiv_signs :
    (responseTo lns168 (.ldiv 0x8000 0x8100)).bind (·.r) = some 0x7F00 := by decide +kernel

/-- 47_ext_arith.md R188: 0 ÷ 0 -/
theorem test_ldiv_by_zero :
    (responseTo lns168 (.ldiv 0x4000 0x4000)).bind (·.r) = some 0xC000 := by decide +kernel

/-- 42_fixed_codec.md R109: −1.25 -/
theorem test_fdec_negative :
    (responseTo fixed82 (.fdec 0xFB)).bind (·.dq) = some (.fix { special := 0b00#2, sign := true, ipart := 1, fpart := 1 }) := by decide +kernel

/-- 42_fixed_codec.md R109: −32 -/
theorem test_fdec_least :
    (responseTo fixed82 (.fdec 0x80)).bind (·.dq) = some (.fix { special := 0b00#2, sign := true, ipart := 32, fpart := 0 }) := by decide +kernel

/-- 42_fixed_codec.md R110 -/
theorem test_fenc_saturates :
    (responseTo fixed82 (.fenc { special := 0b00#2, sign := false, ipart := 32, fpart := 0 })).bind (·.r) = some 0x7F := by decide +kernel

/-- 60_exceptions.md R213: the NaR tag is tested first -/
theorem test_fenc_nar :
    responseTo fixed82 (.fenc { special := 0b11#2, sign := false, ipart := 0, fpart := 9 }) = some { fault := 0b010#3 } := by decide +kernel

/-- 43_rounder.md R133 -/
theorem test_frnd_negative_tie :
    (responseTo fixed82 (.frnd { special := 0b00#2, sign := true, mant := 3, exp2 := -3, sticky := false })).bind (·.r) = some 0xFE := by decide +kernel

/-- 95_test_vectors.md 2.5 -/
theorem test_frnd_negative_sticky :
    (responseTo fixed82 (.frnd { special := 0b00#2, sign := true, mant := 1, exp2 := -3, sticky := true })).bind (·.r) = some 0xFF := by decide +kernel

/-- 46_special_values.md R176 -/
theorem test_fcls_least_is_no_nar :
    (responseTo fixed82 (.fcls 0x80)).bind (·.cls) = some 0b100#3 := by decide +kernel

/-- 46_special_values.md R176 -/
theorem test_fcls_zero :
    (responseTo fixed82 (.fcls 0x00)).bind (·.cls) = some 0b001#3 := by decide +kernel

/-- 47_ext_arith.md R193 -/
theorem test_fadd_saturates :
    (responseTo fixed82 (.fadd 0x7C 0x04)).bind (·.r) = some 0x7F := by decide +kernel

/-- 90_conflicts.md C6 -/
theorem test_fadd_in_range :
    (responseTo fixed82 (.fadd 0x0E 0x04)).bind (·.r) = some 0x12 := by decide +kernel

/-- 47_ext_arith.md R194: 0 − (−32) -/
theorem test_fsub_least :
    (responseTo fixed82 (.fsub 0x00 0x80)).bind (·.r) = some 0x7F := by decide +kernel

/-- 47_ext_arith.md R194 -/
theorem test_fsub_negative :
    (responseTo fixed82 (.fsub 0x04 0x0E)).bind (·.r) = some 0xF6 := by decide +kernel

/-- 47_ext_arith.md R195 -/
theorem test_fmul_negative_tie :
    (responseTo fixed82 (.fmul 0xFD 0x02)).bind (·.r) = some 0xFE := by decide +kernel

/-- 47_ext_arith.md R195 -/
theorem test_fmul_saturates :
    (responseTo fixed82 (.fmul 0x80 0x7F)).bind (·.r) = some 0x80 := by decide +kernel

/-- 47_ext_arith.md R196 -/
theorem test_fdiv_negative_tie :
    (responseTo fixed82 (.fdiv 0xFB 0x08)).bind (·.r) = some 0xFE := by decide +kernel

/-- 47_ext_arith.md R197 -/
theorem test_fdiv_by_zero_signalled :
    responseTo fixed82 (.fdiv 0x00 0x00) = some { fault := 0b001#3 } := by decide +kernel

/-- 45_comparator.md R162 -/
theorem test_pcmp_negatives :
    (responseTo posit80 (.pcmp 0x81 0xFF)).bind (·.cmp) = some 0b0001#4 := by decide +kernel

/-- 45_comparator.md R162 -/
theorem test_pcmp_nar :
    (responseTo posit80 (.pcmp 0x80 0x80)).bind (·.cmp) = some 0b1000#4 := by decide +kernel

/-- 45_comparator.md R163 -/
theorem test_lcmp_zero_below_minpos :
    (responseTo lns168 (.lcmp 0x4000 0x4001)).bind (·.cmp) = some 0b0001#4 := by decide +kernel

/-- 45_comparator.md R163 -/
theorem test_lcmp_negatives :
    (responseTo lns168 (.lcmp 0x8100 0x8000)).bind (·.cmp) = some 0b0001#4 := by decide +kernel

/-- 95_test_vectors.md 2.7 -/
theorem test_fcmp_least_equals_itself :
    (responseTo fixed82 (.fcmp 0x80 0x80)).bind (·.cmp) = some 0b0010#4 := by decide +kernel

/-- 95_test_vectors.md 2.7 -/
theorem test_fcmp_extremes :
    (responseTo fixed82 (.fcmp 0x7F 0x80)).bind (·.cmp) = some 0b0100#4 := by decide +kernel

/-- 95_test_vectors.md 2.8 -/
theorem test_pconst_maxneg :
    (responseTo posit80 (.pconst 0b100#3)).bind (·.r) = some 0x81 := by decide +kernel

/-- 46_special_values.md R177 -/
theorem test_pconst_reserved :
    responseTo posit80 (.pconst 0b110#3) = some { fault := 0b011#3 } := by decide +kernel

/-- 46_special_values.md R178 -/
theorem test_lconst_minpos :
    (responseTo lns168 (.lconst 0b011#3)).bind (·.r) = some 0x4001 := by decide +kernel

/-- 46_special_values.md R178 -/
theorem test_lconst_maxneg :
    (responseTo lns168 (.lconst 0b100#3)).bind (·.r) = some 0xBFFF := by decide +kernel

/-- 46_special_values.md R179 -/
theorem test_fconst_maxneg :
    (responseTo fixed82 (.fconst 0b100#3)).bind (·.r) = some 0x80 := by decide +kernel

/-- 46_special_values.md R179 -/
theorem test_fconst_has_no_nar :
    responseTo fixed82 (.fconst 0b001#3) = some { fault := 0b011#3 } := by decide +kernel

/-- 95_test_vectors.md 2.1: posit<2,0>, the value −1 -/
theorem test_pdec_smallest_shape :
    responseTo posit20 (.pdec 0b11) = some { fault := 0b000#3, dq := some (.posit { special := 0b00#2, sign := true, scale := 0, sig := 1 }), scan := some { r0 := true, run := 1, term := false, ne := 0, nf := 0 } } := by decide +kernel

/-- 43_rounder.md R125: 10 in the value reading -/
theorem test_prnd_value_domain :
    (responseTo posit41 (.prnd { special := 0b00#2, sign := false, mant := 10, exp2 := 0, sticky := false })).bind (·.r) = some 0b0110 := by decide +kernel

/-- 43_rounder.md R125: 10 in the bitstring reading -/
theorem test_prnd_bitstring_domain :
    (responseTo { posit41 with pRoundDomain := .bitstring } (.prnd { special := 0b00#2, sign := false, mant := 10, exp2 := 0, sticky := false })).bind (·.r) = some 0b0111 := by decide +kernel

/-- 95_test_vectors.md 2.7: NAR_EQ_REFLEXIVE = true -/
theorem test_pcmp_nar_reflexive :
    (responseTo { posit80 with narEqReflexive := true } (.pcmp 0x80 0x80)).bind (·.cmp) = some 0b0010#4 := by decide +kernel

/-- 47_ext_arith.md R197: Clamp -/
theorem test_fdiv_by_zero_clamped :
    (responseTo { fixed82 with fxDiv0Policy := .clamp } (.fdiv 0xFC 0x00)).bind (·.r) = some 0x80 := by decide +kernel

/-- 20_memory.md R41, both byte orders. -/
theorem test_serialise :
    serialise posit80 16 0x1234 = [0x34#8, 0x12#8] ∧
    serialise { posit80 with serEndian := .big } 12 0x234 = [0x02#8, 0x34#8] := by decide

/-- 95_test_vectors.md program P4 under `Signal`: the list runs to its end, because DIV_BY_ZERO is of
class ArithmeticFault. -/
theorem test_arithmetic_fault_does_not_end_a_run :
    runProgram posit80 [fun _ => encode (.fdiv 0x12 0x00), fun _ => encode (.fcls 0x00)] =
      .completed [{ fault := 0b001#3 }, { fault := 0b000#3, cls := some 0b001#3 }] := by
  decide +kernel

/-- 95_test_vectors.md program P3 with `EXT_ARITH = false`: the host stops at the first Misuse. -/
theorem test_misuse_ends_a_run :
    runProgram noExt [fun _ => encode (.lmul 0x0080 0x0080), fun _ => encode (.lcls 0x4000)] =
      .misuse 0b100#3 [] := by
  decide +kernel

/- Witnesses: for each statement with hypotheses, a state and operands that meet them, clause by clause,
at the boundaries where clauses meet. -/

/-- `bitstring` reading of posit<4,1>. -/
def posit41Bits : Config := { posit41 with pRoundDomain := .bitstring }

/-- lns<2,0>, the smallest shape. -/
def lns20 : Config := { posit80 with lN := 2, lR := 0, lN_ge := by decide, lR_lt := by decide }

/-- `FX_DIV0_POLICY = Clamp`. -/
def clampPolicy : Config := { posit80 with fxDiv0Policy := .clamp }

/-- A posit pattern of an instance. -/
abbrev pos (c : Config) (n : Nat) : BitVec c.pN := BitVec.ofNat c.pN n

/-- An LNS pattern of an instance. -/
abbrev lns (c : Config) (n : Nat) : BitVec c.lN := BitVec.ofNat c.lN n

/-- A fixed-point pattern of an instance. -/
abbrev fix (c : Config) (n : Nat) : BitVec c.fN := BitVec.ofNat c.fN n

/-- The sticky operand of 43_rounder.md R134 used below: between 65/64 and 66/64. -/
def stickyOperand : Unrounded := { special := 0b00#2, sign := true, mant := 65, exp2 := -6, sticky := true }

theorem witness_StepRunsTheDecodedInstruction :
    decode State.reset.req = .ok (.pdec 0) ∧
    Instr.wellFormed State.reset.cfg (.padd 0xFF 0xFF) = true := by decide

theorem witness_UnlistedRequestPortsAreIgnored :
    decode { Request.idle with op := 0b11100#5, a := 7, sel := 2 } = .ok (.pconst 2) := by decide

theorem witness_EqualRequestsGetEqualResponses :
    (∃ t, step State.reset = .next t ∧ t.draws = State.reset.draws) ∧
    (∃ t, step { State.reset with draws := 5, resp := some (Response.faulted .illegalOp) } = .next t) :=
  ⟨⟨_, rfl, rfl⟩, ⟨_, rfl⟩⟩

theorem witness_EarlierTransactionsAndResetLeaveNoTrace :
    ∃ t, step (State.reset.present (.ofSel 0b11100#5 7)) = .next t ∧ t.draws = State.reset.draws ∧
      t.resp = some { fault := 0b011#3 } := ⟨_, rfl, rfl, rfl⟩

theorem witness_EveryStepGivesALegalResponse :
    State.reset.legal = true ∧ ∃ t, step State.reset = .next t := ⟨by decide, ⟨_, rfl⟩⟩

theorem witness_IllegalOpIsRaisedExactlyForIllegalCodes :
    isReservedCode ((State.resetWith posit80).present { Request.idle with op := 0b11011#5 }).req.op ∧
    isReservedCode ((State.resetWith posit80).present { Request.idle with op := 0b11111#5 }).req.op ∧
    noExt.extArith = false ∧ Instr.isExt (.ladd 0 0) = true ∧
    (encode (.ladd 0 0)).op = 0b01100#5 ∧ (encode (.fdiv 0 0)).op = 0b10111#5 ∧
    responseTo noExt (.fdiv 0 0) = some { fault := 0b100#3 } := by decide

theorem witness_DivByZeroIsRaisedExactlyByFdiv :
    Instr.wellFormed posit80 (.fdiv 0xFF 0) = true ∧ posit80.extArith = true ∧
    posit80.fxDiv0Policy = .signal ∧
    responseTo posit80 (.fdiv 0xFF 0) = some { fault := 0b001#3 } := by decide

theorem witness_PdecDecodesEveryPattern :
    (0#8).toNat = 0 ∧ (0x80#8).toNat = 2 ^ (posit80.pN - 1) ∧
    (0x01#8).toNat ≠ 0 ∧ (0x01#8).toNat ≠ 2 ^ (posit80.pN - 1) ∧
    (0xFF#8).toNat ≠ 0 ∧ (0xFF#8).toNat ≠ 2 ^ (posit80.pN - 1) := by decide

theorem witness_PositValueIsThatOfTheDecodedTuple :
    pos posit80 0x7F ≠ Posit.zero posit80 ∧ pos posit80 0x7F ≠ Posit.nar posit80 ∧
    Posit.val posit80 (pos posit80 0x7F) = some 64 ∧ Posit.val posit80 (pos posit80 0x01) = some (1 / 64) := by decide +kernel

theorem witness_PositValuesFollowTheSignedPatterns :
    pos posit80 0x81 ≠ Posit.nar posit80 ∧ pos posit80 0x7F ≠ Posit.nar posit80 :=
  by decide

theorem witness_PositCodecRoundTrip :
    2 ^ posit80.pFW ≤ 48 ∧ 48 < 2 ^ (posit80.pFW + 1) ∧
    Posit.val posit80 (pos posit80 0x50) = some (Posit.tupleMagnitude posit80 0 48) ∧
    pos posit80 0x50 ≠ Posit.nar posit80 ∧ pos posit80 0x51 ≠ pos posit80 0x50 := by
  decide +kernel

/-- posit<8,0>: 64 = maxpos, 1/64 = minpos, 66 above, 63/4096 below, 33 between 32 and 64. -/
theorem witness_PencEncodesExactlyTheRepresentable :
    31 < 2 ^ posit80.pFW ∧ 2 ^ (posit80.pFW + 1) ≤ 64 ∧
    posit80.pMaxPos < Posit.tupleMagnitude posit80 6 33 ∧
    Posit.tupleMagnitude posit80 (-7) 63 < posit80.pMinPos ∧
    posit80.pMinPos ≤ Posit.tupleMagnitude posit80 (-6) 32 ∧
    Posit.val posit80 (pos posit80 0x01) = some (Posit.tupleMagnitude posit80 (-6) 32) ∧
    Posit.tupleMagnitude posit80 6 32 ≤ posit80.pMaxPos ∧
    Posit.val posit80 (pos posit80 0x7F) = some (Posit.tupleMagnitude posit80 6 32) ∧
    (∀ n < 256, Posit.val posit80 (pos posit80 n) ≠ some (Posit.tupleMagnitude posit80 5 33)) := by
  decide +kernel

theorem witness_MalformedOperandIsRaisedExactlyByTheTable :
    responseTo posit80 (.penc { special := 0, sign := false, scale := 0, sig := 31 }) =
      some { fault := 0b011#3 } ∧
    responseTo posit80 (.lenc { special := 0, sign := false, scale := 0, logfrac := 256 }) =
      some { fault := 0b011#3 } ∧
    responseTo posit80 (.fenc { special := 0, sign := false, ipart := 0, fpart := 4 }) =
      some { fault := 0b011#3 } ∧
    responseTo posit80 (.lconst 0b110#3) = some { fault := 0b011#3 } := by decide +kernel

theorem witness_NoImageIsRaisedExactlyForNarTags :
    responseTo posit80 (.fenc { special := 0b11#2, sign := false, ipart := 0, fpart := 4 }) =
      some { fault := 0b010#3 } ∧
    responseTo clampPolicy (.frnd { special := 0b11#2, sign := false, mant := 0, exp2 := 0, sticky := true }) =
      some { fault := 0b010#3 } := by decide +kernel

theorem witness_LdecDecodesEveryPattern :
    (0x4000#16).toNat = 2 ^ (lns168.lN - 2) ∧
    (0xC000#16).toNat = 2 ^ (lns168.lN - 1) + 2 ^ (lns168.lN - 2) ∧
    (0x4001#16).toNat % 2 ^ (lns168.lN - 1) ≠ 2 ^ (lns168.lN - 2) ∧
    (0xBFFF#16).toNat % 2 ^ (lns168.lN - 1) ≠ 2 ^ (lns168.lN - 2) := by decide

/-- lns<16,8>: `L_EMAX = 63 · 256 + 255`, `L_EMIN = −64 · 256 + 1`, and one beyond each. -/
theorem witness_LencPacksTheLogarithm :
    ¬(256 : Nat) < 2 ^ lns168.lR ∧ (255 : Nat) < 2 ^ lns168.lR ∧
    (63 * 2 ^ lns168.lR + 255 : Int) = lns168.lEMax ∧ (-64 * 2 ^ lns168.lR + 1 : Int) = lns168.lEMin ∧
    lns168.lEMax < (64 * 2 ^ lns168.lR + 0 : Int) ∧ (-64 * 2 ^ lns168.lR + 0 : Int) < lns168.lEMin := by
  decide

theorem witness_LnsCodecRoundTrip :
    (1 : Nat) < 2 ^ lns168.lR ∧ lns168.lEMin ≤ (-64 : Int) * 2 ^ lns168.lR + (1 : Nat) ∧
    (63 : Int) * 2 ^ lns168.lR + (255 : Nat) ≤ lns168.lEMax := by decide

theorem witness_FencSaturates :
    ¬(4 : Nat) < 2 ^ fixed82.fR ∧ (3 : Nat) < 2 ^ fixed82.fR ∧
    (responseTo fixed82 (.fenc { special := 0, sign := true, ipart := 33, fpart := 3 })).bind (·.r) =
      some 0x80 := by decide +kernel

/-- fixed<8,2>: the two ends of the range, −32 and 31.75. -/
theorem witness_FixCodecRoundTrip :
    (3 : Nat) < 2 ^ fixed82.fR ∧ 32 * 2 ^ fixed82.fR + 0 ≠ 0 ∧
    fixed82.fIMin ≤ -1 * (((32 : Nat) : Int) * 2 ^ fixed82.fR + (0 : Nat)) ∧
    (1 : Int) * (((31 : Nat) : Int) * 2 ^ fixed82.fR + (3 : Nat)) ≤ fixed82.fIMax := by decide

theorem witness_PositRoundingIsToNearestTiesToEven :
    posit80.pRoundDomain = .value ∧ Posit.round posit80 (65 / 64) = pos posit80 0x40 ∧
    Posit.round posit80 (67 / 64) = pos posit80 0x42 := by decide +kernel

/-- posit<8,0>: at maxpos, at −maxpos, at the midpoint 1/128 and inside `(1/128, 1/64)`. -/
theorem witness_PositRoundingAtTheEndsOfTheRange :
    posit80.pMaxPos ≤ 64 ∧ (-64 : ℚ) ≤ -posit80.pMaxPos ∧ (1 / 128 : ℚ) ≤ posit80.pMinPos / 2 ∧
    posit80.pMinPos / 2 < 1 / 127 ∧ (1 / 65 : ℚ) < posit80.pMinPos ∧
    -posit80.pMinPos < (-1 / 65 : ℚ) ∧ (-1 / 127 : ℚ) < -(posit80.pMinPos / 2) := by decide +kernel

/-- posit<4,1>, 43_rounder.md R125: 10 is cut to `110` with guard bit 1 and a later 1; 1 has guard 0. -/
theorem witness_BitstringRoundingCutsTheString :
    posit41Bits.pRoundDomain = .bitstring ∧ Posit.cutRoundsUp posit41Bits 10 ∧
    Posit.leadingBits posit41Bits 10 (posit41Bits.pN - 1) = 0b110 ∧
    ¬Posit.cutRoundsUp posit41Bits 1 := by
  refine ⟨rfl, ⟨by decide +kernel, .inl ⟨5, by decide, by decide +kernel⟩⟩, by decide +kernel, ?_⟩
  intro h
  exact absurd h.1 (by decide +kernel)

theorem witness_BitstringRoundingAgreesInTheFraction :
    posit41Bits.pRoundDomain = .bitstring ∧
    (posit41 : Config) = { posit41Bits with pRoundDomain := .value } ∧
    (Posit.regimeString (floorLog2 |(3 / 2 : ℚ)| / 2 ^ posit41Bits.pES)).2 + posit41Bits.pES ≤
      posit41Bits.pN - 1 ∧
    Posit.round posit41Bits (1 / 64) = Posit.zero posit41Bits ∧
    Posit.round posit41Bits (1 / 63) ≠ Posit.zero posit41Bits := by decide +kernel

theorem witness_RepresentablePositsRoundToThemselves :
    Posit.val posit41Bits (pos posit41Bits 0b0110) = some 4 ∧ Posit.val posit80 (pos posit80 0xFF) = some (-1 / 64) := by
  decide +kernel

theorem witness_PositRoundingIsMonotoneAndOdd :
    posit80.pRoundDomain = .value ∧ (-1 / 128 : ℚ) ≤ 65 / 64 := by decide +kernel

theorem witness_LnsAndFixedRoundingLaws :
    lns168.lEMin ≤ lns168.lEMin ∧ lns168.lEMin ≤ lns168.lEMax ∧ (-65 : ℚ) ≤ 64 ∧
    fixed82.fIMin < rne (-127 / 4 * 2 ^ fixed82.fR) ∧
    rne (127 / 4 * 2 ^ fixed82.fR) ≤ fixed82.fIMax := by decide +kernel

/-- lns<16,8>: at `Lmin − 1`, just above it, and at `Lmin`. -/
theorem witness_LrndRoundsTheLogarithm :
    (-16639 : ℚ) / 256 ≤ lns168.lEMin / 2 ^ lns168.lR - 1 ∧
    (lns168.lEMin : ℚ) / 2 ^ lns168.lR - 1 < -16638 / 256 ∧
    (-16384 : ℚ) / 256 < lns168.lEMin / 2 ^ lns168.lR ∧
    (lns168.lEMin : ℚ) / 2 ^ lns168.lR ≤ -16383 / 256 := by decide +kernel

/-- A sticky operand whose interval holds 131/128, and a fine one, whose interval rounds to one
value (next witness). -/
theorem witness_StickyPrndAnswersAValueTaken :
    stickyOperand.special = 0b00#2 ∧ stickyOperand.sticky = true ∧
    (magnitudeOf stickyOperand).holds (131 / 128) := by
  refine ⟨rfl, rfl, ?_⟩
  constructor <;> decide +kernel

theorem witness_StickyLrndAndFrndAnswerAValueTaken :
    (logarithmOf { special := 0b00#2, sign := false, lmant := -1, lexp2 := -9, sticky := true }).holds
      (-1 / 1024) ∧
    (magnitudeOf { special := 0b00#2, sign := false, mant := 0, exp2 := -3, sticky := true }).holds
      (1 / 16) := by
  constructor <;> constructor <;> decide +kernel

/-- The intervals that meet the conditions exactly: `exp2 = P_MINSCALE − 1`, `lexp2 = −R − 1`,
`exp2 = −R − 1`; two points of each. -/
theorem witness_FineStickyOperandsAreDetermined :
    (-7 : Int) ≤ posit80.pMinScale - 1 ∧
    (magnitudeOf { special := 0b00#2, sign := false, mant := 0, exp2 := -7, sticky := true }).holds
      (1 / 256) ∧
    (magnitudeOf { special := 0b00#2, sign := false, mant := 0, exp2 := -7, sticky := true }).holds
      (1 / 512) ∧
    (-9 : Int) ≤ -(lns168.lR : Int) - 1 ∧
    (logarithmOf { special := 0b00#2, sign := false, lmant := -1, lexp2 := -9, sticky := true }).holds
      (-1 / 1024) ∧
    (-3 : Int) ≤ -(fixed82.fR : Int) - 1 ∧
    (magnitudeOf { special := 0b00#2, sign := false, mant := 0, exp2 := -3, sticky := true }).holds
      (1 / 16) := by
  refine ⟨by decide, ⟨?_, ?_⟩, ⟨?_, ?_⟩, by decide, ⟨?_, ?_⟩, by decide, ⟨?_, ?_⟩⟩ <;> decide +kernel

/-- posit<8,0>: between the midpoints 65/64 and 67/64 there is none, and `(1, 67/64)` holds 65/64. -/
theorem witness_RoundingIsConstantBetweenBreakpoints :
    posit80.pRoundDomain = .value ∧ (0 : ℚ) ≤ 65 / 64 ∧ (65 / 64 : ℚ) < 67 / 64 ∧
    (Posit.mag posit80 0x40 + Posit.mag posit80 0x41) / 2 = 65 / 64 ∧
    (Posit.mag posit80 0x41 + Posit.mag posit80 0x42) / 2 = 67 / 64 ∧
    0x41 < Posit.maxCode posit80 ∧ lns168.lEMin < lns168.lEMax ∧ fixed82.fIMin < fixed82.fIMax := by
  decide +kernel

theorem witness_PositArithmeticRoundsTheExactResult :
    pos posit80 0x80 = Posit.nar posit80 ∧
    pos posit80 0x40 ≠ Posit.nar posit80 ∧ pos posit80 0x00 ≠ Posit.nar posit80 :=
  by decide

theorem witness_PositZeroOperandsAndNegation :
    pos posit80 0x81 ≠ Posit.nar posit80 ∧ pos posit80 0x81 ≠ Posit.zero posit80 ∧
    Posit.val posit80 (pos posit80 0x81) = some (-64) := by decide +kernel

theorem witness_PositArithmeticLaws :
    pos posit80 0x7F ≠ Posit.nar posit80 := by decide

theorem witness_PcmpOrdersTheValues :
    Posit.val posit80 (pos posit80 0x81) = some (-64) ∧ Posit.val posit80 (pos posit80 0x7F) = some 64 ∧
    pos posit80 0x80 = Posit.nar posit80 := by decide +kernel

/-- lns<16,8>: −1, the zero token, and NaR. -/
theorem witness_LcmpOrdersTheRealValues :
    (Lns.val lns168 (lns lns168 0x8000)).denotes (-1) ∧ (Lns.val lns168 (lns lns168 0x4000)).denotes 0 ∧
    lns lns168 0xC000 = Lns.nar lns168 := by
  have h1 : Lns.val lns168 (lns lns168 0x8000) = .number true 0 := by decide +kernel
  have h2 : Lns.val lns168 (lns lns168 0x4000) = .zero := by decide +kernel
  rw [h1, h2]
  refine ⟨?_, rfl, by decide +kernel⟩
  simp [LnsValue.denotes]

theorem witness_ComparatorLaws :
    pos posit80 0x81 ≠ Posit.nar posit80 ∧ pos posit80 0x7F ≠ Posit.nar posit80 ∧
    Posit.compare posit80 (pos posit80 0x81) (pos posit80 0x00) = .lt ∧ Posit.compare posit80 (pos posit80 0x00) (pos posit80 0x7F) = .lt ∧
    posit80.narEqReflexive = false ∧
    lns lns168 0x4000 ≠ Lns.nar lns168 ∧ Lns.compare lns168 (lns lns168 0xC001) (lns lns168 0x4000) = .lt ∧
    Lns.compare lns168 (lns lns168 0x4000) (lns lns168 0x4001) = .lt ∧
    Fix.compare fixed82 (fix fixed82 0x80) (fix fixed82 0x00) = .lt ∧ Fix.compare fixed82 (fix fixed82 0x00) (fix fixed82 0x7F) = .lt := by
  decide +kernel

theorem witness_ClassifiersAgreeWithDecodersAndComparator :
    posit80.narEqReflexive = false ∧ Posit.compare posit80 (pos posit80 0x80) (pos posit80 0x80) = .un := by decide

theorem witness_LconstAndFconstAnswerTheTables : 3 ≤ lns168.lN ∧ lns20.lN = 2 := by decide

/-- lns<16,8>: NaR, zero, and pairs whose logarithm codes add to `L_EMIN − 2^R`, to one more, and to
`L_EMAX + 1`. -/
theorem witness_LmulAndLdivCombineTheLogarithms :
    lns168.extArith = true ∧
    lns lns168 0xC000 = Lns.nar lns168 ∧ lns lns168 0x4000 = Lns.zero lns168 ∧
    lns lns168 0x4001 ≠ Lns.nar lns168 ∧ lns lns168 0x4001 ≠ Lns.zero lns168 ∧
    Lns.code lns168 (lns lns168 0x4001) + Lns.code lns168 (lns lns168 0x7F00) = lns168.lEMin - 2 ^ lns168.lR ∧
    Lns.code lns168 (lns lns168 0x4001) + Lns.code lns168 (lns lns168 0x7F01) = lns168.lEMin - 2 ^ lns168.lR + 1 ∧
    Lns.code lns168 (lns lns168 0x3FFF) + Lns.code lns168 (lns lns168 0x0001) = lns168.lEMax + 1 := by decide

theorem witness_LaddFixedCasesAndLsub :
    lns168.extArith = true ∧
    lns lns168 0xC000 = Lns.nar lns168 ∧ lns lns168 0x4000 = Lns.zero lns168 ∧
    lns lns168 0x0100 ≠ Lns.nar lns168 ∧ lns lns168 0x0100 ≠ Lns.zero lns168 ∧
    lns lns168 0x8100 = lns lns168 0x0100 ^^^ BitVec.ofNat lns168.lN (2 ^ (lns168.lN - 1)) := by
  decide

/-- lns<16,8>: 2 and −1. -/
theorem witness_OpenLnsSumsMeetTheConstraints :
    lns168.extArith = true ∧ (Lns.val lns168 (lns lns168 0x0100)).denotes 2 ∧
    (Lns.val lns168 (lns lns168 0x8000)).denotes (-1) ∧ (2 : ℝ) ≠ 0 ∧ (-1 : ℝ) ≠ 0 ∧ (2 : ℝ) + -1 ≠ 0 := by
  have h1 : Lns.val lns168 (lns lns168 0x0100) = .number false 1 := by decide +kernel
  have h2 : Lns.val lns168 (lns lns168 0x8000) = .number true 0 := by decide +kernel
  rw [h1, h2]
  refine ⟨rfl, ?_, ?_, by norm_num, by norm_num, by norm_num⟩ <;> simp [LnsValue.denotes]

theorem witness_FixedArithmeticRoundsAndSaturates :
    fixed82.extArith = true ∧ (0x01#8).toNat ≠ 0 ∧ (0x00#8).toNat = 0 ∧
    fixed82.fxDiv0Policy = .signal ∧ clampPolicy.extArith = true ∧ clampPolicy.fxDiv0Policy = .clamp := by
  decide

theorem witness_ExtensionArithmeticLaws :
    (fix fixed82 0x80).toInt ≤ (fix fixed82 0x7F).toInt ∧
    0 ≤ Fix.val fixed82 (fix fixed82 0x00) ∧ Fix.val fixed82 (fix fixed82 0xFF) < 0 ∧
    lns lns168 0x8000 ≠ Lns.nar lns168 ∧ fix fixed82 0x81 ≠ Fix.maxNeg fixed82 := by
  decide +kernel

theorem witness_ConversionsRoundTheValue :
    Posit.val posit80 (pos posit80 0x50) = some (3 / 2) ∧ Posit.val posit80 (pos posit80 0x80) = none := by decide +kernel

theorem witness_SerialisationFollowsSerEndian :
    0x1FF < 2 ^ 9 ∧ posit80.serEndian = .little ∧
    ({ posit80 with serEndian := .big } : Config).serEndian = .big := by decide

/-- posit<8,0>: every point of `(64, 65)` is clamped to maxpos, so this sticky operand is rounded to one
value. -/
theorem witness_StickyPrnd_constant :
    ∀ x y, (magnitudeOf { special := 0, sign := false, mant := 64, exp2 := 0, sticky := true }).holds x →
      (magnitudeOf { special := 0, sign := false, mant := 64, exp2 := 0, sticky := true }).holds y →
      Posit.round posit80 (1 * x) = Posit.round posit80 (1 * y) := by
  have key : ∀ x : ℚ, 64 < x → Posit.round posit80 (1 * x) = Posit.maxPos posit80 := by
    intro x hx
    have h1 : Posit.mag posit80 (Posit.maxCode posit80) = 64 := by decide +kernel
    have h2 : Posit.ofCode posit80 false (Posit.maxCode posit80) = Posit.maxPos posit80 := by decide
    rw [one_mul, Posit.round, if_neg (by linarith : x ≠ 0), abs_of_pos (by linarith),
      decide_eq_false (by linarith), Posit.roundCode]
    simp only [show posit80.pRoundDomain = .value from rfl, Posit.nearestCode, h1, if_pos hx.le, h2]
  intro x y hx hy
  have e : (magnitudeOf { special := 0, sign := false, mant := 64, exp2 := 0, sticky := true }).low = 64 := by
    decide +kernel
  rw [key x (e ▸ hx.1), key y (e ▸ hy.1)]

/-- lns<16,8>: every point of `(−70, −69)` lies below `Lmin − 1`; fixed<8,2>: every point of
`(0, 1/16)` rounds to zero. -/
theorem witness_StickyLrndAndFrnd_constant :
    (∀ x y, (logarithmOf { special := 0, sign := true, lmant := -70, lexp2 := 0, sticky := true }).holds x →
      (logarithmOf { special := 0, sign := true, lmant := -70, lexp2 := 0, sticky := true }).holds y →
      Lns.round lns168 true x = Lns.round lns168 true y) ∧
    (∀ x y, (magnitudeOf { special := 0, sign := false, mant := 0, exp2 := -4, sticky := true }).holds x →
      (magnitudeOf { special := 0, sign := false, mant := 0, exp2 := -4, sticky := true }).holds y →
      Fix.round fixed82 (1 * x) = Fix.round fixed82 (1 * y)) := by
  constructor
  · have key : ∀ L : ℚ, L < -69 → Lns.round lns168 true L = Lns.zero lns168 := by
      intro L hL
      have h1 : (lns168.lEMin : ℚ) / 2 ^ lns168.lR = -16383 / 256 := by decide +kernel
      unfold Lns.round Lns.roundTie
      simp only [h1]
      rw [if_pos (by linarith), if_pos (.inl (by linarith))]
    have e : (logarithmOf { special := 0, sign := true, lmant := -70, lexp2 := 0, sticky := true }).high = -69 := by
      decide +kernel
    intro x y hx hy
    rw [key x (e ▸ hx.2), key y (e ▸ hy.2)]
  · have key : ∀ x : ℚ, 0 < x → x < 1 / 16 → Fix.round fixed82 (1 * x) = Fix.zero fixed82 := by
      intro x h0 h1
      have hf : (1 * x * 2 ^ fixed82.fR).floor = 0 := by
        have h2 : (2 : ℚ) ^ fixed82.fR = 4 := by decide +kernel
        change ⌊(1 * x * 2 ^ fixed82.fR)⌋ = 0
        rw [h2, Int.floor_eq_zero_iff]
        exact ⟨by linarith, by linarith⟩
      have hr : roundInt .even (1 * x * 2 ^ fixed82.fR) = 0 := by
        have h2 : (2 : ℚ) ^ fixed82.fR = 4 := by decide +kernel
        unfold roundInt
        simp only [hf]
        rw [if_neg (by rw [h2]; push_cast; linarith), if_pos (by rw [h2]; push_cast; linarith)]
      rw [Fix.round, Fix.roundTie, hr]
      decide
    have el : (magnitudeOf { special := 0, sign := false, mant := 0, exp2 := -4, sticky := true }).low = 0 := by
      decide +kernel
    have eh : (magnitudeOf { special := 0, sign := false, mant := 0, exp2 := -4, sticky := true }).high = 1 / 16 := by
      decide +kernel
    intro x y hx hy
    rw [key x (el ▸ hx.1) (eh ▸ hx.2), key y (el ▸ hy.1) (eh ▸ hy.2)]

end Sys2Proof.Tests
end

section
/-! Rounding to the nearest integer, ties to even (spec 00_scope.md R12). -/

namespace Sys2Proof.Proofs

open Sys2Proof.Machine

/-- R12's condition on an answer `n` of `rne t`. -/
def IsNearestTiesToEven (t : ℚ) (n : Int) : Prop :=
  |t - n| < 1 / 2 ∨ (|t - n| = 1 / 2 ∧ n % 2 = 0)

theorem IsNearestTiesToEven.abs_sub_le {t : ℚ} {n : Int} (h : IsNearestTiesToEven t n) :
    |t - n| ≤ 1 / 2 := by
  rcases h with hlt | ⟨heq, -⟩
  · exact hlt.le
  · exact heq.le

theorem IsNearestTiesToEven.even_of_tie {t : ℚ} {n : Int} (h : IsNearestTiesToEven t n)
    (htie : |t - n| = 1 / 2) : n % 2 = 0 := by
  rcases h with hlt | ⟨-, heven⟩
  · exact absurd htie hlt.ne
  · exact heven

/-- However ties are settled, the answer is no further than `1/2` from the value. -/
theorem abs_sub_roundInt_le (tie : Tie) (t : ℚ) : |t - roundInt tie t| ≤ 1 / 2 := by
  obtain ⟨hlow, hhigh⟩ := floor_bracket t
  rw [abs_le]
  rcases roundInt_cases tie t with ⟨hr, hd⟩ | ⟨hr, hd⟩ <;> rw [hr]
  · constructor <;> linarith
  · push_cast
    constructor <;> linarith

/-- Exactly halfway between the floor and the integer above it, the tie rule decides. -/
theorem roundInt_of_half (tie : Tie) {t : ℚ} (h : t - t.floor = 1 / 2) :
    roundInt tie t = if tie.goesUp t.floor then t.floor + 1 else t.floor := by
  simp [roundInt, h]

theorem sub_floor_eq_half_of_tie {tie : Tie} {t : ℚ} (h : |t - roundInt tie t| = 1 / 2) :
    t - t.floor = 1 / 2 := by
  obtain ⟨hlow, hhigh⟩ := floor_bracket t
  rcases roundInt_cases tie t with ⟨hr, -⟩ | ⟨hr, -⟩ <;> rw [hr] at h
  · rwa [abs_of_nonneg (by linarith)] at h
  · push_cast at h
    rw [abs_of_nonpos (by linarith)] at h
    linarith

theorem rne_even_of_tie {t : ℚ} (h : |t - rne t| = 1 / 2) : rne t % 2 = 0 := by
  have hhalf : t - t.floor = 1 / 2 := sub_floor_eq_half_of_tie h
  rw [rne, roundInt_of_half .even hhalf]
  simp only [Tie.goesUp, bne_iff_ne]
  split <;> omega

theorem rne_isNearestTiesToEven (t : ℚ) : IsNearestTiesToEven t (rne t) := by
  rcases (abs_sub_roundInt_le .even t).lt_or_eq with hlt | htie
  · exact .inl hlt
  · exact .inr ⟨htie, rne_even_of_tie htie⟩

/-- Two integers as near as `1/2` to one value are neighbours with the value halfway between them. -/
theorem half_between_of_lt {t : ℚ} {m n : Int} (hm : |t - m| ≤ 1 / 2) (hn : |t - n| ≤ 1 / 2)
    (hlt : m < n) : n = m + 1 ∧ |t - m| = 1 / 2 ∧ |t - n| = 1 / 2 := by
  obtain ⟨-, hm⟩ := abs_le.mp hm
  obtain ⟨hn, -⟩ := abs_le.mp hn
  have hstep : n = m + 1 := by
    have hgap : (n : ℚ) ≤ m + 1 := by linarith
    have hgap' : n ≤ m + 1 := by exact_mod_cast hgap
    omega
  subst hstep
  push_cast at hn ⊢
  have htm : t - m = 1 / 2 := by linarith
  have htn : t - (m + 1) = -(1 / 2) := by linarith
  rw [htm, htn]
  norm_num

/-- Two answers cannot be neighbours, for both would be even. -/
theorem IsNearestTiesToEven.le {t : ℚ} {m n : Int} (hm : IsNearestTiesToEven t m)
    (hn : IsNearestTiesToEven t n) : n ≤ m := by
  by_contra! hlt
  obtain ⟨hstep, htm, htn⟩ := half_between_of_lt hm.abs_sub_le hn.abs_sub_le hlt
  have hm_even := hm.even_of_tie htm
  have hn_even := hn.even_of_tie htn
  omega

theorem IsNearestTiesToEven.unique {t : ℚ} {m n : Int} (hm : IsNearestTiesToEven t m)
    (hn : IsNearestTiesToEven t n) : m = n :=
  le_antisymm (hn.le hm) (hm.le hn)

/-- Settles O25: `rne t` meets R12's condition, and only one integer does. -/
theorem rneIsTheNearestIntegerTiesToEven :
    Obligations.RneIsTheNearestIntegerTiesToEven := by
  intro t n
  constructor
  · rintro rfl
    exact rne_isNearestTiesToEven t
  · exact (rne_isNearestTiesToEven t).unique

end Sys2Proof.Proofs
end

section
/-! Requests and instructions: the decoder inverts the encoder, and the operation code of a decoded
request is that of its instruction (spec 30_encoding.md R51, R52). -/

namespace Sys2Proof.Proofs

open Sys2Proof.Machine

@[simp] theorem decode_encode (i : Instr) : decode (encode i) = .ok i := by
  cases i <;> rfl

/-- Each row of the decoder's table reads the code that the encoder drives for its instruction. -/
theorem op_encode_of_decode {q : Request} {i : Instr} (h : decode q = .ok i) :
    (encode i).op = q.op := by
  unfold decode at h
  split at h <;> cases h <;> exact BitVec.eq_of_toNat_eq (Eq.symm ‹_›)

theorem step_of_decode {s : State} {i : Instr} (h : decode s.req = .ok i) : step s = exec i s := by
  simp [step, h]

/-- What does not decode is a reserved code (R55), and it is answered `ILLEGAL_OP` (R208). -/
theorem step_of_decode_error {s : State} {e : DecodeError} (h : decode s.req = .error e) :
    step s = deliver s (.error .illegalOp) := by
  simp [step, h]

theorem isReservedCode_of_decode_error {q : Request} {e : DecodeError} (h : decode q = .error e) :
    isReservedCode q.op = true := by
  have hbound := q.op.isLt
  have hcode : q.op = 0b11011#5 ∨ q.op = 0b11111#5 := by
    unfold decode at h
    split at h
    case h_31 => simp only [imp_false] at *; bv_omega
    all_goals cases h
  rcases hcode with hop | hop <;> rw [hop] <;> rfl

end Sys2Proof.Proofs
end

section
/-! What an instruction reads and what it changes: the configuration, the draw counter where it draws,
and the response ports (spec 10_state.md R20, R26, R43). -/

namespace Sys2Proof.Proofs

open Sys2Proof.Machine

/-- The response that a delivery drives (R214). -/
def responseOf : Except FaultCode Response → Response
  | .ok p => p
  | .error f => .faulted f

theorem deliver_eq_answer (s : State) (e : Except FaultCode Response) :
    deliver s e = .next (s.answer (responseOf e)) := by
  cases e <;> rfl

/-- Does the instruction make a draw in an instance of configuration `c` (R134, W1)?  Only the rounder
can. -/
def makesDraw (c : Config) : Instr → Bool
  | .prnd u => Posit.draws c u
  | .lrnd u => Lns.draws c u
  | .frnd u => Fix.draws c u
  | _ => false

theorem sticky_of_isDraw {α : Type} [DecidableEq α] {f : Tie → ℚ → α} {i : Denoted}
    (h : isDraw f i = true) : i.sticky = true := by
  cases hs : i.sticky with
  | true => rfl
  | false => simp [isDraw_eq_false f hs] at h

@[simp] theorem Denoted.withSign_sticky (i : Denoted) (sign : Bool) :
    (i.withSign sign).sticky = i.sticky := by
  unfold Denoted.withSign
  split
  · split <;> simp_all
  · rfl

/-- Only a rounder operand with its sticky flag set is drawn. -/
theorem sticky_of_makesDraw {c : Config} {i : Instr} (h : makesDraw c i = true) :
    (∃ u, (i = .prnd u ∨ i = .frnd u) ∧ u.sticky = true) ∨ (∃ u, i = .lrnd u ∧ u.sticky = true) := by
  cases i with
  | prnd u => exact .inl ⟨u, .inl rfl, sticky_of_isDraw (Bool.and_eq_true_iff.mp h).2⟩
  | lrnd u => exact .inr ⟨u, rfl, sticky_of_isDraw (Bool.and_eq_true_iff.mp h).2⟩
  | frnd u =>
    refine .inl ⟨u, .inr rfl, ?_⟩
    simpa [magnitudeOf] using sticky_of_isDraw (Bool.and_eq_true_iff.mp h).2
  | _ => cases h

/-- A rounding that is no draw does not depend on the point that is picked. -/
theorem roundDenoted_pick_irrel {α : Type} [DecidableEq α] {f : Tie → ℚ → α} {i : Denoted}
    (h : isDraw f i = false) (pick pick' : Nat × Nat) :
    roundDenoted f i pick = roundDenoted f i pick' := by
  cases hs : i.sticky with
  | false => rw [roundDenoted_exact f hs, roundDenoted_exact f hs]
  | true =>
    have hconst : f .up i.low = f .down i.high := by simpa [isDraw, hs] using h
    rw [roundDenoted_determined f hs hconst, roundDenoted_determined f hs hconst]

theorem Posit.roundOperand_pick_irrel {c : Config} {u : Unrounded} (h : Posit.draws c u = false)
    (pick pick' : Nat × Nat) : Posit.roundOperand c u pick = Posit.roundOperand c u pick' := by
  unfold Posit.draws at h
  unfold Posit.roundOperand
  cases htag : Special.ofBits u.special with
  | none => simp only [roundDenoted_pick_irrel (by simpa [htag] using h) pick pick']
  | _ => rfl

theorem Lns.roundOperand_pick_irrel {c : Config} {u : UnroundedLog} (h : Lns.draws c u = false)
    (pick pick' : Nat × Nat) : Lns.roundOperand c u pick = Lns.roundOperand c u pick' := by
  unfold Lns.draws at h
  unfold Lns.roundOperand
  cases htag : Special.ofBits u.special with
  | none => simp only [roundDenoted_pick_irrel (by simpa [htag] using h) pick pick']
  | _ => rfl

theorem Fix.roundOperand_pick_irrel {c : Config} {u : Unrounded} (h : Fix.draws c u = false)
    (pick pick' : Nat × Nat) : Fix.roundOperand c u pick = Fix.roundOperand c u pick' := by
  unfold Fix.draws at h
  unfold Fix.roundOperand
  cases htag : Special.ofBits u.special with
  | none => simp only [roundDenoted_pick_irrel (by simpa [htag] using h) pick pick']
  | _ => rfl

/-- `exec` answers in every state; it reads the configuration and the draw counter, and no other field of
the state, and it changes the response ports and the draw counter, and no other field. -/
theorem exec_reads_cfg_draws (i : Instr) {s s' : State} (hcfg : s.cfg = s'.cfg)
    (hdraws : s.draws = s'.draws) :
    ∃ p, exec i s = .next ((s.countDraw (makesDraw s.cfg i)).answer p) ∧
      exec i s' = .next ((s'.countDraw (makesDraw s.cfg i)).answer p) := by
  obtain ⟨c, q, r, n⟩ := s
  obtain ⟨c', q', r', n'⟩ := s'
  cases hcfg
  cases hdraws
  cases i with
  | penc | lenc | fenc | frnd | ladd | lsub | lmul | ldiv | fadd | fsub | fmul | fdiv
  | pconst | lconst | fconst => exact ⟨_, deliver_eq_answer _ _, deliver_eq_answer _ _⟩
  | _ => exact ⟨_, rfl, rfl⟩

theorem exec_answers (i : Instr) (s : State) :
    ∃ p, exec i s = .next ((s.countDraw (makesDraw s.cfg i)).answer p) := by
  obtain ⟨p, hp, -⟩ := exec_reads_cfg_draws i (rfl : s.cfg = s.cfg) rfl
  exact ⟨p, hp⟩

/-- Where no draw is made, `exec` reads the configuration alone. -/
theorem exec_reads_cfg {i : Instr} {s s' : State} (hcfg : s.cfg = s'.cfg)
    (hdraw : makesDraw s.cfg i = false) :
    ∃ p, exec i s = .next (s.answer p) ∧ exec i s' = .next (s'.answer p) := by
  obtain ⟨c, q, r, n⟩ := s
  obtain ⟨c', q', r', n'⟩ := s'
  cases hcfg
  cases i with
  | prnd u =>
    have hd : Posit.draws c u = false := hdraw
    simp only [exec, execPrnd, hd, State.countDraw_false, deliver_ok]
    exact ⟨_, rfl, by rw [Posit.roundOperand_pick_irrel hd]⟩
  | lrnd u =>
    have hd : Lns.draws c u = false := hdraw
    simp only [exec, execLrnd, hd, State.countDraw_false, deliver_ok]
    exact ⟨_, rfl, by rw [Lns.roundOperand_pick_irrel hd]⟩
  | frnd u =>
    have hd : Fix.draws c u = false := hdraw
    simp only [exec, execFrnd, hd, State.countDraw_false, deliver_eq_answer]
    exact ⟨_, rfl, by rw [Fix.roundOperand_pick_irrel hd]⟩
  | penc | lenc | fenc | ladd | lsub | lmul | ldiv | fadd | fsub | fmul | fdiv
  | pconst | lconst | fconst => exact ⟨_, deliver_eq_answer _ _, deliver_eq_answer _ _⟩
  | _ => exact ⟨_, rfl, rfl⟩

theorem State.countDraw_draws (s : State) (d : Bool) :
    (s.countDraw d).draws = s.draws + d.toNat := by
  cases d <;> rfl

/-- Settles O4: both requests decode to the same instruction, which reads no request port. -/
theorem unlistedRequestPortsAreIgnored : Obligations.UnlistedRequestPortsAreIgnored := by
  intro s q i hq
  obtain ⟨p, hexec, hexec'⟩ := exec_reads_cfg_draws i
    (s := s.present q) (s' := s.present (encode i)) rfl rfl
  exact ⟨op_encode_of_decode hq, _, _, (step_of_decode hq).trans hexec,
    (step_of_decode (decode_encode i)).trans hexec', rfl, rfl, rfl⟩

/-- Settles O5: `exec` counts a draw, if it makes one, and answers. -/
theorem execAnswersAndChangesNothingElse : Obligations.ExecAnswersAndChangesNothingElse := by
  intro i s
  obtain ⟨p, hexec⟩ := exec_answers i s
  refine ⟨_, p, hexec, rfl, rfl, rfl, ?_⟩
  rw [State.answer_draws, State.countDraw_draws]
  cases hdraw : makesDraw s.cfg i with
  | false => exact .inl rfl
  | true => exact .inr ⟨rfl, sticky_of_makesDraw hdraw⟩

/-- Settles O6: an unchanged counter means that no draw was made, and then only the configuration was
read. -/
theorem equalRequestsGetEqualResponses : Obligations.EqualRequestsGetEqualResponses := by
  intro s s' t t' hcfg hreq hstep hstep' hdraws
  cases hdec : decode s.req with
  | error e =>
    rw [step_of_decode_error hdec] at hstep
    rw [step_of_decode_error (hreq ▸ hdec)] at hstep'
    cases hstep
    cases hstep'
    exact ⟨rfl, rfl⟩
  | ok i =>
    rw [step_of_decode hdec] at hstep
    rw [step_of_decode (hreq ▸ hdec)] at hstep'
    have hnone : makesDraw s.cfg i = false := by
      obtain ⟨p, hexec⟩ := exec_answers i s
      cases hexec.symm.trans hstep
      simpa [State.countDraw_draws] using hdraws
    obtain ⟨p, hexec, hexec'⟩ := exec_reads_cfg hcfg hnone
    cases hexec.symm.trans hstep
    cases hexec'.symm.trans hstep'
    exact ⟨rfl, rfl⟩

/-- With no response on the ports there is none that could be illegal. -/
theorem State.legal_of_resp_none {s : State} (h : s.resp = none) : s.legal = true := by
  simp [State.legal, h]

/-- Settles O9. -/
theorem resetStateIsLegal : Obligations.ResetStateIsLegal :=
  ⟨State.legal_of_resp_none rfl, fun c => State.legal_of_resp_none (State.resetWith_resp c)⟩

end Sys2Proof.Proofs
end

section
/-! The ranges of what PDEC answers (spec 40_posit_codec.md R72 to R77, 10_state.md R25). -/

namespace Sys2Proof.Proofs

open Sys2Proof.Machine

/-- The run of R72 is a run: every bit it covers equals the first. -/
theorem Posit.getLsbD_of_runLength {n : Nat} (q : BitVec n) (r0 : Bool) :
    ∀ bits j, j < bits → bits ≤ j + Posit.runLength q r0 bits → q.getLsbD j = r0 := by
  intro bits
  induction bits with
  | zero => intro j hj; omega
  | succ bits ih =>
    intro j hj hcover
    rw [Posit.runLength] at hcover
    split at hcover
    case isTrue hbit =>
      rcases Nat.lt_succ_iff_lt_or_eq.mp hj with hlt | rfl
      · exact ih j hlt (by omega)
      · exact beq_iff_eq.mp hbit
    case isFalse => omega

theorem Posit.runLength_le {n : Nat} (q : BitVec n) (r0 : Bool) (bits : Nat) :
    Posit.runLength q r0 bits ≤ bits := by
  induction bits with
  | zero => exact le_refl _
  | succ bits ih => rw [Posit.runLength]; split <;> omega

theorem Posit.regimeRun_le (c : Config) (q : BitVec c.pN) : Posit.regimeRun c q ≤ c.pN - 1 :=
  Posit.runLength_le _ _ _

/-- The run covers the first regime bit itself. -/
theorem Posit.one_le_regimeRun (c : Config) (q : BitVec c.pN) : 1 ≤ Posit.regimeRun c q := by
  obtain ⟨m, hm⟩ : ∃ m, c.pN = m + 2 := ⟨c.pN - 2, by have := c.pN_ge; omega⟩
  simp [Posit.regimeRun, Posit.regimeBit, hm, Posit.runLength]

/-- The magnitude pattern of a number is positive and has sign bit 0 (R73). -/
theorem Posit.magPattern_bounds (c : Config) {p : BitVec c.pN} (hzero : p ≠ Posit.zero c)
    (hnar : p ≠ Posit.nar c) :
    0 < (Posit.magPattern c p).toNat ∧ (Posit.magPattern c p).toNat < 2 ^ (c.pN - 1) := by
  have hpow := two_pow_pred (show 1 ≤ c.pN by have := c.pN_ge; omega)
  have hp := p.isLt
  have h0 : p.toNat ≠ 0 := fun h => hzero (BitVec.eq_of_toNat_eq (by simp [h]))
  have h1 : p.toNat ≠ 2 ^ (c.pN - 1) := fun h => hnar (BitVec.eq_of_toNat_eq (by simp [h]))
  unfold Posit.magPattern
  rw [BitVec.msb_eq_decide]
  split
  case isTrue hneg =>
    have hge := of_decide_eq_true hneg
    rw [BitVec.toNat_neg, Nat.mod_eq_of_lt (by omega)]
    omega
  case isFalse hpos =>
    have hlt := mt decide_eq_true hpos
    omega

/-- A run of zeros that fills the pattern would leave the zero pattern. -/
theorem Posit.regimeRun_lt_of_regimeBit_false {c : Config} {q : BitVec c.pN} (hpos : 0 < q.toNat)
    (hlt : q.toNat < 2 ^ (c.pN - 1)) (hbit : Posit.regimeBit c q = false) :
    Posit.regimeRun c q < c.pN - 1 := by
  refine lt_of_le_of_ne (Posit.regimeRun_le c q) fun hfull => hpos.ne' ?_
  refine Nat.zero_of_testBit_eq_false fun j => ?_
  by_cases hj : j < c.pN - 1
  · have hrun := Posit.getLsbD_of_runLength q (Posit.regimeBit c q) (c.pN - 1) j hj
      (by unfold Posit.regimeRun at hfull; omega)
    rwa [hbit] at hrun
  · exact Nat.testBit_lt_two_pow (hlt.trans_le (Nat.pow_le_pow_right (by omega) (by omega)))

theorem Posit.lowBits_lt (c : Config) (q : BitVec c.pN) :
    Posit.lowBits c q < 2 ^ Posit.remBits c (Posit.regimeRun c q) :=
  Nat.mod_lt _ (by positivity)

/-- The exponent fits its field, whether its bits are all present or cut off (R75). -/
theorem Posit.exponent_lt (c : Config) (q : BitVec c.pN) : Posit.exponent c q < 2 ^ c.pES := by
  have hlow := Posit.lowBits_lt c q
  unfold Posit.exponent
  dsimp only
  generalize Posit.regimeRun c q = run at *
  have hne : Posit.expBits c run ≤ c.pES := min_le_left _ _
  have hrem : Posit.remBits c run = Posit.fracBits c run + Posit.expBits c run :=
    (Nat.sub_add_cancel (min_le_right _ _)).symm
  rw [hrem, pow_add] at hlow
  calc Posit.lowBits c q / 2 ^ Posit.fracBits c run * 2 ^ (c.pES - Posit.expBits c run)
      < 2 ^ Posit.expBits c run * 2 ^ (c.pES - Posit.expBits c run) :=
        Nat.mul_lt_mul_of_pos_right (Nat.div_lt_of_lt_mul hlow) (by positivity)
    _ = 2 ^ c.pES := by rw [← pow_add, Nat.add_sub_cancel' hne]

/-- With the run down to the last bit there is no exponent field. -/
theorem Posit.exponent_eq_zero_of_full {c : Config} {q : BitVec c.pN}
    (hfull : Posit.regimeRun c q = c.pN - 1) : Posit.exponent c q = 0 := by
  have hlow := Posit.lowBits_lt c q
  have hrem : Posit.remBits c (Posit.regimeRun c q) = 0 := by unfold Posit.remBits; omega
  rw [hrem, pow_zero, Nat.lt_one_iff] at hlow
  simp [Posit.exponent, hlow]

theorem Posit.fracBits_le_pFW (c : Config) {run : Nat} (h : 1 ≤ run) :
    Posit.fracBits c run ≤ c.pFW := by
  unfold Posit.fracBits Posit.expBits Posit.remBits Config.pFW
  omega

theorem Posit.significand_bounds (c : Config) (q : BitVec c.pN) :
    2 ^ c.pFW ≤ Posit.significand c q ∧ Posit.significand c q < 2 ^ (c.pFW + 1) := by
  unfold Posit.significand
  dsimp only
  have hnf := Posit.fracBits_le_pFW c (Posit.one_le_regimeRun c q)
  generalize Posit.fracBits c (Posit.regimeRun c q) = nf at *
  have hfrac : Posit.lowBits c q % 2 ^ nf * 2 ^ (c.pFW - nf) < 2 ^ c.pFW := by
    calc Posit.lowBits c q % 2 ^ nf * 2 ^ (c.pFW - nf)
        < 2 ^ nf * 2 ^ (c.pFW - nf) :=
          Nat.mul_lt_mul_of_pos_right (Nat.mod_lt _ (by positivity)) (by positivity)
      _ = 2 ^ c.pFW := by rw [← pow_add, Nat.add_sub_cancel' hnf]
  omega

/-- The regime value of a positive magnitude pattern, which reaches `N − 2` only where no exponent is
left (R74). -/
theorem Posit.regimeValue_bounds {c : Config} {q : BitVec c.pN} (hpos : 0 < q.toNat)
    (hlt : q.toNat < 2 ^ (c.pN - 1)) :
    let k := Posit.regimeValue (Posit.regimeBit c q) (Posit.regimeRun c q);
    -((c.pN - 2 : Nat) : Int) ≤ k ∧
      (k + 1 ≤ (c.pN - 2 : Nat) ∨ k = (c.pN - 2 : Nat) ∧ Posit.exponent c q = 0) := by
  have hN := c.pN_ge
  have hle := Posit.regimeRun_le c q
  have hge := Posit.one_le_regimeRun c q
  dsimp only
  cases hbit : Posit.regimeBit c q with
  | false =>
    have hrun := Posit.regimeRun_lt_of_regimeBit_false hpos hlt hbit
    simp only [Posit.regimeValue, Bool.false_eq_true, if_false]
    omega
  | true =>
    simp only [Posit.regimeValue, if_true]
    by_cases hfull : Posit.regimeRun c q = c.pN - 1
    · have hexp := Posit.exponent_eq_zero_of_full hfull
      omega
    · omega

theorem Posit.scale_bounds {c : Config} {q : BitVec c.pN} (hpos : 0 < q.toNat)
    (hlt : q.toNat < 2 ^ (c.pN - 1)) :
    c.pMinScale ≤ Posit.scale c q ∧ Posit.scale c q ≤ c.pMaxScale := by
  obtain ⟨hlow, hhigh⟩ := Posit.regimeValue_bounds hpos hlt
  have hexp : (Posit.exponent c q : Int) < 2 ^ c.pES := by exact_mod_cast Posit.exponent_lt c q
  have hunit : (0 : Int) < 2 ^ c.pES := by positivity
  unfold Posit.scale Config.pMinScale Config.pMaxScale Config.pUseedLog2
  push_cast
  constructor
  · nlinarith
  · rcases hhigh with hk | ⟨hk, hzero⟩
    · nlinarith
    · rw [hk, hzero]; simp

@[simp] theorem Posit.decode_inRange (c : Config) (a : BitVec c.pN) :
    PositDec.inRange c (Posit.decode c a) = true := by
  unfold Posit.decode
  split
  case isTrue => simp [PositDec.inRange]
  case isFalse hzero =>
    split
    case isTrue => simp [PositDec.inRange]
    case isFalse hnar =>
      obtain ⟨hpos, hlt⟩ := Posit.magPattern_bounds c hzero hnar
      obtain ⟨hmin, hmax⟩ := Posit.scale_bounds hpos hlt
      obtain ⟨hsig, hsig'⟩ := Posit.significand_bounds c (Posit.magPattern c a)
      simp [PositDec.inRange, hmin, hmax, hsig, hsig']

/-- The regime, its terminator, the exponent bits and the fraction bits fill the pattern below the sign
(R72, R75). -/
theorem Posit.scanOf_inRange (c : Config) (q : BitVec c.pN) :
    Scan.inRange c (Posit.scanOf c q) = true := by
  have hle := Posit.regimeRun_le c q
  have hge := Posit.one_le_regimeRun c q
  have hnf := Posit.fracBits_le_pFW c hge
  have hne : Posit.expBits c (Posit.regimeRun c q) ≤ c.pES := min_le_left _ _
  have hfill : Posit.regimeRun c q + (decide (Posit.regimeRun c q < c.pN - 1)).toNat +
      Posit.expBits c (Posit.regimeRun c q) + Posit.fracBits c (Posit.regimeRun c q) = c.pN - 1 := by
    unfold Posit.fracBits Posit.expBits Posit.remBits
    by_cases hterm : Posit.regimeRun c q < c.pN - 1
    · simp only [hterm, decide_true, Bool.toNat_true]; omega
    · simp only [hterm, decide_false, Bool.toNat_false]; omega
  simp [Scan.inRange, Posit.scanOf, hge, hne, hnf, hfill]

@[simp] theorem Posit.scan_inRange (c : Config) (a : BitVec c.pN) :
    Scan.inRange c (Posit.scan c a) = true := by
  have hN := c.pN_ge
  unfold Posit.scan
  split
  case isTrue =>
    have hrun : 1 ≤ c.pN - 1 := by omega
    simp [Scan.inRange, Posit.specialScan, hrun]
  case isFalse => exact Posit.scanOf_inRange c _

end Sys2Proof.Proofs
end

section
/-! The ranges of what LDEC answers (spec 41_lns_codec.md R91 to R95, 10_state.md R25). -/

namespace Sys2Proof.Proofs

open Sys2Proof.Machine

theorem two_pow_lW (c : Config) : 2 ^ c.lW = 2 * 2 ^ (c.lN - 2) :=
  two_pow_pred (by have := c.lN_ge; unfold Config.lW; omega)

theorem two_pow_lN (c : Config) : 2 ^ c.lN = 2 * 2 ^ c.lW :=
  two_pow_pred (by have := c.lN_ge; omega)

@[simp] theorem Lns.zero_toNat (c : Config) : (Lns.zero c).toNat = 2 ^ (c.lN - 2) := by
  have := c.lN_ge
  rw [Lns.zero, BitVec.toNat_ofNat, Nat.mod_eq_of_lt (Nat.pow_lt_pow_right (by omega) (by omega))]

@[simp] theorem Lns.nar_toNat (c : Config) :
    (Lns.nar c).toNat = 2 ^ c.lW + 2 ^ (c.lN - 2) := by
  have hW := two_pow_lW c
  have hN := two_pow_lN c
  have hpos : 0 < 2 ^ (c.lN - 2) := by positivity
  rw [Lns.nar, BitVec.toNat_ofNat]
  exact Nat.mod_eq_of_lt (by unfold Config.lW at *; omega)

/-- The logarithm code is the field below the sign, read in two's complement (R91). -/
theorem Lns.code_eq (c : Config) (a : BitVec c.lN) :
    Lns.code c a = if a.toNat % 2 ^ c.lW < 2 ^ (c.lN - 2) then ((a.toNat % 2 ^ c.lW : Nat) : Int)
      else ((a.toNat % 2 ^ c.lW : Nat) : Int) - (2 ^ c.lW : Nat) := by
  have hW := two_pow_lW c
  rw [Lns.code, BitVec.toInt_eq_toNat_cond, BitVec.toNat_setWidth]
  split <;> split <;> omega

/-- The code of the two reserved patterns is `L_ERES`, and of no other (R92). -/
theorem Lns.code_eq_lERes {c : Config} {a : BitVec c.lN} (h : Lns.code c a = c.lERes) :
    a = Lns.zero c ∨ a = Lns.nar c := by
  have hW := two_pow_lW c
  have hN := two_pow_lN c
  have ha := a.isLt
  have hfield : a.toNat % 2 ^ c.lW < 2 ^ c.lW := Nat.mod_lt _ (by positivity)
  have hpow : (2 : Int) ^ (c.lN - 2) = (2 ^ (c.lN - 2) : Nat) := by push_cast; rfl
  have hreserved : a.toNat % 2 ^ c.lW = 2 ^ (c.lN - 2) := by
    rw [Lns.code_eq, Config.lERes, hpow] at h
    split at h <;> omega
  have hsplit := Nat.div_add_mod a.toNat (2 ^ c.lW)
  have hsign : a.toNat / 2 ^ c.lW < 2 := Nat.div_lt_of_lt_mul (by omega)
  rw [hreserved] at hsplit
  interval_cases a.toNat / 2 ^ c.lW
  · exact .inl (BitVec.eq_of_toNat_eq (by rw [Lns.zero_toNat]; omega))
  · exact .inr (BitVec.eq_of_toNat_eq (by rw [Lns.nar_toNat]; omega))

/-- The code of a number is one of `L_EMIN … L_EMAX` (R91, R92). -/
theorem Lns.code_bounds {c : Config} {a : BitVec c.lN} (hzero : a ≠ Lns.zero c)
    (hnar : a ≠ Lns.nar c) : c.lEMin ≤ Lns.code c a ∧ Lns.code c a ≤ c.lEMax := by
  have hW := two_pow_lW c
  have hfield : a.toNat % 2 ^ c.lW < 2 ^ c.lW := Nat.mod_lt _ (by positivity)
  have hpow : (2 : Int) ^ (c.lN - 2) = (2 ^ (c.lN - 2) : Nat) := by push_cast; rfl
  have hne : Lns.code c a ≠ c.lERes := fun h => (Lns.code_eq_lERes h).elim hzero hnar
  rw [Lns.code_eq, Config.lERes, hpow] at hne
  rw [Lns.code_eq, Config.lEMin, Config.lEMax, hpow]
  split at hne <;> split <;> omega

@[simp] theorem Lns.decode_inRange (c : Config) (a : BitVec c.lN) :
    LnsDec.inRange c (Lns.decode c a) = true := by
  unfold Lns.decode
  split
  case isTrue => simp [LnsDec.inRange]
  case isFalse hzero =>
    split
    case isTrue => simp [LnsDec.inRange]
    case isFalse hnar =>
      obtain ⟨hmin, hmax⟩ := Lns.code_bounds hzero hnar
      have hunit : (0 : Int) < 2 ^ c.lR := by positivity
      have hfrac : (Lns.code c a % 2 ^ c.lR).toNat < 2 ^ c.lR := by
        have hlt := Int.emod_lt_of_pos (Lns.code c a) hunit
        have hge := Int.emod_nonneg (Lns.code c a) hunit.ne'
        zify
        rwa [Int.toNat_of_nonneg hge]
      simp [LnsDec.inRange, Int.ediv_le_ediv hunit hmin, Int.ediv_le_ediv hunit hmax, hfrac]

end Sys2Proof.Proofs
end

section
/-! The ranges of what FDEC answers (spec 42_fixed_codec.md R107, R109, 10_state.md R25). -/

namespace Sys2Proof.Proofs

open Sys2Proof.Machine

theorem Fix.natAbs_toInt_le (c : Config) (a : BitVec c.fN) : a.toInt.natAbs ≤ 2 ^ (c.fN - 1) := by
  have hlow := BitVec.le_toInt a
  have hhigh := BitVec.toInt_lt (x := a)
  zify
  exact abs_le.mpr ⟨hlow, hhigh.le⟩

theorem Fix.natAbs_toInt_pos {c : Config} {a : BitVec c.fN} (h : a ≠ Fix.zero c) :
    0 < a.toInt.natAbs := by
  rw [Int.natAbs_pos]
  intro h0
  exact h (BitVec.eq_of_toInt_eq (by simp [h0, Fix.zero]))

/-- The integer part of a magnitude up to `2^(N−1)` (R107). -/
theorem Fix.ipart_bound (c : Config) {mag : Nat} (h : mag ≤ 2 ^ (c.fN - 1)) :
    (if c.fR < c.fN then mag / 2 ^ c.fR ≤ 2 ^ (c.fN - 1 - c.fR) else mag / 2 ^ c.fR = 0) := by
  have hN := c.fN_ge
  have hR := c.fR_le
  split
  case isTrue hlt =>
    calc mag / 2 ^ c.fR ≤ 2 ^ (c.fN - 1) / 2 ^ c.fR := Nat.div_le_div_right h
      _ = 2 ^ (c.fN - 1 - c.fR) := Nat.pow_div (by omega) (by omega)
  case isFalse hge =>
    exact Nat.div_eq_of_lt (h.trans_lt (Nat.pow_lt_pow_right (by omega) (by omega)))

@[simp] theorem Fix.decode_inRange (c : Config) (a : BitVec c.fN) :
    FixDec.inRange c (Fix.decode c a) = true := by
  unfold Fix.decode
  dsimp only
  split
  case isTrue hzero =>
    have hint : a.toInt = 0 := by simp [hzero, Fix.zero]
    have hsign : a.msb = false := by simp [hzero, Fix.zero]
    simp [FixDec.inRange, hint, hsign]
  case isFalse hzero =>
    have hpart := Fix.ipart_bound c (Fix.natAbs_toInt_le c a)
    have hpos := Fix.natAbs_toInt_pos hzero
    have hfrac : a.toInt.natAbs % 2 ^ c.fR < 2 ^ c.fR := Nat.mod_lt _ (by positivity)
    have hnonzero : a.toInt.natAbs < 2 ^ c.fR → ¬ a.toInt.natAbs % 2 ^ c.fR = 0 := fun hlt => by
      rw [Nat.mod_eq_of_lt hlt]
      exact hpos.ne'
    split at hpart
    case isTrue hlt => simpa [FixDec.inRange, hlt, hpart, hfrac] using hnonzero
    case isFalse hge =>
      have hlt := (Nat.div_eq_zero_iff_lt (by positivity)).mp hpart
      simpa [FixDec.inRange, hge, hpart, hfrac] using hnonzero hlt

end Sys2Proof.Proofs
end

section
/-! Which faults each operation can raise (spec 60_exceptions.md R206 to R210). -/

namespace Sys2Proof.Proofs

open Sys2Proof.Machine

theorem Posit.encode_error {c : Config} {d : PositDec} {f : FaultCode}
    (h : Posit.encode c d = .error f) : f = .malformedOperand := by
  unfold Posit.encode at h
  split at h
  case h_4 =>
    split at h
    · cases h; rfl
    · dsimp only at h
      split at h
      · cases h
      · split at h <;> cases h
        rfl
  all_goals cases h

theorem Lns.encode_error {c : Config} {d : LnsDec} {f : FaultCode}
    (h : Lns.encode c d = .error f) : f = .malformedOperand := by
  unfold Lns.encode at h
  split at h
  case h_4 =>
    split at h
    · cases h; rfl
    · dsimp only at h
      split at h <;> cases h
  all_goals cases h

theorem Fix.encode_error {c : Config} {d : FixDec} {f : FaultCode}
    (h : Fix.encode c d = .error f) : f = .noImage ∨ f = .malformedOperand := by
  unfold Fix.encode at h
  split at h
  case h_1 => cases h; exact .inl rfl
  case h_4 =>
    split at h <;> cases h
    exact .inr rfl
  all_goals cases h

theorem Fix.roundOperand_error {c : Config} {u : Unrounded} {pick : Nat × Nat} {f : FaultCode}
    (h : Fix.roundOperand c u pick = .error f) : f = .noImage := by
  unfold Fix.roundOperand at h
  split at h
  case h_1 => cases h; rfl
  case h_4 => split at h <;> cases h
  all_goals cases h

theorem Fix.div_error {c : Config} {a b : BitVec c.fN} {f : FaultCode}
    (h : Fix.div c a b = .error f) : f = .divByZero ∧ c.fxDiv0Policy = .signal := by
  unfold Fix.div at h
  split at h
  · split at h <;> cases h
    exact ⟨rfl, ‹_›⟩
  · cases h

theorem Posit.constant_error {c : Config} {sel : Sel} {f : FaultCode}
    (h : Posit.constant c sel = .error f) : f = .malformedOperand := by
  unfold Posit.constant at h
  split at h <;> cases h
  rfl

theorem Lns.constant_error {c : Config} {sel : Sel} {f : FaultCode}
    (h : Lns.constant c sel = .error f) : f = .malformedOperand := by
  unfold Lns.constant at h
  split at h <;> cases h
  rfl

theorem Fix.constant_error {c : Config} {sel : Sel} {f : FaultCode}
    (h : Fix.constant c sel = .error f) : f = .malformedOperand := by
  unfold Fix.constant at h
  split at h <;> cases h
  rfl

end Sys2Proof.Proofs
end

section
/-! The machine's invariant: every response is legal for its request (spec 10_state.md R25, R26,
30_encoding.md R58, R59, 60_exceptions.md R206, R214). -/

namespace Sys2Proof.Proofs

open Sys2Proof.Machine

theorem opField (i : Instr) : Laws.OpField.Statement i := by
  cases i <;> exact ⟨rfl, rfl⟩

@[simp] theorem patternIn_toNat {n : Nat} (r : BitVec n) : patternIn n (some r.toNat) = true :=
  decide_eq_true r.isLt

/-- A result is legal when it drives the ports of its operation, and the operation is present. -/
theorem Response.legal_of_result {c : Config} {i : Instr} {p : Response}
    (hfault : p.fault = FaultCode.none.bits) (hpresent : i.isExt = false ∨ c.extArith = true)
    (hresult : p.resultLegal c (resultsOf i.op) = true) : p.legal c i.op = true := by
  obtain ⟨hreserved, hext⟩ := opField i
  have hgate : (!i.isExt || c.extArith) = true := by simpa using hpresent
  rw [← Instr.op] at hreserved hext
  simp [Response.legal, hfault, hresult, hreserved, hext, hgate]

/-- A fault is legal when its operation can raise it. -/
theorem Response.faulted_legal {c : Config} {op : OpCode} {f : FaultCode}
    (hmay : mayRaise c op f.bits = true) : (Response.faulted f).legal c op = true := by
  have hne : f.bits ≠ FaultCode.none.bits := by
    rintro h
    rw [h] at hmay
    cases hmay
  simp [Response.legal, Response.faulted, hne, hmay]

section Shapes

variable {c : Config} {i : Instr}

theorem Response.posPattern_legal (r : BitVec c.pN) (hop : resultsOf i.op = .posPattern)
    (hpresent : i.isExt = false ∨ c.extArith = true) : (Response.pattern r).legal c i.op = true :=
  Response.legal_of_result rfl hpresent (by
    simp [hop, Response.resultLegal, Response.pattern])

theorem Response.lnsPattern_legal (r : BitVec c.lN) (hop : resultsOf i.op = .lnsPattern)
    (hpresent : i.isExt = false ∨ c.extArith = true) : (Response.pattern r).legal c i.op = true :=
  Response.legal_of_result rfl hpresent (by
    simp [hop, Response.resultLegal, Response.pattern])

theorem Response.fixPattern_legal (r : BitVec c.fN) (hop : resultsOf i.op = .fixPattern)
    (hpresent : i.isExt = false ∨ c.extArith = true) : (Response.pattern r).legal c i.op = true :=
  Response.legal_of_result rfl hpresent (by
    simp [hop, Response.resultLegal, Response.pattern])

theorem Response.scanned_legal (a : BitVec c.pN) (hop : resultsOf i.op = .posDecode)
    (hpresent : i.isExt = false) :
    (Response.scanned (.posit (Posit.decode c a)) (Posit.scan c a)).legal c i.op = true :=
  Response.legal_of_result rfl (.inl hpresent) (by
    simp [hop, Response.resultLegal, Response.scanned, tupleIn])

theorem Response.lnsDecoded_legal (a : BitVec c.lN) (hop : resultsOf i.op = .lnsDecode)
    (hpresent : i.isExt = false) :
    (Response.decoded (.lns (Lns.decode c a))).legal c i.op = true :=
  Response.legal_of_result rfl (.inl hpresent) (by
    simp [hop, Response.resultLegal, Response.decoded, tupleIn])

theorem Response.fixDecoded_legal (a : BitVec c.fN) (hop : resultsOf i.op = .fixDecode)
    (hpresent : i.isExt = false) :
    (Response.decoded (.fix (Fix.decode c a))).legal c i.op = true :=
  Response.legal_of_result rfl (.inl hpresent) (by
    simp [hop, Response.resultLegal, Response.decoded, tupleIn])

theorem Posit.roundedResponse_legal (r : BitVec c.pN) (hop : resultsOf i.op = .posRounded)
    (hpresent : i.isExt = false) : (Posit.roundedResponse c r).legal c i.op = true :=
  Response.legal_of_result rfl (.inl hpresent) (by
    simp [hop, Response.resultLegal, Posit.roundedResponse, Response.rounded, tupleIn])

theorem Lns.roundedResponse_legal (r : BitVec c.lN) (hop : resultsOf i.op = .lnsRounded)
    (hpresent : i.isExt = false) : (Lns.roundedResponse c r).legal c i.op = true :=
  Response.legal_of_result rfl (.inl hpresent) (by
    simp [hop, Response.resultLegal, Lns.roundedResponse, Response.rounded, tupleIn])

theorem Fix.roundedResponse_legal (r : BitVec c.fN) (hop : resultsOf i.op = .fixRounded)
    (hpresent : i.isExt = false) : (Fix.roundedResponse c r).legal c i.op = true :=
  Response.legal_of_result rfl (.inl hpresent) (by
    simp [hop, Response.resultLegal, Fix.roundedResponse, Response.rounded, tupleIn])

/-- Exactly one of the four answers is reported (R59). -/
theorem Response.compared_legal (x : Relation) (hop : resultsOf i.op = .relation)
    (hpresent : i.isExt = false) : (Response.compared x).legal c i.op = true := by
  refine Response.legal_of_result rfl (.inl hpresent) ?_
  have hone : oneHot x.bits = true := by cases x <;> rfl
  simp [hop, Response.resultLegal, Response.compared, hone]

theorem clsConsistent_clsBits (isNegative isSpecial isZero : Bool) :
    clsConsistent (clsBits isNegative isSpecial isZero) = !(isSpecial && isZero) := by
  revert isNegative isSpecial isZero
  decide

theorem Response.classified_legal {w : ClsWires} (hw : clsConsistent w = true)
    (hop : resultsOf i.op = .classes) (hpresent : i.isExt = false) :
    (Response.classified w).legal c i.op = true :=
  Response.legal_of_result rfl (.inl hpresent) (by
    simp [hop, Response.resultLegal, Response.classified, hw])

/-- The shape of every operation that may fault: what it delivers is built from a result or is its fault. -/
theorem responseOf_map_legal {α : Type} {op : OpCode} {g : α → Response} {e : Except FaultCode α}
    (hok : ∀ r, (g r).legal c op = true)
    (herror : ∀ f, e = .error f → mayRaise c op f.bits = true) :
    (responseOf (e.map g)).legal c op = true := by
  cases e with
  | ok r => exact hok r
  | error f => exact Response.faulted_legal (herror f rfl)

/-- Behind the gate of R56 the operation is present. -/
theorem responseOf_gated_legal {op : OpCode} {e : Except FaultCode Response}
    (hext : isExtCode op = true)
    (hpresent : c.extArith = true → (responseOf e).legal c op = true) :
    (responseOf (gated c e)).legal c op = true := by
  cases hgate : c.extArith with
  | true => rw [gated_present hgate]; exact hpresent hgate
  | false =>
    rw [gated_absent hgate]
    exact Response.faulted_legal (by simp [mayRaise, FaultCode.bits, hext, hgate])

end Shapes

/-- The zero pattern has sign bit 0 and NaR has sign bit 1 (R174). -/
theorem Posit.classify_consistent (c : Config) (a : BitVec c.pN) :
    clsConsistent (Posit.classify c a) = true := by
  rw [Posit.classify, clsConsistent_clsBits]
  cases hzero : a == 0 with
  | false => rw [Bool.and_false, Bool.not_false]
  | true => simp [beq_iff_eq.mp hzero]

/-- Of the two patterns with the reserved code the sign tells zero from NaR (R175). -/
theorem Lns.classify_consistent (c : Config) (a : BitVec c.lN) :
    clsConsistent (Lns.classify c a) = true := by
  rw [Lns.classify, clsConsistent_clsBits]
  cases a.msb <;> simp

theorem Fix.classify_consistent (c : Config) (a : BitVec c.fN) :
    clsConsistent (Fix.classify c a) = true := by
  rw [Fix.classify, clsConsistent_clsBits, Bool.false_and, Bool.not_false]

/-- Whatever the state, an instruction is answered by a legal response to it. -/
theorem exec_answers_legally (i : Instr) (s : State) :
    ∃ p, exec i s = .next ((s.countDraw (makesDraw s.cfg i)).answer p) ∧
      p.legal s.cfg i.op = true := by
  cases i with
  | pdec => exact ⟨_, rfl, Response.scanned_legal _ rfl rfl⟩
  | ldec => exact ⟨_, rfl, Response.lnsDecoded_legal _ rfl rfl⟩
  | fdec => exact ⟨_, rfl, Response.fixDecoded_legal _ rfl rfl⟩
  | prnd => exact ⟨_, rfl, Posit.roundedResponse_legal _ rfl rfl⟩
  | lrnd => exact ⟨_, rfl, Lns.roundedResponse_legal _ rfl rfl⟩
  | frnd =>
    exact ⟨_, deliver_eq_answer _ _, responseOf_map_legal
      (fun _ => Fix.roundedResponse_legal _ rfl rfl)
      fun f hf => by rw [Fix.roundOperand_error hf]; rfl⟩
  | penc =>
    exact ⟨_, deliver_eq_answer _ _, responseOf_map_legal
      (fun _ => Response.posPattern_legal _ rfl (.inl rfl))
      fun f hf => by rw [Posit.encode_error hf]; rfl⟩
  | lenc =>
    exact ⟨_, deliver_eq_answer _ _, responseOf_map_legal
      (fun _ => Response.lnsPattern_legal _ rfl (.inl rfl))
      fun f hf => by rw [Lns.encode_error hf]; rfl⟩
  | fenc =>
    exact ⟨_, deliver_eq_answer _ _, responseOf_map_legal
      (fun _ => Response.fixPattern_legal _ rfl (.inl rfl))
      fun f hf => by rcases Fix.encode_error hf with rfl | rfl <;> rfl⟩
  | pconst =>
    exact ⟨_, deliver_eq_answer _ _, responseOf_map_legal
      (fun _ => Response.posPattern_legal _ rfl (.inl rfl))
      fun f hf => by rw [Posit.constant_error hf]; rfl⟩
  | lconst =>
    exact ⟨_, deliver_eq_answer _ _, responseOf_map_legal
      (fun _ => Response.lnsPattern_legal _ rfl (.inl rfl))
      fun f hf => by rw [Lns.constant_error hf]; rfl⟩
  | fconst =>
    exact ⟨_, deliver_eq_answer _ _, responseOf_map_legal
      (fun _ => Response.fixPattern_legal _ rfl (.inl rfl))
      fun f hf => by rw [Fix.constant_error hf]; rfl⟩
  | pcls => exact ⟨_, rfl, Response.classified_legal (Posit.classify_consistent _ _) rfl rfl⟩
  | lcls => exact ⟨_, rfl, Response.classified_legal (Lns.classify_consistent _ _) rfl rfl⟩
  | fcls => exact ⟨_, rfl, Response.classified_legal (Fix.classify_consistent _ _) rfl rfl⟩
  | pcmp | lcmp | fcmp => exact ⟨_, rfl, Response.compared_legal _ rfl rfl⟩
  | padd | psub | pmul | pdiv => exact ⟨_, rfl, Response.posPattern_legal _ rfl (.inl rfl)⟩
  | ladd | lsub | lmul | ldiv =>
    exact ⟨_, deliver_eq_answer _ _, responseOf_gated_legal rfl
      fun hext => Response.lnsPattern_legal _ rfl (.inr hext)⟩
  | fadd | fsub | fmul =>
    exact ⟨_, deliver_eq_answer _ _, responseOf_gated_legal rfl
      fun hext => Response.fixPattern_legal _ rfl (.inr hext)⟩
  | fdiv =>
    refine ⟨_, deliver_eq_answer _ _, responseOf_gated_legal rfl fun hext =>
      responseOf_map_legal (fun _ => Response.fixPattern_legal _ rfl (.inr hext)) fun f hf => ?_⟩
    obtain ⟨rfl, hpolicy⟩ := Fix.div_error hf
    simp [mayRaise, FaultCode.bits, Instr.op, encode, Request.ofPatterns, hext, hpolicy]

theorem State.legal_answer {s : State} {p : Response} (h : p.legal s.cfg s.req.op = true) :
    (s.answer p).legal = true := by
  simpa [State.legal] using h

theorem step_legal {s t : State} (hstep : step s = .next t) : t.legal = true := by
  cases hdec : decode s.req with
  | error e =>
    rw [step_of_decode_error hdec, deliver_eq_answer] at hstep
    cases hstep
    exact State.legal_answer (Response.faulted_legal
      (by simp [mayRaise, FaultCode.bits, isReservedCode_of_decode_error hdec]))
  | ok i =>
    obtain ⟨p, hexec, hlegal⟩ := exec_answers_legally i s
    rw [step_of_decode hdec, hexec] at hstep
    cases hstep
    have hop : i.op = s.req.op := op_encode_of_decode hdec
    exact State.legal_answer (hop ▸ hlegal)

/-- Settles O8: a step establishes the invariant from any state, so from a legal one too. -/
theorem everyStepGivesALegalResponse : Obligations.EveryStepGivesALegalResponse :=
  ⟨fun _ _ _ hstep => step_legal hstep, fun _ _ hstep => step_legal hstep⟩

end Sys2Proof.Proofs
end

section
/-! The bytes a host stores for a pattern (spec 20_memory.md R41), and the step on a request it presents
(R43, R28, 30_encoding.md R57). -/

namespace Sys2Proof.Proofs

open Sys2Proof.Machine

/-- The number that bytes denote when the first is the lowest. -/
def lowFirstValue (bytes : List Byte) : Nat :=
  bytes.foldr (fun byte acc => byte.toNat + 256 * acc) 0

@[simp] theorem lowFirstValue_nil : lowFirstValue [] = 0 := rfl

@[simp] theorem lowFirstValue_cons (byte : Byte) (bytes : List Byte) :
    lowFirstValue (byte :: bytes) = byte.toNat + 256 * lowFirstValue bytes := rfl

/-- Read from the last byte upwards, the reversed bytes denote the same number. -/
theorem foldl_reverse_eq_lowFirstValue (bytes : List Byte) :
    bytes.reverse.foldl (fun acc byte => byte.toNat + 256 * acc) 0 = lowFirstValue bytes :=
  List.foldl_reverse

@[simp] theorem patternBytes_length (nbits p : Nat) :
    (patternBytes nbits p).length = (nbits + 7) / 8 := by
  simp [patternBytes]

@[simp] theorem patternBytes_zero (p : Nat) : patternBytes 0 p = [] := rfl

/-- A pattern of at least one bit has a low byte, and its other bytes are those of the bits above it. -/
theorem patternBytes_of_pos {nbits : Nat} (hpos : 0 < nbits) (p : Nat) :
    patternBytes nbits p = BitVec.ofNat 8 p :: patternBytes (nbits - 8) (p >>> 8) := by
  have hcount : (nbits + 7) / 8 = (nbits - 8 + 7) / 8 + 1 := by omega
  rw [patternBytes, patternBytes, hcount, List.range_succ_eq_map, List.map_cons, List.map_map]
  simp [Function.comp_def, ← Nat.shiftRight_add, Nat.mul_add, Nat.add_comm]

/-- The bits above the low byte of a pattern; none is left when there are at most 8. -/
theorem shiftRight_eight_lt {nbits p : Nat} (hp : p < 2 ^ nbits) : p >>> 8 < 2 ^ (nbits - 8) := by
  rw [Nat.shiftRight_eq_div_pow]
  refine Nat.div_lt_of_lt_mul ?_
  calc p < 2 ^ nbits := hp
    _ ≤ 2 ^ (8 + (nbits - 8)) := Nat.pow_le_pow_right (by omega) (by omega)
    _ = 2 ^ 8 * 2 ^ (nbits - 8) := pow_add 2 8 (nbits - 8)

theorem lowFirstValue_patternBytes {nbits p : Nat} (hp : p < 2 ^ nbits) :
    lowFirstValue (patternBytes nbits p) = p := by
  induction nbits using Nat.strong_induction_on generalizing p with
  | h nbits ih =>
    rcases Nat.eq_zero_or_pos nbits with rfl | hpos
    · exact (Nat.lt_one_iff.mp hp).symm
    · have hrest := ih (nbits - 8) (by omega) (shiftRight_eight_lt hp)
      rw [patternBytes_of_pos hpos, lowFirstValue_cons, hrest, BitVec.toNat_ofNat,
        Nat.shiftRight_eq_div_pow]
      exact Nat.mod_add_div p 256

theorem serialise_little {c : Config} (h : c.serEndian = .little) (nbits p : Nat) :
    serialise c nbits p = patternBytes nbits p := by
  simp [serialise, h]

theorem serialise_big {c : Config} (h : c.serEndian = .big) (nbits p : Nat) :
    serialise c nbits p = (patternBytes nbits p).reverse := by
  simp [serialise, h]

theorem serialise_length (c : Config) (nbits p : Nat) :
    (serialise c nbits p).length = (nbits + 7) / 8 := by
  cases h : c.serEndian with
  | little => rw [serialise_little h, patternBytes_length]
  | big => rw [serialise_big h, List.length_reverse, patternBytes_length]

/-- Settles O59: either order holds the bytes of the pattern, which denote it. -/
theorem serialisationFollowsSerEndian : Obligations.SerialisationFollowsSerEndian := by
  intro c nbits p hp
  refine ⟨serialise_length c nbits p, fun hlittle => ?_, fun hbig => ?_⟩
  · rw [serialise_little hlittle]
    exact lowFirstValue_patternBytes hp
  · rw [serialise_big hbig, foldl_reverse_eq_lowFirstValue]
    exact lowFirstValue_patternBytes hp

theorem step_present_encode (s : State) (i : Instr) :
    step (s.present (encode i)) = exec i (s.present (encode i)) :=
  step_of_decode (decode_encode i)

/-- Settles O1: what the request ports decode to is executed, and an encoding decodes to its
instruction. -/
theorem stepRunsTheDecodedInstruction : Obligations.StepRunsTheDecodedInstruction :=
  ⟨fun _ _ hdec => step_of_decode hdec, fun s i _ => step_present_encode s i⟩

end Sys2Proof.Proofs
end

section
/-! The table of the operation codes and its inverse, the encoder (spec 30_encoding.md R50, R52, R55). -/

namespace Sys2Proof.Proofs

/-- Settles O2: each literal code selects its own row of the decoder, which reads the operand ports of the
request as they stand.  The rows stand in the groups of R52; the two reserved codes (R55) come last. -/
theorem everyOperationCodeDecodesByTheTable : Obligations.EveryOperationCodeDecodesByTheTable := by
  intro q
  exact
    ⟨-- posit
      rfl, rfl, rfl, rfl, rfl, rfl, rfl, rfl,
      -- lns
      rfl, rfl, rfl, rfl, rfl, rfl, rfl, rfl,
      -- fixed_point
      rfl, rfl, rfl, rfl, rfl, rfl, rfl, rfl,
      -- cross_format: the comparisons, then the constants
      rfl, rfl, rfl,
      rfl, rfl, rfl,
      -- reserved
      rfl, rfl⟩

/-- Settles O3: `decode_encode`, whose cases are the constructors of `Instr`. -/
theorem decodeInvertsEncode : Obligations.DecodeInvertsEncode := decode_encode

end Sys2Proof.Proofs
end

section
/-! The bit string of a decoded tuple (spec 40_posit_codec.md R80).  A well-formed tuple is numbered by the
integer `scale · 2^FW + (sig − 2^FW)`; its magnitude and its bit string, read as a binary fraction, are
both strictly increasing in that number, because each runs linearly between the steps of an
increasing sequence. -/

namespace Sys2Proof.Proofs

open Sys2Proof.Machine

/-- The sequence `start`, run linearly in `m` steps from each term to the next. -/
def interpolate (start : Int → ℚ) (m : Nat) (n : Int) : ℚ :=
  start (n / m) + (start (n / m + 1) - start (n / m)) * ((n % m : Int) / m)

theorem interpolate_bracket {start : Int → ℚ} (hstart : StrictMono start) {m : Nat} (hm : 0 < m)
    (n : Int) : start (n / m) ≤ interpolate start m n ∧ interpolate start m n < start (n / m + 1) := by
  have hgap : 0 < start (n / m + 1) - start (n / m) := sub_pos.mpr (hstart (lt_add_one _))
  have hmq : (0 : ℚ) < m := by exact_mod_cast hm
  have hrem : (0 : ℚ) ≤ ((n % m : Int) : ℚ) / m :=
    div_nonneg (by exact_mod_cast Int.emod_nonneg n (by omega)) hmq.le
  have hrem' : ((n % m : Int) : ℚ) / m < 1 :=
    (div_lt_one hmq).mpr (by exact_mod_cast Int.emod_lt_of_pos n (by omega))
  unfold interpolate
  constructor <;> nlinarith

theorem interpolate_strictMono {start : Int → ℚ} (hstart : StrictMono start) {m : Nat} (hm : 0 < m) :
    StrictMono (interpolate start m) := by
  intro a b hab
  rcases (Int.ediv_le_ediv (by omega : (0 : Int) < m) hab.le).lt_or_eq with hquot | hquot
  · calc interpolate start m a < start (a / m + 1) := (interpolate_bracket hstart hm a).2
      _ ≤ start (b / m) := hstart.monotone hquot
      _ ≤ interpolate start m b := (interpolate_bracket hstart hm b).1
  · have hgap : 0 < start (b / m + 1) - start (b / m) := sub_pos.mpr (hstart (lt_add_one _))
    have hrem : a % m < b % m := by
      have ha := Int.emod_add_mul_ediv a m
      have hb := Int.emod_add_mul_ediv b m
      rw [hquot] at ha
      omega
    have hmq : (0 : ℚ) < m := by exact_mod_cast hm
    have hremq : ((a % m : Int) : ℚ) < (b % m : Int) := by exact_mod_cast hrem
    unfold interpolate
    rw [hquot]
    gcongr

theorem pow2_strictMono : StrictMono pow2 := fun _ _ => pow2_lt_iff.mpr

theorem pow2_succ (s : Int) : pow2 (s + 1) = 2 * pow2 s := by
  rw [pow2_add, mul_comm]; simp [pow2]

/-- The regime string read after a binary point. -/
def Posit.regimeStart (k : Int) : ℚ := (Posit.regimeString k).1 / 2 ^ (Posit.regimeString k).2

theorem Posit.regimeString_natCast (k : Nat) :
    Posit.regimeString k = ((2 ^ (k + 1) - 1) * 2, k + 2) := by
  simp [Posit.regimeString]

theorem Posit.regimeString_neg {k : Nat} (hk : 0 < k) : Posit.regimeString (-k) = (1, k + 1) := by
  simp [Posit.regimeString, hk.ne']

theorem Posit.regimeStart_natCast (k : Nat) : Posit.regimeStart k = 1 - 1 / 2 ^ (k + 1) := by
  rw [Posit.regimeStart, Posit.regimeString_natCast]
  push_cast [Nat.one_le_two_pow]
  field_simp
  ring

theorem Posit.regimeStart_neg (k : Nat) : Posit.regimeStart (-k) = 1 / 2 ^ (k + 1) := by
  rcases Nat.eq_zero_or_pos k with rfl | hk
  · norm_num [Posit.regimeStart, Posit.regimeString]
  · simp [Posit.regimeStart, Posit.regimeString_neg hk]

/-- Regime strings follow on one another without a gap: the next one begins where the strings that begin
with this one end. -/
theorem Posit.regimeStart_succ (k : Int) :
    Posit.regimeStart (k + 1) - Posit.regimeStart k = 1 / 2 ^ (Posit.regimeString k).2 := by
  obtain ⟨n, rfl | rfl⟩ := k.eq_nat_or_neg
  · have hnext := Posit.regimeStart_natCast (n + 1)
    push_cast at hnext
    rw [hnext, Posit.regimeStart_natCast, Posit.regimeString_natCast]
    field_simp
    ring
  · rcases Nat.eq_zero_or_pos n with rfl | hn
    · norm_num [Posit.regimeStart, Posit.regimeString]
    · obtain ⟨m, rfl⟩ : ∃ m, n = m + 1 := ⟨n - 1, by omega⟩
      have hnext : (-((m + 1 : Nat) : Int) + 1) = -(m : Int) := by push_cast; ring
      rw [hnext, Posit.regimeStart_neg, Posit.regimeStart_neg, Posit.regimeString_neg hn]
      field_simp
      ring

theorem Posit.regimeStart_strictMono : StrictMono Posit.regimeStart :=
  strictMono_int_of_lt_succ fun k => by
    have hgap : (0 : ℚ) < 1 / 2 ^ (Posit.regimeString k).2 := by positivity
    have hsucc := Posit.regimeStart_succ k
    linarith

theorem Posit.regimeStart_pos (k : Int) : 0 < Posit.regimeStart k := by
  have hstring : 0 < (Posit.regimeString k).1 := by
    unfold Posit.regimeString
    split
    · exact Nat.mul_pos (Nat.sub_pos_of_lt (Nat.one_lt_two_pow (by omega))) (by omega)
    · exact Nat.one_pos
  unfold Posit.regimeStart
  positivity

theorem Posit.regimeStart_lt_one (k : Int) : Posit.regimeStart k < 1 := by
  have hstart : Posit.regimeStart k < Posit.regimeStart (k.toNat + 1 : Nat) :=
    Posit.regimeStart_strictMono (by omega)
  rw [Posit.regimeStart_natCast] at hstart
  have hgap : (0 : ℚ) < 1 / 2 ^ (k.toNat + 1 + 1) := by positivity
  linarith

/-- The hidden bit is set (R78). -/
def Posit.HiddenBit (c : Config) (sig : Nat) : Prop := 2 ^ c.pFW ≤ sig ∧ sig < 2 ^ (c.pFW + 1)

/-- The number of a well-formed tuple in the order of magnitude. -/
def Posit.tupleIndex (c : Config) (scale : Int) (sig : Nat) : Int :=
  scale * 2 ^ c.pFW + ((sig - 2 ^ c.pFW : Nat) : Int)

section Tuple

variable {c : Config} {scale scale' : Int} {sig sig' : Nat}

theorem Posit.HiddenBit.fraction_lt (h : Posit.HiddenBit c sig) : sig - 2 ^ c.pFW < 2 ^ c.pFW := by
  obtain ⟨hlow, hhigh⟩ := h
  rw [pow_succ] at hhigh
  omega

theorem Posit.tupleIndex_ediv (h : Posit.HiddenBit c sig) :
    Posit.tupleIndex c scale sig / 2 ^ c.pFW = scale := by
  have hfrac : (((sig - 2 ^ c.pFW : Nat) : Int)) < 2 ^ c.pFW := by exact_mod_cast h.fraction_lt
  rw [Posit.tupleIndex, Int.add_comm, Int.add_mul_ediv_right _ _ (by positivity),
    Int.ediv_eq_zero_of_lt (by omega) hfrac, zero_add]

theorem Posit.tupleIndex_emod (h : Posit.HiddenBit c sig) :
    Posit.tupleIndex c scale sig % 2 ^ c.pFW = ((sig - 2 ^ c.pFW : Nat) : Int) := by
  have hfrac : (((sig - 2 ^ c.pFW : Nat) : Int)) < 2 ^ c.pFW := by exact_mod_cast h.fraction_lt
  rw [Posit.tupleIndex, Int.add_comm, Int.add_mul_emod_self_right,
    Int.emod_eq_of_lt (by omega) hfrac]

theorem Posit.tupleIndex_inj (h : Posit.HiddenBit c sig) (h' : Posit.HiddenBit c sig')
    (heq : Posit.tupleIndex c scale sig = Posit.tupleIndex c scale' sig') :
    scale = scale' ∧ sig = sig' := by
  have hscale := congrArg (· / 2 ^ c.pFW) heq
  have hfrac := congrArg (· % 2 ^ c.pFW) heq
  simp only [Posit.tupleIndex_ediv h, Posit.tupleIndex_ediv h'] at hscale
  simp only [Posit.tupleIndex_emod h, Posit.tupleIndex_emod h'] at hfrac
  have hlow := h.1
  have hlow' := h'.1
  exact ⟨hscale, by omega⟩

theorem Posit.tupleMagnitude_eq_interpolate (h : Posit.HiddenBit c sig) :
    Posit.tupleMagnitude c scale sig =
      interpolate pow2 (2 ^ c.pFW) (Posit.tupleIndex c scale sig) := by
  unfold interpolate
  push_cast
  rw [Posit.tupleIndex_ediv h, Posit.tupleIndex_emod h, pow2_succ, Posit.tupleMagnitude]
  push_cast [h.1]
  field_simp
  ring

theorem Posit.tupleMagnitude_lt_iff (h : Posit.HiddenBit c sig) (h' : Posit.HiddenBit c sig') :
    Posit.tupleMagnitude c scale sig < Posit.tupleMagnitude c scale' sig' ↔
      Posit.tupleIndex c scale sig < Posit.tupleIndex c scale' sig' := by
  rw [Posit.tupleMagnitude_eq_interpolate h, Posit.tupleMagnitude_eq_interpolate h']
  exact (interpolate_strictMono pow2_strictMono (by positivity)).lt_iff_lt

theorem Posit.tupleMagnitude_inj (h : Posit.HiddenBit c sig) (h' : Posit.HiddenBit c sig')
    (heq : Posit.tupleMagnitude c scale sig = Posit.tupleMagnitude c scale' sig') :
    scale = scale' ∧ sig = sig' := by
  rw [Posit.tupleMagnitude_eq_interpolate h, Posit.tupleMagnitude_eq_interpolate h'] at heq
  exact Posit.tupleIndex_inj h h'
    ((interpolate_strictMono pow2_strictMono (by positivity)).injective heq)

theorem Posit.tupleMagnitude_pos (h : Posit.HiddenBit c sig) :
    0 < Posit.tupleMagnitude c scale sig := by
  have hsig : (0 : ℚ) < sig := by exact_mod_cast (Nat.two_pow_pos _).trans_le h.1
  have hpow := pow2_pos scale
  unfold Posit.tupleMagnitude
  positivity

end Tuple

/-- `X` of R80: the bit string regime, exponent, fraction. -/
def Posit.fullString (c : Config) (scale : Int) (sig : Nat) : Nat :=
  ((Posit.regimeString (scale / 2 ^ c.pES)).1 * 2 ^ c.pES +
    (scale - scale / 2 ^ c.pES * 2 ^ c.pES).toNat) * 2 ^ c.pFW + (sig - 2 ^ c.pFW)

/-- `T` of R80: the length of the bit string. -/
def Posit.fullLength (c : Config) (scale : Int) : Nat :=
  (Posit.regimeString (scale / 2 ^ c.pES)).2 + c.pES + c.pFW

/-- The bit string read after a binary point. -/
def Posit.stringFraction (c : Config) (scale : Int) (sig : Nat) : ℚ :=
  Posit.fullString c scale sig / 2 ^ Posit.fullLength c scale

theorem Posit.bitString_eq (c : Config) (scale : Int) (sig : Nat) :
    Posit.bitString c scale sig =
      (Posit.fullString c scale sig / 2 ^ (Posit.fullLength c scale - (c.pN - 1)),
        Posit.fullString c scale sig % 2 ^ (Posit.fullLength c scale - (c.pN - 1))) := rfl

theorem Posit.two_le_regimeString_length (k : Int) : 2 ≤ (Posit.regimeString k).2 := by
  unfold Posit.regimeString
  split <;> dsimp only <;> omega

/-- `T ≥ N − 1` always (R80). -/
theorem Posit.le_fullLength (c : Config) (scale : Int) : c.pN - 1 ≤ Posit.fullLength c scale := by
  have hreg := Posit.two_le_regimeString_length (scale / 2 ^ c.pES)
  unfold Posit.fullLength Config.pFW
  omega

/-- A string fits exactly when its fraction has `N − 1` bits. -/
theorem Posit.bitString_eq_iff (c : Config) (scale : Int) (sig n : Nat) :
    Posit.bitString c scale sig = (n, 0) ↔
      Posit.stringFraction c scale sig = n / 2 ^ (c.pN - 1) := by
  have hlen := Nat.sub_add_cancel (Posit.le_fullLength c scale)
  rw [Posit.bitString_eq, Posit.stringFraction, ← hlen, Nat.add_sub_cancel]
  generalize Posit.fullString c scale sig = X
  generalize Posit.fullLength c scale - (c.pN - 1) = cut
  have hdiv : (X / 2 ^ cut, X % 2 ^ cut) = (n, 0) ↔ X = n * 2 ^ cut := by
    rw [Prod.mk.injEq]
    constructor
    · rintro ⟨hquot, hrem⟩
      rw [← hquot, Nat.div_mul_cancel (Nat.dvd_of_mod_eq_zero hrem)]
    · rintro rfl
      exact ⟨Nat.mul_div_cancel _ (by positivity), Nat.mul_mod_left _ _⟩
  rw [hdiv, pow_add, div_eq_div_iff (by positivity) (by positivity), ← mul_assoc,
    mul_left_inj' (by positivity)]
  exact_mod_cast Iff.rfl

theorem Posit.stringFraction_eq_interpolate {c : Config} (scale : Int) {sig : Nat}
    (h : Posit.HiddenBit c sig) :
    Posit.stringFraction c scale sig =
      interpolate Posit.regimeStart (2 ^ (c.pES + c.pFW)) (Posit.tupleIndex c scale sig) := by
  have hunit : (0 : Int) < 2 ^ c.pES := by positivity
  have hexp : scale - scale / 2 ^ c.pES * 2 ^ c.pES = scale % 2 ^ c.pES := by
    rw [Int.emod_def, mul_comm]
  have hcast : (((2 ^ (c.pES + c.pFW) : Nat)) : Int) = 2 ^ c.pFW * 2 ^ c.pES := by
    push_cast; ring
  have hquot : Posit.tupleIndex c scale sig / ((2 ^ (c.pES + c.pFW) : Nat) : Int) =
      scale / 2 ^ c.pES := by
    rw [hcast, ← Int.ediv_ediv_of_nonneg (by positivity), Posit.tupleIndex_ediv h]
  have hrem : Posit.tupleIndex c scale sig % ((2 ^ (c.pES + c.pFW) : Nat) : Int) =
      scale % 2 ^ c.pES * 2 ^ c.pFW + ((sig - 2 ^ c.pFW : Nat) : Int) := by
    rw [Int.emod_def, hquot, hcast, ← hexp, Posit.tupleIndex]
    ring
  have htoNat : (((scale % 2 ^ c.pES).toNat : Nat) : ℚ) = ((scale % 2 ^ c.pES : Int) : ℚ) := by
    rw [← Int.cast_natCast, Int.toNat_of_nonneg (Int.emod_nonneg _ hunit.ne')]
  rw [interpolate, hquot, hrem, Posit.regimeStart_succ, Posit.regimeStart, Posit.stringFraction,
    Posit.fullString, Posit.fullLength, hexp]
  push_cast [htoNat]
  rw [pow_add, pow_add, pow_add]
  field_simp
  ring

theorem Posit.stringFraction_lt_iff {c : Config} {scale scale' : Int} {sig sig' : Nat}
    (h : Posit.HiddenBit c sig) (h' : Posit.HiddenBit c sig') :
    Posit.stringFraction c scale sig < Posit.stringFraction c scale' sig' ↔
      Posit.tupleMagnitude c scale sig < Posit.tupleMagnitude c scale' sig' := by
  rw [Posit.stringFraction_eq_interpolate scale h, Posit.stringFraction_eq_interpolate scale' h',
    (interpolate_strictMono Posit.regimeStart_strictMono (by positivity)).lt_iff_lt,
    Posit.tupleMagnitude_lt_iff h h']

theorem Posit.stringFraction_inj {c : Config} {scale scale' : Int} {sig sig' : Nat}
    (h : Posit.HiddenBit c sig) (h' : Posit.HiddenBit c sig')
    (heq : Posit.stringFraction c scale sig = Posit.stringFraction c scale' sig') :
    scale = scale' ∧ sig = sig' := by
  rw [Posit.stringFraction_eq_interpolate scale h,
    Posit.stringFraction_eq_interpolate scale' h'] at heq
  exact Posit.tupleIndex_inj h h'
    ((interpolate_strictMono Posit.regimeStart_strictMono (by positivity)).injective heq)

end Sys2Proof.Proofs
end

section
/-! The fields of a magnitude pattern are its bit string (spec 40_posit_codec.md R72 to R75 against R80). -/

namespace Sys2Proof.Proofs

open Sys2Proof.Machine

theorem toNat_mod_two_pow_succ {n : Nat} (q : BitVec n) (bits : Nat) :
    q.toNat % 2 ^ (bits + 1) = q.toNat % 2 ^ bits + 2 ^ bits * (q.getLsbD bits).toNat := by
  rw [Nat.mod_pow_succ, ← Nat.toNat_testBit, BitVec.testBit_toNat]

/-- The bit below a run that ends early is the opposite bit (R72). -/
theorem Posit.getLsbD_below_runLength {n : Nat} (q : BitVec n) (r0 : Bool) :
    ∀ bits, Posit.runLength q r0 bits < bits →
      q.getLsbD (bits - 1 - Posit.runLength q r0 bits) = !r0 := by
  intro bits
  induction bits with
  | zero => intro h; omega
  | succ bits ih =>
    rw [Posit.runLength]
    split
    case isTrue hbit =>
      intro h
      rw [← ih (by omega)]
      congr 1
      omega
    case isFalse hbit =>
      intro _
      simpa using Bool.eq_not.mpr (mt beq_iff_eq.mpr hbit)

/-- A run that ends early and its terminator, as an integer: R80's regime string of the same run. -/
theorem Posit.regime_of_terminated {n : Nat} (q : BitVec n) (r0 : Bool) :
    ∀ bits, Posit.runLength q r0 bits < bits →
      q.toNat % 2 ^ bits / 2 ^ (bits - 1 - Posit.runLength q r0 bits) =
        if r0 then (2 ^ Posit.runLength q r0 bits - 1) * 2 else 1 := by
  intro bits
  induction bits with
  | zero => intro h; omega
  | succ bits ih =>
    rw [Posit.runLength, toNat_mod_two_pow_succ]
    split
    case isTrue hbit =>
      intro h
      obtain rfl := beq_iff_eq.mp hbit
      have hih := ih (by omega)
      generalize Posit.runLength q (q.getLsbD bits) bits = run at *
      have hexp : bits + 1 - 1 - (run + 1) = bits - 1 - run := by omega
      have hsplit : 2 ^ bits = 2 ^ (run + 1) * 2 ^ (bits - 1 - run) := by
        rw [← pow_add]; congr 1; omega
      rw [hexp]
      cases hb : q.getLsbD bits with
      | false => simpa [hb] using hih
      | true =>
        rw [hb] at hih
        have hone := Nat.one_le_two_pow (n := run)
        rw [Bool.toNat_true, mul_one, hsplit, Nat.add_mul_div_right _ _ (by positivity), ← hsplit,
          hih, if_pos rfl, if_pos rfl, pow_succ]
        omega
    case isFalse hbit =>
      intro _
      have hopposite : q.getLsbD bits = !r0 := Bool.eq_not.mpr (mt beq_iff_eq.mpr hbit)
      cases r0 <;> simp [hopposite]

/-- A run of ones down to the last bit. -/
theorem Posit.toNat_of_full {n : Nat} (q : BitVec n) :
    ∀ bits, Posit.runLength q true bits = bits → q.toNat % 2 ^ bits = 2 ^ bits - 1 := by
  intro bits
  induction bits with
  | zero => intro _; simp [Nat.mod_one]
  | succ bits ih =>
    rw [Posit.runLength, toNat_mod_two_pow_succ]
    split
    case isTrue hbit =>
      intro h
      have hone := Nat.one_le_two_pow (n := bits)
      rw [ih (by omega), beq_iff_eq.mp hbit, Bool.toNat_true, pow_succ]
      omega
    case isFalse => intro h; omega

/-- R80's regime string of the regime value of a run (R74). -/
theorem Posit.regimeString_regimeValue (r0 : Bool) {run : Nat} (h : 1 ≤ run) :
    Posit.regimeString (Posit.regimeValue r0 run) =
      (if r0 then (2 ^ run - 1) * 2 else 1, run + 1) := by
  cases r0 with
  | false => simpa [Posit.regimeValue] using Posit.regimeString_neg h
  | true =>
    obtain ⟨k, rfl⟩ : ∃ k, run = k + 1 := ⟨run - 1, by omega⟩
    simpa [Posit.regimeValue] using Posit.regimeString_natCast k

/-- The exponent and the fraction of a tuple, cut-off bits included, are the bits below the terminator
followed by zeros (R75). -/
theorem Posit.exponent_fraction_eq (c : Config) (q : BitVec c.pN) :
    Posit.exponent c q * 2 ^ c.pFW + (Posit.significand c q - 2 ^ c.pFW) =
      Posit.lowBits c q * 2 ^ (c.pES + c.pFW - Posit.remBits c (Posit.regimeRun c q)) := by
  have hnf := Posit.fracBits_le_pFW c (Posit.one_le_regimeRun c q)
  unfold Posit.exponent Posit.significand
  dsimp only
  rw [Nat.add_sub_cancel_left]
  generalize Posit.lowBits c q = low
  generalize Posit.regimeRun c q = run at *
  by_cases hfrac : Posit.fracBits c run = 0
  · have hne : Posit.expBits c run = Posit.remBits c run := by
      unfold Posit.fracBits Posit.expBits at *; omega
    have hle : Posit.remBits c run ≤ c.pES := by unfold Posit.expBits at hne; omega
    have hexp : c.pES + c.pFW - Posit.remBits c run = c.pES - Posit.remBits c run + c.pFW := by omega
    rw [hfrac, hne, hexp, pow_add]
    simp [Nat.mod_one, mul_assoc]
  · have hne : Posit.expBits c run = c.pES := by
      unfold Posit.fracBits Posit.expBits at *; omega
    have hrem : Posit.remBits c run = c.pES + Posit.fracBits c run := by
      unfold Posit.fracBits Posit.expBits at *; omega
    have hexp : c.pES + c.pFW - (c.pES + Posit.fracBits c run) = c.pFW - Posit.fracBits c run := by
      omega
    rw [hne, hrem, hexp, Nat.sub_self, pow_zero, mul_one]
    conv_rhs => rw [← Nat.div_add_mod' low (2 ^ Posit.fracBits c run), add_mul, mul_assoc, ← pow_add,
      Nat.add_sub_cancel' hnf]

/-- The bit string of a tuple begins with its regime string; here the fields are those of a pattern. -/
theorem Posit.fullString_fields (c : Config) (q : BitVec c.pN) :
    Posit.fullString c (Posit.scale c q) (Posit.significand c q) =
        (if Posit.regimeBit c q then (2 ^ Posit.regimeRun c q - 1) * 2 else 1) *
            2 ^ (c.pES + c.pFW) +
          Posit.lowBits c q * 2 ^ (c.pES + c.pFW - Posit.remBits c (Posit.regimeRun c q)) ∧
      Posit.fullLength c (Posit.scale c q) = Posit.regimeRun c q + 1 + c.pES + c.pFW := by
  have hunit : (0 : Int) < 2 ^ c.pES := by positivity
  have hexp : (Posit.exponent c q : Int) < 2 ^ c.pES := by exact_mod_cast Posit.exponent_lt c q
  have hk : Posit.scale c q / 2 ^ c.pES =
      Posit.regimeValue (Posit.regimeBit c q) (Posit.regimeRun c q) := by
    rw [Posit.scale, add_comm, Int.add_mul_ediv_right _ _ hunit.ne',
      Int.ediv_eq_zero_of_lt (by omega) hexp, zero_add]
  have he : (Posit.scale c q -
      Posit.regimeValue (Posit.regimeBit c q) (Posit.regimeRun c q) * 2 ^ c.pES).toNat =
        Posit.exponent c q := by
    rw [Posit.scale, add_sub_cancel_left, Int.toNat_natCast]
  have hreg := Posit.regimeString_regimeValue (Posit.regimeBit c q) (Posit.one_le_regimeRun c q)
  unfold Posit.fullString Posit.fullLength
  rw [hk, he, hreg, ← Posit.exponent_fraction_eq]
  exact ⟨by rw [pow_add]; ring, rfl⟩

/-- A magnitude pattern is the whole bit string of its own tuple, with nothing cut off. -/
theorem Posit.fullString_eq_shift {c : Config} {q : BitVec c.pN} (hpos : 0 < q.toNat)
    (hlt : q.toNat < 2 ^ (c.pN - 1)) :
    Posit.fullString c (Posit.scale c q) (Posit.significand c q) =
      q.toNat * 2 ^ (Posit.fullLength c (Posit.scale c q) - (c.pN - 1)) := by
  have hN := c.pN_ge
  have hfw : c.pN - 3 ≤ c.pES + c.pFW := by unfold Config.pFW; omega
  have hrun := Posit.one_le_regimeRun c q
  obtain ⟨hX, hT⟩ := Posit.fullString_fields c q
  rw [hX, hT]
  rcases (Posit.regimeRun_le c q).lt_or_eq with hterm | hfull
  · have hregime := Posit.regime_of_terminated q (Posit.regimeBit c q) (c.pN - 1) hterm
    have hrem : c.pN - 1 - 1 - Posit.regimeRun c q = Posit.remBits c (Posit.regimeRun c q) := by
      unfold Posit.remBits; omega
    have hcut : Posit.regimeRun c q + 1 + c.pES + c.pFW - (c.pN - 1) =
        c.pES + c.pFW - Posit.remBits c (Posit.regimeRun c q) := by unfold Posit.remBits; omega
    have hsplit : c.pES + c.pFW = Posit.remBits c (Posit.regimeRun c q) +
        (c.pES + c.pFW - Posit.remBits c (Posit.regimeRun c q)) := by unfold Posit.remBits; omega
    rw [Nat.mod_eq_of_lt hlt, ← Posit.regimeRun, hrem] at hregime
    rw [← hregime, hcut]
    conv_lhs => rw [hsplit, pow_add, ← mul_assoc, Nat.add_sub_cancel_left, ← add_mul, Posit.lowBits,
      Nat.div_add_mod']
  · have hbit : Posit.regimeBit c q = true := by
      by_contra hzero
      have := Posit.regimeRun_lt_of_regimeBit_false hpos hlt (Bool.eq_false_of_not_eq_true hzero)
      omega
    have hones := Posit.toNat_of_full q (c.pN - 1) (by rw [← hbit]; exact hfull)
    have hlow : Posit.lowBits c q = 0 := by
      have hrem : Posit.remBits c (Posit.regimeRun c q) = 0 := by unfold Posit.remBits; omega
      rw [Posit.lowBits, hrem, pow_zero, Nat.mod_one]
    have hcut : c.pN - 1 + 1 + c.pES + c.pFW - (c.pN - 1) = 1 + (c.pES + c.pFW) := by omega
    rw [Nat.mod_eq_of_lt hlt] at hones
    rw [hbit, if_pos rfl, hlow, hfull, hcut, hones, pow_add]
    ring

theorem Posit.significand_hiddenBit (c : Config) (q : BitVec c.pN) :
    Posit.HiddenBit c (Posit.significand c q) := Posit.significand_bounds c q

/-- The bit string of a magnitude pattern's tuple, read after a binary point. -/
theorem Posit.stringFraction_fields {c : Config} {q : BitVec c.pN} (hpos : 0 < q.toNat)
    (hlt : q.toNat < 2 ^ (c.pN - 1)) :
    Posit.stringFraction c (Posit.scale c q) (Posit.significand c q) = q.toNat / 2 ^ (c.pN - 1) := by
  rw [← Posit.bitString_eq_iff, Posit.bitString_eq, Posit.fullString_eq_shift hpos hlt,
    Nat.mul_div_cancel _ (by positivity), Nat.mul_mod_left]

/-- A tuple whose bit string fits the pattern `q` is the tuple of `q`. -/
theorem Posit.fields_of_stringFraction {c : Config} {q : BitVec c.pN} (hpos : 0 < q.toNat)
    (hlt : q.toNat < 2 ^ (c.pN - 1)) {scale : Int} {sig : Nat} (h : Posit.HiddenBit c sig)
    (heq : Posit.stringFraction c scale sig = q.toNat / 2 ^ (c.pN - 1)) :
    Posit.scale c q = scale ∧ Posit.significand c q = sig :=
  Posit.stringFraction_inj (Posit.significand_hiddenBit c q) h
    ((Posit.stringFraction_fields hpos hlt).trans heq.symm)

/-- Magnitudes are ordered as the magnitude patterns (R84). -/
theorem Posit.magnitude_lt_iff {c : Config} {q q' : BitVec c.pN} (hpos : 0 < q.toNat)
    (hlt : q.toNat < 2 ^ (c.pN - 1)) (hpos' : 0 < q'.toNat) (hlt' : q'.toNat < 2 ^ (c.pN - 1)) :
    Posit.magnitude c q < Posit.magnitude c q' ↔ q.toNat < q'.toNat := by
  unfold Posit.magnitude
  rw [← Posit.stringFraction_lt_iff (Posit.significand_hiddenBit c q)
      (Posit.significand_hiddenBit c q'),
    Posit.stringFraction_fields hpos hlt, Posit.stringFraction_fields hpos' hlt',
    div_lt_div_iff_of_pos_right (by positivity)]
  exact Nat.cast_lt

theorem Posit.magnitude_pos (c : Config) (q : BitVec c.pN) : 0 < Posit.magnitude c q :=
  Posit.tupleMagnitude_pos (Posit.significand_hiddenBit c q)

end Sys2Proof.Proofs
end

section
/-! A pattern as a sign and a magnitude pattern (spec 40_posit_codec.md R73), and its value
(R76, R84). -/

namespace Sys2Proof.Proofs

open Sys2Proof.Machine

theorem Posit.ofCode_toNat (c : Config) (sign : Bool) (q : BitVec c.pN) :
    Posit.ofCode c sign q.toNat = if sign then -q else q := by
  simp [Posit.ofCode]

theorem Posit.ofCode_magPattern (c : Config) (p : BitVec c.pN) :
    Posit.ofCode c p.msb (Posit.magPattern c p).toNat = p := by
  rw [Posit.ofCode_toNat, Posit.magPattern]
  split <;> simp

/-- The magnitude pattern as an integer, `tc_N(p)` under sign 1 (R73). -/
theorem Posit.magPattern_toNat {c : Config} {p : BitVec c.pN} (hzero : p ≠ Posit.zero c) :
    (Posit.magPattern c p).toNat = if p.msb then 2 ^ c.pN - p.toNat else p.toNat := by
  have hp := p.isLt
  have h0 : p.toNat ≠ 0 := fun h => hzero (BitVec.eq_of_toNat_eq (by simp [h]))
  unfold Posit.magPattern
  split
  · rw [BitVec.toNat_neg, Nat.mod_eq_of_lt (by omega)]
  · rfl

/-- The signed integer of a pattern is its magnitude pattern under its sign. -/
theorem Posit.toInt_eq (c : Config) (p : BitVec c.pN) :
    p.toInt = if p.msb then -((Posit.magPattern c p).toNat : Int) else (Posit.magPattern c p).toNat := by
  by_cases hzero : p = Posit.zero c
  · subst hzero; simp [Posit.zero, Posit.magPattern]
  · have hp := p.isLt
    rw [Posit.magPattern_toNat hzero, BitVec.toInt_eq_msb_cond]
    split <;> omega

/-- The pattern of a sign and a nonzero magnitude pattern is a number with this sign and this magnitude
pattern. -/
theorem Posit.ofCode_number {c : Config} {q : BitVec c.pN} (hpos : 0 < q.toNat)
    (hlt : q.toNat < 2 ^ (c.pN - 1)) (sign : Bool) :
    Posit.ofCode c sign q.toNat ≠ Posit.zero c ∧ Posit.ofCode c sign q.toNat ≠ Posit.nar c ∧
      (Posit.ofCode c sign q.toNat).msb = sign ∧
      Posit.magPattern c (Posit.ofCode c sign q.toNat) = q := by
  have hpow := two_pow_pred (show 1 ≤ c.pN by have := c.pN_ge; omega)
  have hint : (Posit.ofCode c sign q.toNat).toNat =
      if sign then 2 ^ c.pN - q.toNat else q.toNat := by
    rw [Posit.ofCode_toNat]
    cases sign with
    | false => rfl
    | true => rw [if_pos rfl, if_pos rfl, BitVec.toNat_neg, Nat.mod_eq_of_lt (by omega)]
  have hmsb : (Posit.ofCode c sign q.toNat).msb = sign := by
    rw [BitVec.msb_eq_decide, hint]
    cases sign <;> simp <;> omega
  refine ⟨fun h => ?_, fun h => ?_, hmsb, ?_⟩
  · rw [h, Posit.zero_toNat] at hint
    split at hint <;> omega
  · rw [h, Posit.nar_toNat] at hint
    split at hint <;> omega
  · rw [Posit.magPattern, hmsb, Posit.ofCode_toNat]
    cases sign <;> simp

/-- The patterns that have a value: zero, and a sign with a magnitude (R76). -/
theorem Posit.val_eq_some_iff (c : Config) (p : BitVec c.pN) (x : ℚ) :
    Posit.val c p = some x ↔
      (p = Posit.zero c ∧ x = 0) ∨
        (p ≠ Posit.zero c ∧ p ≠ Posit.nar c ∧
          x = signFactor p.msb * Posit.magnitude c (Posit.magPattern c p)) := by
  unfold Posit.val
  split
  case isTrue hzero => simp [hzero, eq_comm]
  case isFalse hzero =>
    split
    case isTrue hnar => simp [hnar, Posit.nar_ne_zero]
    case isFalse hnar => simp [hzero, hnar, eq_comm]

theorem Posit.val_of_number {c : Config} {p : BitVec c.pN} (hzero : p ≠ Posit.zero c)
    (hnar : p ≠ Posit.nar c) :
    Posit.val c p = some (signFactor p.msb * Posit.magnitude c (Posit.magPattern c p)) :=
  (Posit.val_eq_some_iff c p _).mpr (.inr ⟨hzero, hnar, rfl⟩)

theorem Posit.val_zero (c : Config) : Posit.val c (Posit.zero c) = some 0 :=
  (Posit.val_eq_some_iff c _ _).mpr (.inl ⟨rfl, rfl⟩)

theorem Posit.val_ofCode {c : Config} {q : BitVec c.pN} (hpos : 0 < q.toNat)
    (hlt : q.toNat < 2 ^ (c.pN - 1)) (sign : Bool) :
    Posit.val c (Posit.ofCode c sign q.toNat) = some (signFactor sign * Posit.magnitude c q) := by
  obtain ⟨hzero, hnar, hmsb, hmag⟩ := Posit.ofCode_number hpos hlt sign
  rw [Posit.val_of_number hzero hnar, hmsb, hmag]

theorem Posit.val_of_positive {c : Config} {q : BitVec c.pN} (hpos : 0 < q.toNat)
    (hlt : q.toNat < 2 ^ (c.pN - 1)) : Posit.val c q = some (Posit.magnitude c q) := by
  simpa [Posit.ofCode_toNat, signFactor] using Posit.val_ofCode hpos hlt false

/-- Two's complement negates the value (R76). -/
theorem Posit.val_neg {c : Config} {p : BitVec c.pN} (hnar : p ≠ Posit.nar c) :
    Posit.val c (-p) = (Posit.val c p).map (-·) := by
  by_cases hzero : p = Posit.zero c
  · subst hzero
    have hneg : -Posit.zero c = Posit.zero c := by simp [Posit.zero]
    rw [hneg, Posit.val_zero, Option.map_some, neg_zero]
  · obtain ⟨hpos, hlt⟩ := Posit.magPattern_bounds c hzero hnar
    have hneg : -p = Posit.ofCode c (!p.msb) (Posit.magPattern c p).toNat := by
      rw [Posit.ofCode_toNat, Posit.magPattern]
      cases p.msb <;> simp
    rw [hneg, Posit.val_ofCode hpos hlt, Posit.val_of_number hzero hnar, Option.map_some]
    cases p.msb <;> simp [signFactor]

@[simp] theorem Posit.mag_zero (c : Config) : Posit.mag c 0 = 0 := by simp [Posit.mag]

theorem Posit.mag_toNat {c : Config} {q : BitVec c.pN} (hpos : 0 < q.toNat) :
    Posit.mag c q.toNat = Posit.magnitude c q := by
  rw [Posit.mag, if_neg hpos.ne', BitVec.ofNat_toNat, BitVec.setWidth_eq]

/-- The value of a pattern through the magnitude of its code (R121), zero included. -/
theorem Posit.val_eq_mag {c : Config} {p : BitVec c.pN} (hnar : p ≠ Posit.nar c) :
    Posit.val c p = some (signFactor p.msb * Posit.mag c (Posit.magPattern c p).toNat) := by
  by_cases hzero : p = Posit.zero c
  · subst hzero
    rw [Posit.val_zero]
    simp [Posit.magPattern, Posit.zero]
  · rw [Posit.val_of_number hzero hnar, Posit.mag_toNat (Posit.magPattern_bounds c hzero hnar).1]

/-- Magnitudes are ordered as their codes, zero included. -/
theorem Posit.mag_lt_iff {c : Config} {q q' : BitVec c.pN} (hlt : q.toNat < 2 ^ (c.pN - 1))
    (hlt' : q'.toNat < 2 ^ (c.pN - 1)) :
    Posit.mag c q.toNat < Posit.mag c q'.toNat ↔ q.toNat < q'.toNat := by
  rcases Nat.eq_zero_or_pos q.toNat with hq | hpos <;>
    rcases Nat.eq_zero_or_pos q'.toNat with hq' | hpos'
  · simp [hq, hq']
  · simp [hq, hpos', Posit.mag_toNat hpos', Posit.magnitude_pos]
  · simp [hq', Posit.mag_toNat hpos, (Posit.magnitude_pos c q).le]
  · rw [Posit.mag_toNat hpos, Posit.mag_toNat hpos', Posit.magnitude_lt_iff hpos hlt hpos' hlt']

theorem Posit.mag_nonneg (c : Config) (code : Nat) : 0 ≤ Posit.mag c code := by
  unfold Posit.mag
  split
  · exact le_refl _
  · exact (Posit.magnitude_pos c _).le

/-- The magnitude pattern has sign bit 0, and only a number has sign bit 1 (R73). -/
theorem Posit.magPattern_lt {c : Config} {p : BitVec c.pN} (hnar : p ≠ Posit.nar c) :
    (Posit.magPattern c p).toNat < 2 ^ (c.pN - 1) ∧
      (p.msb = true → 0 < (Posit.magPattern c p).toNat) := by
  by_cases hzero : p = Posit.zero c
  · subst hzero; simp [Posit.magPattern, Posit.zero]
  · obtain ⟨hpos, hlt⟩ := Posit.magPattern_bounds c hzero hnar
    exact ⟨hlt, fun _ => hpos⟩

theorem Posit.ne_nar_of_val {c : Config} {p : BitVec c.pN} {x : ℚ} (h : Posit.val c p = some x) :
    p ≠ Posit.nar c := by
  rw [Ne, ← Posit.val_eq_none_iff, h]
  exact Option.some_ne_none x

/-- The value is strictly increasing in the signed pattern (R84). -/
theorem Posit.val_lt_iff {c : Config} {a b : BitVec c.pN} {x y : ℚ} (hx : Posit.val c a = some x)
    (hy : Posit.val c b = some y) : x < y ↔ a.toInt < b.toInt := by
  have ha := Posit.ne_nar_of_val hx
  have hb := Posit.ne_nar_of_val hy
  obtain ⟨hlta, hposa⟩ := Posit.magPattern_lt ha
  obtain ⟨hltb, hposb⟩ := Posit.magPattern_lt hb
  have hmaga := Posit.mag_nonneg c (Posit.magPattern c a).toNat
  have hmagb := Posit.mag_nonneg c (Posit.magPattern c b).toNat
  obtain rfl := Option.some_inj.mp ((Posit.val_eq_mag ha).symm.trans hx)
  obtain rfl := Option.some_inj.mp ((Posit.val_eq_mag hb).symm.trans hy)
  rw [Posit.toInt_eq c a, Posit.toInt_eq c b]
  cases hsa : a.msb <;> cases hsb : b.msb <;>
    simp only [signFactor, Bool.false_eq_true, if_true, if_false, one_mul, neg_one_mul,
      neg_lt_neg_iff]
  case false.false => rw [Posit.mag_lt_iff hlta hltb, Nat.cast_lt]
  case true.true => rw [Posit.mag_lt_iff hltb hlta, Nat.cast_lt]
  case false.true => exact iff_of_false (by linarith) (by omega)
  case true.false =>
    have hpos := hposa hsa
    have hmag := Posit.magnitude_pos c (Posit.magPattern c a)
    rw [← Posit.mag_toNat hpos] at hmag
    exact iff_of_true (by linarith) (by omega)

/-- Settles O16. -/
theorem positValuesFollowTheSignedPatterns : Obligations.PositValuesFollowTheSignedPatterns := by
  intro c a b ha hb
  have hx := Posit.val_eq_mag ha
  have hy := Posit.val_eq_mag hb
  exact ⟨_, _, hx, hy, Posit.val_lt_iff hx hy⟩

/-- Distinct patterns other than NaR have distinct values (R83). -/
theorem Posit.val_ne_of_ne {c : Config} {a b : BitVec c.pN} (ha : a ≠ Posit.nar c)
    (hne : a ≠ b) : Posit.val c a ≠ Posit.val c b := by
  intro heq
  have hx := Posit.val_eq_mag ha
  have hy := heq.symm.trans hx
  have hab := mt (Posit.val_lt_iff hx hy).mpr (lt_irrefl _)
  have hba := mt (Posit.val_lt_iff hy hx).mpr (lt_irrefl _)
  exact hne (BitVec.eq_of_toInt_eq (by omega))

/-! The extreme values (R76). -/

theorem Posit.stringFraction_of_regime (c : Config) (k : Int) :
    Posit.stringFraction c (k * 2 ^ c.pES) (2 ^ c.pFW) = Posit.regimeStart k := by
  have hquot : k * 2 ^ c.pES / 2 ^ c.pES = k := Int.mul_ediv_cancel _ (by positivity)
  rw [Posit.stringFraction, Posit.fullString, Posit.fullLength, hquot, Posit.regimeStart]
  push_cast
  rw [sub_self, Int.toNat_zero, Nat.sub_self, pow_add, pow_add]
  field_simp
  simp

/-- The pattern of a regime alone: no exponent and no fraction. -/
theorem Posit.magnitude_of_regime {c : Config} {q : BitVec c.pN} (hpos : 0 < q.toNat)
    (hlt : q.toNat < 2 ^ (c.pN - 1)) {k : Int}
    (hk : Posit.regimeStart k = q.toNat / 2 ^ (c.pN - 1)) :
    Posit.magnitude c q = pow2 (k * 2 ^ c.pES) := by
  have hsig : Posit.HiddenBit c (2 ^ c.pFW) :=
    ⟨le_refl _, Nat.pow_lt_pow_succ Nat.one_lt_two⟩
  obtain ⟨hscale, hone⟩ := Posit.fields_of_stringFraction hpos hlt hsig
    ((Posit.stringFraction_of_regime c k).trans hk)
  rw [Posit.magnitude, hscale, hone, Posit.tupleMagnitude]
  push_cast
  rw [div_self (by positivity), mul_one]

theorem Posit.one_lt_two_pow (c : Config) : 1 < 2 ^ (c.pN - 1) :=
  Nat.one_lt_two_pow (by have := c.pN_ge; omega)

theorem Posit.maxPos_toNat (c : Config) : (Posit.maxPos c).toNat = 2 ^ (c.pN - 1) - 1 := by
  have hone := Posit.one_lt_two_pow c
  have hpow := two_pow_pred (show 1 ≤ c.pN by have := c.pN_ge; omega)
  rw [Posit.maxPos, BitVec.toNat_ofNat, Nat.mod_eq_of_lt (by omega)]

theorem Posit.minPos_toNat (c : Config) : (Posit.minPos c).toNat = 1 := by
  have hN := c.pN_ge
  rw [Posit.minPos, BitVec.toNat_ofNat, Nat.mod_eq_of_lt (Nat.one_lt_two_pow (by omega))]

theorem Posit.magnitude_maxPos (c : Config) : Posit.magnitude c (Posit.maxPos c) = c.pMaxPos := by
  have hone := Posit.one_lt_two_pow c
  have hlen : c.pN - 2 + 1 = c.pN - 1 := by have := c.pN_ge; omega
  refine Posit.magnitude_of_regime (k := (c.pN - 2 : Nat)) ?_ ?_ ?_ |>.trans ?_
  · rw [Posit.maxPos_toNat]; omega
  · rw [Posit.maxPos_toNat]; omega
  · rw [Posit.maxPos_toNat, Posit.regimeStart_natCast, hlen]
    push_cast [hone.le]
    field_simp
  · simp [Config.pMaxPos, Config.pMaxScale, Config.pUseedLog2]

theorem Posit.magnitude_minPos (c : Config) : Posit.magnitude c (Posit.minPos c) = c.pMinPos := by
  have hlen : c.pN - 2 + 1 = c.pN - 1 := by have := c.pN_ge; omega
  refine Posit.magnitude_of_regime (k := -(c.pN - 2 : Nat)) ?_ ?_ ?_ |>.trans ?_
  · rw [Posit.minPos_toNat]; omega
  · rw [Posit.minPos_toNat]; exact Posit.one_lt_two_pow c
  · rw [Posit.minPos_toNat, Posit.regimeStart_neg, hlen, Nat.cast_one]
  · simp [Config.pMinPos, Config.pMinScale, Config.pMaxScale, Config.pUseedLog2]

theorem Posit.magnitude_range {c : Config} {q : BitVec c.pN} (hpos : 0 < q.toNat)
    (hlt : q.toNat < 2 ^ (c.pN - 1)) :
    c.pMinPos ≤ Posit.magnitude c q ∧ Posit.magnitude c q ≤ c.pMaxPos := by
  have hone := Posit.one_lt_two_pow c
  have hmin := Posit.minPos_toNat c
  have hmax := Posit.maxPos_toNat c
  rw [← Posit.magnitude_minPos, ← Posit.magnitude_maxPos]
  constructor
  · rw [← not_lt, Posit.magnitude_lt_iff hpos hlt (by omega) (by omega)]; omega
  · rw [← not_lt, Posit.magnitude_lt_iff (by omega) (by omega) hpos hlt]; omega

theorem Posit.pMaxPos_pos (c : Config) : 0 < c.pMaxPos := pow2_pos _

/-- No value exceeds maxpos, and no positive value is below minpos (R76). -/
theorem Posit.val_range {c : Config} {p : BitVec c.pN} {x : ℚ} (h : Posit.val c p = some x) :
    x ≤ c.pMaxPos ∧ (0 < x → c.pMinPos ≤ x) := by
  have hmaxpos := Posit.pMaxPos_pos c
  rcases (Posit.val_eq_some_iff c p x).mp h with ⟨-, rfl⟩ | ⟨hzero, hnar, rfl⟩
  · exact ⟨hmaxpos.le, fun h0 => absurd h0 (lt_irrefl 0)⟩
  · obtain ⟨hpos, hlt⟩ := Posit.magPattern_bounds c hzero hnar
    obtain ⟨hmin, hmax⟩ := Posit.magnitude_range hpos hlt
    have hmag := Posit.magnitude_pos c (Posit.magPattern c p)
    cases p.msb with
    | false => simpa [signFactor] using ⟨hmax, fun _ => hmin⟩
    | true =>
      simp only [signFactor, if_true, neg_one_mul]
      exact ⟨by linarith, fun h0 => by linarith⟩

theorem Posit.significand_ratio (c : Config) (q : BitVec c.pN) :
    1 ≤ (Posit.significand c q : ℚ) / 2 ^ c.pFW ∧ (Posit.significand c q : ℚ) / 2 ^ c.pFW < 2 := by
  obtain ⟨hlow, hhigh⟩ := Posit.significand_bounds c q
  rw [le_div_iff₀ (by positivity), div_lt_iff₀ (by positivity), one_mul, ← pow_succ']
  exact ⟨by exact_mod_cast hlow, by exact_mod_cast hhigh⟩

theorem Posit.decode_of_number {c : Config} {p : BitVec c.pN} (hzero : p ≠ Posit.zero c)
    (hnar : p ≠ Posit.nar c) :
    Posit.decode c p =
      { special := Special.none.bits
        sign := p.msb
        scale := Posit.scale c (Posit.magPattern c p)
        sig := Posit.significand c (Posit.magPattern c p) } := by
  rw [Posit.decode, if_neg hzero, if_neg hnar]

/-- Settles O15: the clauses of R76 in order; the range comes from the order of the magnitudes. -/
theorem positValueIsThatOfTheDecodedTuple : Obligations.PositValueIsThatOfTheDecodedTuple := by
  intro c
  have hone := Posit.one_lt_two_pow c
  refine ⟨Posit.val_zero c, (Posit.val_eq_none_iff c _).mpr rfl, ?_, fun p => Posit.val_neg, ?_, ?_,
    fun p x hx => (Posit.val_range hx).1, fun p x hx => (Posit.val_range hx).2⟩
  · intro p hzero hnar
    rw [Posit.decode_of_number hzero hnar, Posit.val_of_number hzero hnar]
    exact ⟨congrArg some (mul_assoc _ _ _).symm, Posit.significand_ratio c _⟩
  · have hmax := Posit.maxPos_toNat c
    rw [Posit.val_of_positive (by omega) (by omega), Posit.magnitude_maxPos]
    rfl
  · have hmin := Posit.minPos_toNat c
    rw [Posit.val_of_positive (by omega) (by omega), Posit.magnitude_minPos]
    rfl

end Sys2Proof.Proofs
end

section
/-! PDEC and PENC (spec 40_posit_codec.md R77, R78 to R83). -/

namespace Sys2Proof.Proofs

open Sys2Proof.Machine

theorem exec_pdec (s : State) (a : BitVec s.cfg.pN) :
    exec (.pdec a.toNat) s =
      .next (s.answer (.scanned (.posit (Posit.decode s.cfg a)) (Posit.scan s.cfg a))) := by
  show execPdec a.toNat s = _
  rw [execPdec, posPort_toNat, deliver_ok]

theorem exec_penc_of_ok {s : State} {d : PositDec} {r : BitVec s.cfg.pN}
    (h : Posit.encode s.cfg d = .ok r) : exec (.penc d) s = .next (s.answer (.pattern r)) := by
  show execPenc d s = _
  rw [execPenc, h]
  rfl

theorem exec_penc_of_error {s : State} {d : PositDec} {f : FaultCode}
    (h : Posit.encode s.cfg d = .error f) : exec (.penc d) s = .next (s.answer (.faulted f)) := by
  show execPenc d s = _
  rw [execPenc, h]
  rfl

/-! PDEC. -/

theorem Posit.decode_special (c : Config) :
    Posit.decode c (Posit.zero c) =
        { special := Special.zero.bits, sign := false, scale := 0, sig := 0 } ∧
      Posit.decode c (Posit.nar c) =
        { special := Special.nar.bits, sign := true, scale := 0, sig := 0 } := by
  simp [Posit.decode, Posit.nar_ne_zero]

theorem Posit.scan_special (c : Config) :
    Posit.scan c (Posit.zero c) = Posit.specialScan c ∧
      Posit.scan c (Posit.nar c) = Posit.specialScan c := by
  simp [Posit.scan]

theorem Posit.scan_of_number {c : Config} {p : BitVec c.pN} (hzero : p ≠ Posit.zero c)
    (hnar : p ≠ Posit.nar c) : Posit.scan c p = Posit.scanOf c (Posit.magPattern c p) := by
  rw [Posit.scan, if_neg (not_or.mpr ⟨hzero, hnar⟩)]

theorem Posit.eq_zero_iff (c : Config) (p : BitVec c.pN) : p = Posit.zero c ↔ p.toNat = 0 := by
  rw [← BitVec.toNat_inj, Posit.zero_toNat]

theorem Posit.eq_nar_iff (c : Config) (p : BitVec c.pN) :
    p = Posit.nar c ↔ p.toNat = 2 ^ (c.pN - 1) := by
  rw [← BitVec.toNat_inj, Posit.nar_toNat]

/-- The regime run of R72, bit by bit. -/
theorem Posit.regimeRun_spec (c : Config) (q : BitVec c.pN) :
    (∀ j, j < Posit.regimeRun c q → q.toNat.testBit (c.pN - 2 - j) = Posit.regimeBit c q) ∧
      (Posit.regimeRun c q < c.pN - 1 →
        q.toNat.testBit (c.pN - 2 - Posit.regimeRun c q) = !Posit.regimeBit c q) := by
  have hle := Posit.regimeRun_le c q
  constructor
  · intro j hj
    exact Posit.getLsbD_of_runLength q (Posit.regimeBit c q) (c.pN - 1) _ (by omega)
      (by unfold Posit.regimeRun at *; omega)
  · intro hterm
    exact Posit.getLsbD_below_runLength q (Posit.regimeBit c q) (c.pN - 1) hterm

/-- Settles O14: the fields of a number are those of its magnitude pattern, and `regimeRun_spec` is its
run. -/
theorem pdecDecodesEveryPattern : Obligations.PdecDecodesEveryPattern := by
  intro s a
  refine ⟨_, _, exec_pdec s a, fun h => ?_, fun h => ?_, fun h0 h1 => ?_⟩
  · rw [(Posit.eq_zero_iff s.cfg a).mpr h]
    exact ⟨(Posit.decode_special s.cfg).1, (Posit.scan_special s.cfg).1⟩
  · rw [(Posit.eq_nar_iff s.cfg a).mpr h]
    exact ⟨(Posit.decode_special s.cfg).2, (Posit.scan_special s.cfg).2⟩
  · have hzero := mt (Posit.eq_zero_iff s.cfg a).mp h0
    have hnar := mt (Posit.eq_nar_iff s.cfg a).mp h1
    rw [Posit.decode_of_number hzero hnar, Posit.scan_of_number hzero hnar,
      ← Posit.magPattern_toNat hzero]
    generalize Posit.magPattern s.cfg a = q
    obtain ⟨hrun, hterm⟩ := Posit.regimeRun_spec s.cfg q
    refine ⟨rfl, Posit.one_le_regimeRun s.cfg q, Posit.regimeRun_le s.cfg q, hrun, hterm, rfl, rfl,
      rfl, rfl, rfl, ?_, ?_⟩
    · rw [Nat.shiftLeft_eq, Nat.shiftRight_eq_div_pow]; rfl
    · rw [Nat.shiftLeft_eq]; rfl

/-! PENC. -/

theorem Posit.encode_zeroTag {c : Config} {d : PositDec} (h : d.special = Special.zero.bits) :
    Posit.encode c d = .ok (Posit.zero c) := by
  rw [Posit.encode, h, Special.ofBits_bits]

/-- Neither an infinity nor NaR has an image in range (R79). -/
theorem Posit.encode_infOrNarTag {c : Config} {d : PositDec}
    (h : d.special = Special.inf.bits ∨ d.special = Special.nar.bits) :
    Posit.encode c d = .ok (Posit.nar c) := by
  rcases h with h | h <;> rw [Posit.encode, h, Special.ofBits_bits]

/-- A tuple tagged None with its hidden bit clear, or wider than the format (R78). -/
theorem Posit.encode_unnormalised {c : Config} {d : PositDec}
    (hspecial : d.special = Special.none.bits)
    (hsig : d.sig < 2 ^ c.pFW ∨ 2 ^ (c.pFW + 1) ≤ d.sig) :
    Posit.encode c d = .error .malformedOperand := by
  rw [Posit.encode, hspecial, Special.ofBits_bits]
  simp only [if_pos hsig]

/-- What PENC does with a well-formed tuple tagged None (R79 to R81). -/
theorem Posit.encode_wellFormed {c : Config} {d : PositDec} (hspecial : d.special = Special.none.bits)
    (hsig : Posit.HiddenBit c d.sig) :
    Posit.encode c d =
      if c.pMaxPos < Posit.tupleMagnitude c d.scale d.sig ∨
          Posit.tupleMagnitude c d.scale d.sig < c.pMinPos then .ok (Posit.nar c)
      else if (Posit.bitString c d.scale d.sig).2 ≠ 0 then .error .malformedOperand
      else .ok (Posit.ofCode c d.sign (Posit.bitString c d.scale d.sig).1) := by
  have hwf : ¬ (d.sig < 2 ^ c.pFW ∨ 2 ^ (c.pFW + 1) ≤ d.sig) :=
    not_or.mpr ⟨hsig.1.not_gt, hsig.2.not_ge⟩
  rw [Posit.encode, hspecial, Special.ofBits_bits]
  simp only [if_neg hwf]

/-- `q` is the magnitude pattern that represents a tuple. -/
structure Posit.Represents (c : Config) (q : BitVec c.pN) (scale : Int) (sig : Nat) : Prop where
  pos : 0 < q.toNat
  lt : q.toNat < 2 ^ (c.pN - 1)
  scale_eq : Posit.scale c q = scale
  sig_eq : Posit.significand c q = sig

namespace Posit.Represents

variable {c : Config} {q : BitVec c.pN} {scale : Int} {sig : Nat}

theorem hiddenBit (h : Posit.Represents c q scale sig) : Posit.HiddenBit c sig :=
  h.sig_eq ▸ Posit.significand_hiddenBit c q

theorem magnitude_eq (h : Posit.Represents c q scale sig) :
    Posit.magnitude c q = Posit.tupleMagnitude c scale sig := by
  rw [Posit.magnitude, h.scale_eq, h.sig_eq]

theorem bitString_eq (h : Posit.Represents c q scale sig) :
    Posit.bitString c scale sig = (q.toNat, 0) := by
  rw [Posit.bitString_eq_iff, ← h.scale_eq, ← h.sig_eq]
  exact Posit.stringFraction_fields h.pos h.lt

theorem val_ofCode (h : Posit.Represents c q scale sig) (sign : Bool) :
    Posit.val c (Posit.ofCode c sign q.toNat) =
      some (signFactor sign * Posit.tupleMagnitude c scale sig) := by
  rw [Posit.val_ofCode h.pos h.lt, h.magnitude_eq]

variable {d : PositDec}

/-- A tuple that is represented is in range, and PENC answers its pattern (R82). -/
theorem encode_eq (h : Posit.Represents c q d.scale d.sig) (hspecial : d.special = Special.none.bits) :
    Posit.encode c d = .ok (Posit.ofCode c d.sign q.toNat) := by
  obtain ⟨hmin, hmax⟩ := Posit.magnitude_range h.pos h.lt
  rw [h.magnitude_eq] at hmin hmax
  rw [Posit.encode_wellFormed hspecial h.hiddenBit,
    if_neg (not_or.mpr ⟨hmax.not_gt, hmin.not_gt⟩), h.bitString_eq, if_neg (not_not.mpr rfl)]

/-- PDEC of that pattern gives the tuple back (R83). -/
theorem decode_eq (h : Posit.Represents c q d.scale d.sig) (hspecial : d.special = Special.none.bits) :
    Posit.decode c (Posit.ofCode c d.sign q.toNat) = d := by
  obtain ⟨hzero, hnar, hmsb, hmag⟩ := Posit.ofCode_number h.pos h.lt d.sign
  rw [Posit.decode_of_number hzero hnar, hmsb, hmag, h.scale_eq, h.sig_eq, ← hspecial]

end Posit.Represents

/-- PENC inverts PDEC (R83). -/
theorem Posit.encode_decode (c : Config) (p : BitVec c.pN) :
    Posit.encode c (Posit.decode c p) = .ok p := by
  by_cases hzero : p = Posit.zero c
  · rw [hzero, (Posit.decode_special c).1, Posit.encode_zeroTag rfl]
  · by_cases hnar : p = Posit.nar c
    · rw [hnar, (Posit.decode_special c).2, Posit.encode_infOrNarTag (.inr rfl)]
    · obtain ⟨hpos, hlt⟩ := Posit.magPattern_bounds c hzero hnar
      have hown : Posit.Represents c (Posit.magPattern c p) (Posit.scale c (Posit.magPattern c p))
        (Posit.significand c (Posit.magPattern c p)) := ⟨hpos, hlt, rfl, rfl⟩
      rw [Posit.decode_of_number hzero hnar, hown.encode_eq rfl, Posit.ofCode_magPattern]

theorem signFactor_mul_inj {sign sign' : Bool} {x y : ℚ} (hx : 0 < x) (hy : 0 < y)
    (h : signFactor sign * x = signFactor sign' * y) : sign = sign' ∧ x = y := by
  cases sign <;> cases sign' <;> simp [signFactor] at h ⊢ <;> linarith

/-- A pattern with the value of a tuple represents it, under the tuple's sign. -/
theorem Posit.represents_of_val {c : Config} {r : BitVec c.pN} {sign : Bool} {scale : Int} {sig : Nat}
    (hsig : Posit.HiddenBit c sig)
    (h : Posit.val c r = some (signFactor sign * Posit.tupleMagnitude c scale sig)) :
    ∃ q, Posit.Represents c q scale sig ∧ r = Posit.ofCode c sign q.toNat := by
  have hmag := Posit.tupleMagnitude_pos (scale := scale) hsig
  rcases (Posit.val_eq_some_iff c r _).mp h with ⟨-, hx⟩ | ⟨hzero, hnar, hx⟩
  · cases sign <;> simp [signFactor, hmag.ne'] at hx
  · obtain ⟨hpos, hlt⟩ := Posit.magPattern_bounds c hzero hnar
    obtain ⟨hsign, heq⟩ := signFactor_mul_inj hmag (Posit.magnitude_pos c _) hx
    obtain ⟨hscale, hsig'⟩ :=
      Posit.tupleMagnitude_inj hsig (Posit.significand_hiddenBit c (Posit.magPattern c r)) heq
    exact ⟨Posit.magPattern c r, ⟨hpos, hlt, hscale.symm, hsig'.symm⟩,
      by rw [hsign, Posit.ofCode_magPattern]⟩

/-- The bit string read after a binary point lies strictly between 0 and 1. -/
theorem Posit.stringFraction_bounds {c : Config} (scale : Int) {sig : Nat}
    (hsig : Posit.HiddenBit c sig) :
    0 < Posit.stringFraction c scale sig ∧ Posit.stringFraction c scale sig < 1 := by
  rw [Posit.stringFraction_eq_interpolate scale hsig]
  obtain ⟨hlow, hhigh⟩ := interpolate_bracket Posit.regimeStart_strictMono
    (show 0 < 2 ^ (c.pES + c.pFW) by positivity) (Posit.tupleIndex c scale sig)
  exact ⟨(Posit.regimeStart_pos _).trans_le hlow, hhigh.trans (Posit.regimeStart_lt_one _)⟩

/-- A tuple of whose bit string nothing is cut off is represented (R80 as the inverse of R75). -/
theorem Posit.represents_of_tail {c : Config} {scale : Int} {sig : Nat}
    (hsig : Posit.HiddenBit c sig) (htail : (Posit.bitString c scale sig).2 = 0) :
    ∃ q, Posit.Represents c q scale sig := by
  have hfrac := (Posit.bitString_eq_iff c scale sig (Posit.bitString c scale sig).1).mp
    (Prod.ext rfl htail)
  generalize (Posit.bitString c scale sig).1 = code at hfrac
  obtain ⟨hpos, hlt⟩ := Posit.stringFraction_bounds scale hsig
  rw [hfrac] at hpos hlt
  have hcode : 0 < code := by
    rw [div_pos_iff_of_pos_right (by positivity)] at hpos; exact_mod_cast hpos
  have hcode' : code < 2 ^ (c.pN - 1) := by
    rw [div_lt_one (by positivity)] at hlt; exact_mod_cast hlt
  have hnat : (BitVec.ofNat c.pN code).toNat = code := by
    rw [BitVec.toNat_ofNat, Nat.mod_eq_of_lt]
    exact hcode'.trans_le (Nat.pow_le_pow_right (by omega) (by omega))
  have hpos' : 0 < (BitVec.ofNat c.pN code).toNat := by rwa [hnat]
  have hlt' : (BitVec.ofNat c.pN code).toNat < 2 ^ (c.pN - 1) := by rwa [hnat]
  obtain ⟨hscale, hsig'⟩ := Posit.fields_of_stringFraction hpos' hlt' hsig (by rw [hnat, hfrac])
  exact ⟨_, hpos', hlt', hscale, hsig'⟩

/-- Settles O17: `encode_decode`, and for a represented tuple both directions at its pattern. -/
theorem positCodecRoundTrip : Obligations.PositCodecRoundTrip := by
  refine ⟨fun s p => ⟨_, _, exec_pdec s p, exec_penc_of_ok (Posit.encode_decode s.cfg p)⟩, ?_,
    fun c a b ha _ => Posit.val_ne_of_ne ha⟩
  rintro s d hspecial hlow hhigh ⟨p, hp⟩
  obtain ⟨q, hq, -⟩ := Posit.represents_of_val (sign := false) ⟨hlow, hhigh⟩
    (by simpa [signFactor] using hp)
  have hdec := exec_pdec s (Posit.ofCode s.cfg d.sign q.toNat)
  rw [hq.decode_eq hspecial] at hdec
  exact ⟨_, _, exec_penc_of_ok (hq.encode_eq hspecial), hdec⟩

/-- Settles O18, by the clauses of R82; a tuple in range whose bit string fits has a pattern. -/
theorem pencEncodesExactlyTheRepresentable : Obligations.PencEncodesExactlyTheRepresentable := by
  intro s d v
  have hv : v = signFactor d.sign * Posit.tupleMagnitude s.cfg d.scale d.sig := rfl
  have habs : |v| = Posit.tupleMagnitude s.cfg d.scale d.sig := by
    have hnonneg : 0 ≤ Posit.tupleMagnitude s.cfg d.scale d.sig :=
      mul_nonneg (pow2_pos _).le (by positivity)
    rw [hv, abs_mul, abs_of_nonneg hnonneg]
    cases d.sign <;> simp [signFactor]
  refine ⟨fun hspecial => exec_penc_of_ok (Posit.encode_zeroTag hspecial),
    fun hspecial => exec_penc_of_ok (Posit.encode_infOrNarTag hspecial),
    fun hspecial hsig => exec_penc_of_error (Posit.encode_unnormalised hspecial hsig),
    fun hspecial hlow hhigh => ⟨fun hout => ?_, fun hmin hmax => ⟨fun r hr => ?_, fun hnone => ?_⟩⟩⟩
  · rw [habs] at hout
    exact exec_penc_of_ok (by rw [Posit.encode_wellFormed hspecial ⟨hlow, hhigh⟩, if_pos hout])
  · obtain ⟨q, hq, rfl⟩ := Posit.represents_of_val ⟨hlow, hhigh⟩ (hr.trans (congrArg some hv))
    exact exec_penc_of_ok (hq.encode_eq hspecial)
  · have htail : (Posit.bitString s.cfg d.scale d.sig).2 ≠ 0 := by
      intro h
      obtain ⟨q, hq⟩ := Posit.represents_of_tail ⟨hlow, hhigh⟩ h
      exact hnone _ (hq.val_ofCode d.sign)
    rw [habs] at hmin hmax
    exact exec_penc_of_error (f := .malformedOperand)
      (by rw [Posit.encode_wellFormed hspecial ⟨hlow, hhigh⟩,
        if_neg (not_or.mpr ⟨hmax.not_gt, hmin.not_gt⟩), if_pos htail])

end Sys2Proof.Proofs
end

section
/-! LDEC and LENC (spec 41_lns_codec.md R91 to R97). -/

namespace Sys2Proof.Proofs

open Sys2Proof.Machine

theorem exec_ldec (s : State) (a : BitVec s.cfg.lN) :
    exec (.ldec a.toNat) s = .next (s.answer (.decoded (.lns (Lns.decode s.cfg a)))) := by
  show execLdec a.toNat s = _
  rw [execLdec, lnsPort_toNat, deliver_ok]

theorem exec_lenc_of_ok {s : State} {d : LnsDec} {r : BitVec s.cfg.lN}
    (h : Lns.encode s.cfg d = .ok r) : exec (.lenc d) s = .next (s.answer (.pattern r)) := by
  show execLenc d s = _
  rw [execLenc, h]
  rfl

theorem exec_lenc_of_error {s : State} {d : LnsDec} {f : FaultCode}
    (h : Lns.encode s.cfg d = .error f) : exec (.lenc d) s = .next (s.answer (.faulted f)) := by
  show execLenc d s = _
  rw [execLenc, h]
  rfl

/-! A pattern is its sign and its logarithm code (R91, R92). -/

theorem Lns.eq_zero_iff (c : Config) (p : BitVec c.lN) :
    p = Lns.zero c ↔ p.toNat = 2 ^ (c.lN - 2) := by
  rw [← BitVec.toNat_inj, Lns.zero_toNat]

theorem Lns.eq_nar_iff (c : Config) (p : BitVec c.lN) :
    p = Lns.nar c ↔ p.toNat = 2 ^ (c.lN - 1) + 2 ^ (c.lN - 2) := by
  rw [← BitVec.toNat_inj, Lns.nar_toNat, Config.lW]

/-- The code as R91 has it, on the integers. -/
theorem Lns.code_eq_signedField (c : Config) (p : BitVec c.lN) :
    Lns.code c p =
      if ((p.toNat % 2 ^ (c.lN - 1) : Nat) : Int) < 2 ^ (c.lN - 2) then
        ((p.toNat % 2 ^ (c.lN - 1) : Nat) : Int)
      else ((p.toNat % 2 ^ (c.lN - 1) : Nat) : Int) - 2 ^ (c.lN - 1) := by
  rw [Lns.code_eq, Config.lW]
  norm_cast

theorem Lns.field_of_reserved {c : Config} {p : BitVec c.lN} (h : p = Lns.zero c ∨ p = Lns.nar c) :
    p.toNat % 2 ^ c.lW = 2 ^ (c.lN - 2) := by
  have hlt : 2 ^ (c.lN - 2) < 2 ^ c.lW := by
    have hpos : 0 < 2 ^ (c.lN - 2) := by positivity
    rw [two_pow_lW]; omega
  rcases h with rfl | rfl
  · rw [Lns.zero_toNat, Nat.mod_eq_of_lt hlt]
  · rw [Lns.nar_toNat, Nat.add_mod_left, Nat.mod_eq_of_lt hlt]

theorem Lns.code_of_reserved {c : Config} {p : BitVec c.lN} (h : p = Lns.zero c ∨ p = Lns.nar c) :
    Lns.code c p = c.lERes := by
  rw [Lns.code_eq, Lns.field_of_reserved h, if_neg (lt_irrefl _), two_pow_lW, Config.lERes]
  push_cast
  ring

/-- `L_EMIN` is the code above the reserved one (R91, R92). -/
theorem lERes_lt_lEMin (c : Config) : c.lERes < c.lEMin := by
  unfold Config.lERes Config.lEMin
  omega

/-- The codes of the numbers are `L_EMIN` and above (R92). -/
theorem Lns.number_of_lEMin_le {c : Config} {p : BitVec c.lN} (h : c.lEMin ≤ Lns.code c p) :
    p ≠ Lns.zero c ∧ p ≠ Lns.nar c := by
  rw [← not_or]
  intro hreserved
  have hlt := lERes_lt_lEMin c
  rw [Lns.code_of_reserved hreserved] at h
  omega

/-- The field below the sign of a composed pattern (R96). -/
theorem Lns.pack_field (c : Config) (sign : Bool) (E : Int) :
    (((Lns.pack c sign E).toNat % 2 ^ c.lW : Nat) : Int) = E % 2 ^ c.lW := by
  have hpos : (0 : Int) < 2 ^ c.lW := by positivity
  have hnonneg : 0 ≤ E % 2 ^ c.lW := Int.emod_nonneg E hpos.ne'
  rw [Lns.pack_toNat]
  push_cast
  rw [Int.toNat_of_nonneg hnonneg]
  cases sign <;> simp

/-- A pattern is the sign and the code it reads as, composed again (R91, R96). -/
theorem Lns.pack_code (c : Config) (p : BitVec c.lN) : Lns.pack c p.msb (Lns.code c p) = p := by
  have hfield : Lns.code c p % 2 ^ c.lW = ((p.toNat % 2 ^ c.lW : Nat) : Int) := by
    rw [Lns.code_eq]
    split <;> simp
  have hmsb : p.msb = decide (2 ^ c.lW ≤ p.toNat) := BitVec.msb_eq_decide p
  apply BitVec.eq_of_toNat_eq
  rw [Lns.pack_toNat, hfield, Int.toNat_natCast, hmsb]
  by_cases hneg : 2 ^ c.lW ≤ p.toNat
  · have hlt : p.toNat - 2 ^ c.lW < 2 ^ c.lW := by
      have hN := two_pow_lN c
      have hp := p.isLt
      omega
    rw [Nat.mod_eq_sub_mod hneg, Nat.mod_eq_of_lt hlt]
    simp [hneg]
  · rw [Nat.mod_eq_of_lt (not_le.mp hneg)]
    simp [hneg]

/-! LDEC. -/

theorem Lns.nar_ne_zero (c : Config) : Lns.nar c ≠ Lns.zero c := by
  intro h
  have hnat := congrArg BitVec.toNat h
  have hpos : 0 < 2 ^ c.lW := by positivity
  rw [Lns.nar_toNat, Lns.zero_toNat] at hnat
  omega

theorem Lns.decode_special (c : Config) :
    Lns.decode c (Lns.zero c) =
        { special := Special.zero.bits, sign := false, scale := 0, logfrac := 0 } ∧
      Lns.decode c (Lns.nar c) =
        { special := Special.nar.bits, sign := true, scale := 0, logfrac := 0 } := by
  simp [Lns.decode, Lns.nar_ne_zero]

theorem Lns.decode_of_number {c : Config} {p : BitVec c.lN} (hzero : p ≠ Lns.zero c)
    (hnar : p ≠ Lns.nar c) :
    Lns.decode c p =
      { special := Special.none.bits, sign := p.msb, scale := Lns.code c p / 2 ^ c.lR,
        logfrac := (Lns.code c p % 2 ^ c.lR).toNat } := by
  rw [Lns.decode, if_neg hzero, if_neg hnar]

/-- Settles O19: `code_eq` reads the field in two's complement, and only the reserved codes are not in
`L_EMIN … L_EMAX`. -/
theorem ldecDecodesEveryPattern : Obligations.LdecDecodesEveryPattern := by
  intro s a
  refine ⟨_, exec_ldec s a, fun h => ?_, fun h => ?_, fun hfield => ?_⟩
  · rw [(Lns.eq_zero_iff s.cfg a).mpr h]
    exact (Lns.decode_special s.cfg).1
  · rw [(Lns.eq_nar_iff s.cfg a).mpr h]
    exact (Lns.decode_special s.cfg).2
  · obtain ⟨hzero, hnar⟩ := not_or.mp (mt Lns.field_of_reserved hfield)
    obtain ⟨hmin, hmax⟩ := Lns.code_bounds hzero hnar
    dsimp only
    rw [← Lns.code_eq_signedField, Lns.decode_of_number hzero hnar]
    exact ⟨rfl, rfl, hmin, hmax, rfl, Int.toNat_of_nonneg (Int.emod_nonneg _ (by positivity))⟩

/-! LENC. -/

theorem Lns.encode_zeroTag {c : Config} {d : LnsDec} (h : d.special = Special.zero.bits) :
    Lns.encode c d = .ok (Lns.zero c) := by
  rw [Lns.encode, h, Special.ofBits_bits]

theorem Lns.encode_infOrNarTag {c : Config} {d : LnsDec}
    (h : d.special = Special.inf.bits ∨ d.special = Special.nar.bits) :
    Lns.encode c d = .ok (Lns.nar c) := by
  rcases h with h | h <;> rw [Lns.encode, h, Special.ofBits_bits]

/-- A tuple tagged None whose `logfrac` is wider than the format (R96). -/
theorem Lns.encode_oversized {c : Config} {d : LnsDec} (hspecial : d.special = Special.none.bits)
    (hfrac : 2 ^ c.lR ≤ d.logfrac) : Lns.encode c d = .error .malformedOperand := by
  rw [Lns.encode, hspecial, Special.ofBits_bits]
  simp only [if_pos hfrac]

/-- What LENC does with a well-formed tuple tagged None whose code is `E` (R96). -/
theorem Lns.encode_wellFormed {c : Config} {d : LnsDec} {E : Int}
    (hspecial : d.special = Special.none.bits) (hfrac : d.logfrac < 2 ^ c.lR)
    (hE : d.scale * 2 ^ c.lR + d.logfrac = E) :
    Lns.encode c d =
      if c.lEMax < E ∨ E < c.lEMin then .ok (Lns.nar c) else .ok (Lns.pack c d.sign E) := by
  subst hE
  rw [Lns.encode, hspecial, Special.ofBits_bits]
  simp only [if_neg hfrac.not_ge]

theorem Lns.encode_inRange {c : Config} {d : LnsDec} {E : Int}
    (hspecial : d.special = Special.none.bits) (hfrac : d.logfrac < 2 ^ c.lR)
    (hE : d.scale * 2 ^ c.lR + d.logfrac = E) (hmin : c.lEMin ≤ E) (hmax : E ≤ c.lEMax) :
    Lns.encode c d = .ok (Lns.pack c d.sign E) := by
  rw [Lns.encode_wellFormed hspecial hfrac hE, if_neg (not_or.mpr ⟨hmax.not_gt, hmin.not_gt⟩)]

/-- Settles O20, by the clauses of R96; a code in range is composed with the sign. -/
theorem lencPacksTheLogarithm : Obligations.LencPacksTheLogarithm := by
  intro s d E
  refine ⟨fun hspecial => exec_lenc_of_ok (Lns.encode_zeroTag hspecial),
    fun hspecial => exec_lenc_of_ok (Lns.encode_infOrNarTag hspecial),
    fun hspecial hfrac => exec_lenc_of_error (Lns.encode_oversized hspecial hfrac),
    fun hspecial hfrac => ⟨fun hout => ?_, fun hmin hmax => ?_⟩⟩
  · exact exec_lenc_of_ok (by rw [Lns.encode_wellFormed hspecial hfrac rfl, if_pos hout])
  · exact ⟨_, exec_lenc_of_ok (Lns.encode_inRange hspecial hfrac rfl hmin hmax),
      Lns.pack_msb s.cfg d.sign E, Lns.pack_field s.cfg d.sign E⟩

/-! LENC and LDEC (R97). -/

/-- LENC inverts LDEC: quotient and remainder of a code make up the code (R97). -/
theorem Lns.encode_decode (c : Config) (p : BitVec c.lN) :
    Lns.encode c (Lns.decode c p) = .ok p := by
  by_cases hzero : p = Lns.zero c
  · rw [hzero, (Lns.decode_special c).1, Lns.encode_zeroTag rfl]
  · by_cases hnar : p = Lns.nar c
    · rw [hnar, (Lns.decode_special c).2, Lns.encode_infOrNarTag (.inr rfl)]
    · obtain ⟨hmin, hmax⟩ := Lns.code_bounds hzero hnar
      have hunit : (0 : Int) < 2 ^ c.lR := by positivity
      have hrem := Int.toNat_of_nonneg (Int.emod_nonneg (Lns.code c p) hunit.ne')
      have hfrac : (Lns.code c p % 2 ^ c.lR).toNat < 2 ^ c.lR := by
        zify
        rw [hrem]
        exact Int.emod_lt_of_pos _ hunit
      have hcode : Lns.code c p / 2 ^ c.lR * 2 ^ c.lR + (Lns.code c p % 2 ^ c.lR).toNat =
          Lns.code c p := by
        rw [hrem, Int.ediv_mul_add_emod]
      rw [Lns.decode_of_number hzero hnar, Lns.encode_inRange rfl hfrac hcode hmin hmax, Lns.pack_code]

/-- LDEC inverts LENC on the numbers: `scale` and `logfrac` are quotient and remainder of the code
that they make up (R97). -/
theorem Lns.decode_pack {c : Config} {d : LnsDec} {E : Int} (hspecial : d.special = Special.none.bits)
    (hfrac : d.logfrac < 2 ^ c.lR) (hE : d.scale * 2 ^ c.lR + d.logfrac = E)
    (hmin : c.lEMin ≤ E) (hmax : E ≤ c.lEMax) : Lns.decode c (Lns.pack c d.sign E) = d := by
  have hcode := Lns.code_pack c d.sign ((lERes_lt_lEMin c).le.trans hmin) hmax
  obtain ⟨hzero, hnar⟩ := Lns.number_of_lEMin_le (hcode.symm ▸ hmin)
  have hfrac' : (d.logfrac : Int) < 2 ^ c.lR := by exact_mod_cast hfrac
  obtain ⟨hscale, hrem⟩ : E / 2 ^ c.lR = d.scale ∧ E % 2 ^ c.lR = d.logfrac :=
    (Int.ediv_emod_unique (by positivity)).mpr ⟨by rw [← hE]; ring, by positivity, hfrac'⟩
  rw [Lns.decode_of_number hzero hnar, hcode, Lns.pack_msb, hscale, hrem, Int.toNat_natCast, ← hspecial]

/-- Settles O21: `encode_decode`, and for a tuple in range `decode_pack`. -/
theorem lnsCodecRoundTrip : Obligations.LnsCodecRoundTrip := by
  refine ⟨fun s p => ⟨_, exec_ldec s p, exec_lenc_of_ok (Lns.encode_decode s.cfg p)⟩,
    fun s d hspecial hfrac hmin hmax => ?_⟩
  have hdec := exec_ldec s (Lns.pack s.cfg d.sign (d.scale * 2 ^ s.cfg.lR + d.logfrac))
  rw [Lns.decode_pack hspecial hfrac rfl hmin hmax] at hdec
  exact ⟨_, exec_lenc_of_ok (Lns.encode_inRange hspecial hfrac rfl hmin hmax), hdec⟩

end Sys2Proof.Proofs
end

section
/-! FDEC and FENC (spec 42_fixed_codec.md R105 to R113). -/

namespace Sys2Proof.Proofs

open Sys2Proof.Machine

theorem exec_fdec (s : State) (a : BitVec s.cfg.fN) :
    exec (.fdec a.toNat) s = .next (s.answer (.decoded (.fix (Fix.decode s.cfg a)))) := by
  show execFdec a.toNat s = _
  rw [execFdec, fixPort_toNat, deliver_ok]

theorem exec_fenc_of_ok {s : State} {d : FixDec} {r : BitVec s.cfg.fN}
    (h : Fix.encode s.cfg d = .ok r) : exec (.fenc d) s = .next (s.answer (.pattern r)) := by
  show execFenc d s = _
  rw [execFenc, h]
  rfl

theorem exec_fenc_of_error {s : State} {d : FixDec} {f : FaultCode}
    (h : Fix.encode s.cfg d = .error f) : exec (.fenc d) s = .next (s.answer (.faulted f)) := by
  show execFenc d s = _
  rw [execFenc, h]
  rfl

/-! A code is a sign and a magnitude, and a magnitude is an integer part and a fraction (R107). -/

/-- The signed integer of a sign and a magnitude (R107). -/
def Fix.signed (sign : Bool) (mag : Nat) : Int := (if sign then -1 else 1) * mag

/-- The magnitude that a decoded tuple splits at the radix point (R107). -/
def Fix.magnitude (c : Config) (d : FixDec) : Nat := d.ipart * 2 ^ c.fR + d.fpart

@[simp] theorem Fix.natAbs_signed (sign : Bool) (mag : Nat) : (Fix.signed sign mag).natAbs = mag := by
  cases sign <;> simp [Fix.signed]

/-- A magnitude other than 0 shows its sign. -/
theorem Fix.signed_neg_iff {sign : Bool} {mag : Nat} (h : mag ≠ 0) :
    Fix.signed sign mag < 0 ↔ sign = true := by
  cases sign with
  | false => simp [Fix.signed]
  | true => simpa [Fix.signed, Nat.pos_iff_ne_zero] using h

theorem Fix.signed_magnitude (c : Config) (d : FixDec) :
    Fix.signed d.sign (Fix.magnitude c d) =
      (if d.sign then -1 else 1) * ((d.ipart : Int) * 2 ^ c.fR + d.fpart) := by
  simp [Fix.signed, Fix.magnitude]

theorem Fix.eq_zero_iff (c : Config) (p : BitVec c.fN) : p = Fix.zero c ↔ p.toNat = 0 := by
  rw [← BitVec.toNat_inj, Fix.zero_toNat]

/-- A pattern's code is its top bit and the magnitude of its code (R105, R107). -/
theorem Fix.signed_msb_natAbs {c : Config} (p : BitVec c.fN) :
    Fix.signed p.msb p.toInt.natAbs = p.toInt := by
  rw [BitVec.msb_eq_toInt]
  by_cases hneg : p.toInt < 0
  · simp [Fix.signed, hneg, abs_of_neg]
  · simp [Fix.signed, hneg, abs_of_nonneg (not_lt.mp hneg)]

/-! FDEC. -/

theorem Fix.decode_zero (c : Config) :
    Fix.decode c (Fix.zero c) =
      { special := Special.zero.bits, sign := false, ipart := 0, fpart := 0 } := by
  simp [Fix.decode, Fix.zero]

theorem Fix.decode_of_ne_zero {c : Config} {p : BitVec c.fN} (hzero : p ≠ Fix.zero c) :
    Fix.decode c p =
      { special := Special.none.bits, sign := p.msb, ipart := p.toInt.natAbs / 2 ^ c.fR,
        fpart := p.toInt.natAbs % 2 ^ c.fR } := by
  rw [Fix.decode, if_neg hzero]

theorem Fix.decode_fpart_lt (c : Config) (p : BitVec c.fN) : (Fix.decode c p).fpart < 2 ^ c.fR :=
  Nat.mod_lt _ (by positivity)

theorem Fix.magnitude_decode (c : Config) (p : BitVec c.fN) :
    Fix.magnitude c (Fix.decode c p) = p.toInt.natAbs :=
  Nat.div_add_mod' _ _

/-- The tuple FDEC answers makes up the code of the pattern (R107). -/
theorem Fix.signed_magnitude_decode (c : Config) (p : BitVec c.fN) :
    Fix.signed (Fix.decode c p).sign (Fix.magnitude c (Fix.decode c p)) = p.toInt := by
  rw [Fix.magnitude_decode]
  exact Fix.signed_msb_natAbs p

/-- The value a tuple denotes is its signed integer over `2^R` (R107). -/
theorem Fix.value_eq (c : Config) (d : FixDec) :
    (if d.sign then -1 else 1) * ((d.ipart : ℚ) + (d.fpart : ℚ) / 2 ^ c.fR) =
      (Fix.signed d.sign (Fix.magnitude c d) : ℚ) / 2 ^ c.fR := by
  have hunit : (2 : ℚ) ^ c.fR ≠ 0 := by positivity
  rw [Fix.signed_magnitude]
  push_cast
  field_simp

/-- Settles O22: the fields are those of `Fix.decode`, and they make up the code of the pattern. -/
theorem fdecSplitsTheMagnitude : Obligations.FdecSplitsTheMagnitude := by
  intro s a
  refine ⟨_, exec_fdec s a, ?_, rfl, rfl, rfl, ?_⟩
  · simp only [← Fix.eq_zero_iff]
    rfl
  · rw [Fix.value_eq, Fix.signed_magnitude_decode]

/-! FENC. -/

/-- NaR has no image (R111). -/
theorem Fix.encode_narTag {c : Config} {d : FixDec} (h : d.special = Special.nar.bits) :
    Fix.encode c d = .error .noImage := by
  rw [Fix.encode, h, Special.ofBits_bits]

theorem Fix.encode_zeroTag {c : Config} {d : FixDec} (h : d.special = Special.zero.bits) :
    Fix.encode c d = .ok (Fix.zero c) := by
  rw [Fix.encode, h, Special.ofBits_bits]

theorem Fix.encode_infTag {c : Config} {d : FixDec} (h : d.special = Special.inf.bits) :
    Fix.encode c d = .ok (Fix.bound c d.sign) := by
  rw [Fix.encode, h, Special.ofBits_bits]

/-- A tuple tagged None whose `fpart` is wider than the format (R110). -/
theorem Fix.encode_oversized {c : Config} {d : FixDec} (hspecial : d.special = Special.none.bits)
    (hfrac : 2 ^ c.fR ≤ d.fpart) : Fix.encode c d = .error .malformedOperand := by
  rw [Fix.encode, hspecial, Special.ofBits_bits]
  exact if_pos hfrac

/-- What FENC does with a well-formed tuple tagged None (R110, R112). -/
theorem Fix.encode_wellFormed {c : Config} {d : FixDec} (hspecial : d.special = Special.none.bits)
    (hfrac : d.fpart < 2 ^ c.fR) :
    Fix.encode c d = .ok (Fix.saturate c (Fix.signed d.sign (Fix.magnitude c d))) := by
  rw [Fix.encode, hspecial, Special.ofBits_bits]
  exact if_neg hfrac.not_ge

/-- Settles O23, by the tags of R110 to R112; `saturate_toInt` gives the clamped code. -/
theorem fencSaturates : Obligations.FencSaturates := by
  intro s d i
  refine ⟨fun hspecial => exec_fenc_of_error (Fix.encode_narTag hspecial),
    fun hspecial => exec_fenc_of_ok (Fix.encode_zeroTag hspecial),
    fun hspecial => exec_fenc_of_ok (Fix.encode_infTag hspecial),
    fun hspecial hfrac => exec_fenc_of_error (Fix.encode_oversized hspecial hfrac),
    fun hspecial hfrac => ⟨_, exec_fenc_of_ok (Fix.encode_wellFormed hspecial hfrac), ?_⟩⟩
  rw [Fix.saturate_toInt, Fix.signed_magnitude, clampInt]

/-! FENC and FDEC (R113). -/

/-- Saturation keeps every code that a pattern has (R112). -/
theorem Fix.saturate_toInt_self (c : Config) (p : BitVec c.fN) : Fix.saturate c p.toInt = p := by
  apply BitVec.eq_of_toInt_eq
  rw [Fix.saturate_toInt]
  exact clampInt_of_mem (BitVec.le_toInt p) (Int.le_sub_one_of_lt BitVec.toInt_lt)

/-- FENC inverts FDEC (R113). -/
theorem Fix.encode_decode (c : Config) (p : BitVec c.fN) :
    Fix.encode c (Fix.decode c p) = .ok p := by
  by_cases hzero : p = Fix.zero c
  · rw [hzero, Fix.decode_zero, Fix.encode_zeroTag rfl]
  · have hspecial : (Fix.decode c p).special = Special.none.bits := if_neg hzero
    rw [Fix.encode_wellFormed hspecial (Fix.decode_fpart_lt c p), Fix.signed_magnitude_decode,
      Fix.saturate_toInt_self]

/-- A pattern whose code is the nonzero integer of a well-formed tuple decodes to that tuple: sign and
magnitude of a nonzero integer are its own, and `ipart` and `fpart` are quotient and remainder of the
magnitude they make up (R107, R113). -/
theorem Fix.decode_eq_of_toInt {c : Config} {d : FixDec} {p : BitVec c.fN}
    (hspecial : d.special = Special.none.bits) (hfrac : d.fpart < 2 ^ c.fR)
    (hmag : Fix.magnitude c d ≠ 0) (hp : p.toInt = Fix.signed d.sign (Fix.magnitude c d)) :
    Fix.decode c p = d := by
  have hzero : p ≠ Fix.zero c := by
    rintro rfl
    have hnatAbs := congrArg Int.natAbs hp
    rw [Fix.natAbs_signed] at hnatAbs
    exact hmag (by rw [← hnatAbs]; simp [Fix.zero])
  have hsign : p.msb = d.sign := by
    rw [BitVec.msb_eq_toInt, hp]
    simp [Fix.signed_neg_iff hmag]
  obtain ⟨hipart, hfpart⟩ : Fix.magnitude c d / 2 ^ c.fR = d.ipart ∧
      Fix.magnitude c d % 2 ^ c.fR = d.fpart :=
    (Nat.div_mod_unique (by positivity)).mpr ⟨by rw [Fix.magnitude]; ring, hfrac⟩
  rw [Fix.decode_of_ne_zero hzero, hp, Fix.natAbs_signed, hsign, hipart, hfpart, ← hspecial]

/-- Settles O24: `encode_decode`, and for a tuple in range `decode_eq_of_toInt` of its own code, which
saturation keeps. -/
theorem fixCodecRoundTrip : Obligations.FixCodecRoundTrip := by
  refine ⟨fun s p => ⟨_, exec_fdec s p, exec_fenc_of_ok (Fix.encode_decode s.cfg p)⟩,
    fun s d hspecial hfrac hmag hmin hmax => ?_⟩
  rw [← Fix.signed_magnitude] at hmin hmax
  have hcode := (Fix.saturate_toInt s.cfg _).trans (clampInt_of_mem hmin hmax)
  have hdec := exec_fdec s (Fix.saturate s.cfg (Fix.signed d.sign (Fix.magnitude s.cfg d)))
  rw [Fix.decode_eq_of_toInt hspecial hfrac hmag hcode] at hdec
  exact ⟨_, exec_fenc_of_ok (Fix.encode_wellFormed hspecial hfrac), hdec⟩

end Sys2Proof.Proofs
end

section
/-! Rounding functions as step functions (spec 43_rounder.md R134): a rounding function is known by its
codes and its breakpoints.  It is constant between breakpoints, and the tie rules `up` and `down` give its
limits from above and from below. -/

namespace Sys2Proof.Proofs

open Sys2Proof.Machine

/-- `f` rounds to the codes `lo … hi` and passes from `n` to `n + 1` at the breakpoint `b n`.  At the
breakpoint itself the tie rule `up` has passed and `down` has not; of `even` nothing is said. -/
structure StepsAt (b : Int → ℚ) (lo hi : Int) (f : Tie → ℚ → Int) : Prop where
  mem : ∀ tie x, lo ≤ f tie x ∧ f tie x ≤ hi
  above : ∀ tie {n x}, lo ≤ n → n < hi → b n < x → n < f tie x
  below : ∀ tie {n x}, lo ≤ n → n < hi → x < b n → f tie x ≤ n
  up : ∀ {n}, lo ≤ n → n < hi → n < f .up (b n)
  down : ∀ {n}, lo ≤ n → n < hi → f .down (b n) ≤ n

/-- A rounding function is known by its codes and by which points lie past which breakpoint; `goes` tells
whether a tie rule settles on the far side of it. -/
theorem StepsAt.of_lt_iff {b : Int → ℚ} {lo hi : Int} {f : Tie → ℚ → Int} {goes : Tie → Int → Bool}
    (hup : ∀ n, goes .up n = true) (hdown : ∀ n, goes .down n = false)
    (hmem : ∀ tie x, lo ≤ f tie x ∧ f tie x ≤ hi)
    (hlt : ∀ tie x n, lo ≤ n → n < hi →
      (n < f tie x ↔ b n < x ∨ (x = b n ∧ goes tie n = true))) :
    StepsAt b lo hi f where
  mem := hmem
  above tie {n x} hlo hhi hx := (hlt tie x n hlo hhi).mpr (.inl hx)
  below tie {n x} hlo hhi hx := not_lt.mp fun h => by
    rcases (hlt tie x n hlo hhi).mp h with hgt | ⟨heq, -⟩
    · exact lt_asymm hx hgt
    · exact hx.ne heq
  up {n} hlo hhi := (hlt .up _ n hlo hhi).mpr (.inr ⟨rfl, hup n⟩)
  down {n} hlo hhi := not_lt.mp fun h => by
    rcases (hlt .down _ n hlo hhi).mp h with hgt | ⟨-, hgoes⟩
    · exact lt_irrefl _ hgt
    · exact Bool.false_ne_true ((hdown n).symm.trans hgoes)

/-- `x` lies past the breakpoint `b` above the code `n`, or on it where the tie rule goes up. -/
def Tie.passes (tie : Tie) (n : Int) (b x : ℚ) : Prop := b < x ∨ (x = b ∧ tie.goesUp n = true)

/-- `StepsAt.of_lt_iff` for the tie rule of R12. -/
theorem StepsAt.of_passes {b : Int → ℚ} {lo hi : Int} {f : Tie → ℚ → Int}
    (hmem : ∀ tie x, lo ≤ f tie x ∧ f tie x ≤ hi)
    (hlt : ∀ tie x n, lo ≤ n → n < hi → (n < f tie x ↔ Tie.passes tie n (b n) x)) :
    StepsAt b lo hi f :=
  .of_lt_iff (goes := Tie.goesUp) (fun _ => rfl) (fun _ => rfl) hmem hlt

namespace StepsAt

variable {b : Int → ℚ} {lo hi : Int} {f : Tie → ℚ → Int}

/-- However ties are settled at either point, the codes follow the values. -/
theorem le_of_lt (h : StepsAt b lo hi f) (tie tie' : Tie) {x y : ℚ} (hxy : x < y) :
    f tie x ≤ f tie' y := by
  obtain ⟨hlo, -⟩ := h.mem tie' y
  obtain ⟨-, hhi⟩ := h.mem tie x
  by_contra! hlt
  have hy : y ≤ b (f tie' y) :=
    not_lt.mp fun hb => lt_irrefl _ (h.above tie' hlo (hlt.trans_le hhi) hb)
  exact (h.below tie hlo (hlt.trans_le hhi) (hxy.trans_le hy)).not_gt hlt

theorem mono (h : StepsAt b lo hi f) (tie : Tie) : Monotone (f tie) := fun x y hxy => by
  rcases hxy.lt_or_eq with hlt | rfl
  · exact h.le_of_lt tie tie hlt
  · exact le_refl _

/-- The tie rule `up` gives the limit from above: it is taken at some point of every interval that begins
there. -/
theorem exists_eq_up (h : StepsAt b lo hi f) {low high : ℚ} (hlt : low < high) :
    ∃ x, low < x ∧ x < high ∧ f .even x = f .up low := by
  obtain ⟨hlo, hhi⟩ := h.mem .up low
  rcases hhi.lt_or_eq with hlast | hlast
  · have hb : low < b (f .up low) := by
      rcases lt_trichotomy low (b (f .up low)) with hb | hb | hb
      · exact hb
      · have hup := h.up hlo hlast
        rw [← hb] at hup
        exact absurd hup (lt_irrefl _)
      · exact absurd (h.above .up hlo hlast hb) (lt_irrefl _)
    obtain ⟨x, hx, hx'⟩ := exists_between (lt_min hlt hb)
    obtain ⟨hhigh, hbreak⟩ := lt_min_iff.mp hx'
    exact ⟨x, hx, hhigh, le_antisymm (h.below .even hlo hlast hbreak) (h.le_of_lt _ _ hx)⟩
  · obtain ⟨x, hx, hx'⟩ := exists_between hlt
    exact ⟨x, hx, hx', le_antisymm ((h.mem .even x).2.trans hlast.ge) (h.le_of_lt _ _ hx)⟩

/-- The tie rule `down` gives the limit from below. -/
theorem exists_eq_down (h : StepsAt b lo hi f) {low high : ℚ} (hlt : low < high) :
    ∃ x, low < x ∧ x < high ∧ f .even x = f .down high := by
  obtain ⟨hlo, hhi⟩ := h.mem .down high
  rcases hlo.lt_or_eq with hfirst | hfirst
  · have hlo' : lo ≤ f .down high - 1 := by omega
    have hhi' : f .down high - 1 < hi := by omega
    have hb : b (f .down high - 1) < high := by
      rcases lt_trichotomy (b (f .down high - 1)) high with hb | hb | hb
      · exact hb
      · have := h.down hlo' hhi'
        rw [hb] at this
        omega
      · have := h.below .down hlo' hhi' hb
        omega
    obtain ⟨x, hx, hx'⟩ := exists_between (max_lt hlt hb)
    obtain ⟨hlow, hbreak⟩ := max_lt_iff.mp hx
    have habove := h.above .even hlo' hhi' hbreak
    exact ⟨x, hlow, hx', le_antisymm (h.le_of_lt _ _ hx') (by omega)⟩
  · obtain ⟨x, hx, hx'⟩ := exists_between hlt
    exact ⟨x, hx, hx', le_antisymm (h.le_of_lt _ _ hx') (hfirst.symm.le.trans (h.mem .even x).1)⟩

/-- One value on an open interval, exactly where it holds no breakpoint (R134). -/
theorem constant_iff (h : StepsAt b lo hi f) {low high : ℚ} :
    (∀ x y, low < x → x < high → low < y → y < high → f .even x = f .even y) ↔
      ∀ n, lo ≤ n → n < hi → ¬(low < b n ∧ b n < high) := by
  constructor
  · rintro hconst n hlo hhi ⟨hlow, hhigh⟩
    obtain ⟨x, hx, hx'⟩ := exists_between hlow
    obtain ⟨y, hy, hy'⟩ := exists_between hhigh
    have hle := h.below .even hlo hhi hx'
    have hgt := h.above .even hlo hhi hy
    rw [hconst x y hx (hx'.trans hhigh) (hlow.trans hy) hy'] at hle
    omega
  · intro hfree
    have hle : ∀ x y, low < x → y < high → f .even y ≤ f .even x := by
      intro x y hx hy
      by_contra! hgt
      obtain ⟨hlo, -⟩ := h.mem .even x
      have hhi := hgt.trans_le (h.mem .even y).2
      refine hfree _ hlo hhi ⟨hx.trans_le (not_lt.mp fun hb => ?_),
        (not_lt.mp fun hb => ?_ : b (f .even x) ≤ y).trans_lt hy⟩
      · exact lt_irrefl _ (h.above .even hlo hhi hb)
      · exact (h.below .even hlo hhi hb).not_gt hgt
    intro x y hx hx' hy hy'
    exact le_antisymm (hle y x hy hx') (hle x y hx hy')

section Operand

variable {α : Type} [DecidableEq α] {g : Int → α} {i : Denoted}

/-- The rounder's answer to a sticky operand is a value taken inside the interval (R134); `g` gives the
pattern of a code. -/
theorem roundDenoted_taken (h : StepsAt b lo hi f) (hsticky : i.sticky = true)
    (hlt : i.low < i.high) (pick : Nat × Nat) :
    ∃ x, i.holds x ∧ roundDenoted (fun tie x => g (f tie x)) i pick = g (f .even x) := by
  by_cases hlim : g (f .up i.low) = g (f .down i.high)
  · obtain ⟨x, hlow, hhigh, hx⟩ := h.exists_eq_up hlt
    exact ⟨x, ⟨hlow, hhigh⟩, by rw [roundDenoted_determined _ hsticky hlim, hx]⟩
  · exact ⟨i.point pick, i.point_mem hlt pick, roundDenoted_drawn _ hsticky hlim pick⟩

/-- Where rounding is constant on the interval, its value is the answer and nothing is drawn (R134). -/
theorem roundDenoted_constant (h : StepsAt b lo hi f) (hsticky : i.sticky = true)
    (hlt : i.low < i.high)
    (hconst : ∀ x y, i.holds x → i.holds y → g (f .even x) = g (f .even y)) :
    isDraw (fun tie x => g (f tie x)) i = false ∧
      ∀ x pick, i.holds x → roundDenoted (fun tie x => g (f tie x)) i pick = g (f .even x) := by
  obtain ⟨y, hylow, hyhigh, hy⟩ := h.exists_eq_up hlt
  obtain ⟨z, hzlow, hzhigh, hz⟩ := h.exists_eq_down hlt
  have hlim : g (f .up i.low) = g (f .down i.high) := by
    rw [← hy, ← hz]
    exact hconst y z ⟨hylow, hyhigh⟩ ⟨hzlow, hzhigh⟩
  refine ⟨by simp [isDraw, hsticky, hlim], fun x pick hx => ?_⟩
  rw [roundDenoted_determined _ hsticky hlim, ← hy]
  exact hconst y x ⟨hylow, hyhigh⟩ hx

end Operand

end StepsAt

/-! Rounding to an integer steps at the halves (spec 00_scope.md R12). -/

theorem lt_roundInt_iff (tie : Tie) (t : ℚ) (n : Int) :
    n < roundInt tie t ↔ Tie.passes tie n (n + 1 / 2) t := by
  obtain ⟨hlow, hhigh⟩ := floor_bracket t
  rcases lt_trichotomy n t.floor with hn | rfl | hn
  · have hgap : (n : ℚ) + 1 ≤ t.floor := by exact_mod_cast hn
    refine iff_of_true ?_ (.inl (by linarith))
    rcases roundInt_cases tie t with ⟨hr, -⟩ | ⟨hr, -⟩ <;> omega
  · rcases lt_trichotomy (t - t.floor) (1 / 2) with hd | hd | hd
    · have hfloor : roundInt tie t = t.floor := by
        rcases roundInt_cases tie t with ⟨hr, -⟩ | ⟨-, hr⟩
        · exact hr
        · linarith
      refine iff_of_false (by omega) ?_
      rintro (hgt | ⟨heq, -⟩) <;> linarith
    · have hne : ¬ (t.floor : ℚ) + 1 / 2 < t := by linarith
      have heq : t = t.floor + 1 / 2 := by linarith
      rw [roundInt_of_half tie hd, Tie.passes, or_iff_right hne, and_iff_right heq]
      cases tie.goesUp t.floor <;> simp
    · have hfloor : roundInt tie t = t.floor + 1 := by
        rcases roundInt_cases tie t with ⟨-, hr⟩ | ⟨hr, -⟩
        · linarith
        · exact hr
      exact iff_of_true (by omega) (.inl (by linarith))
  · have hgap : (t.floor : ℚ) + 1 ≤ n := by exact_mod_cast hn
    refine iff_of_false ?_ ?_
    · rcases roundInt_cases tie t with ⟨hr, -⟩ | ⟨hr, -⟩ <;> omega
    · rintro (hgt | ⟨heq, -⟩) <;> linarith

theorem roundInt_mono (tie : Tie) : Monotone (roundInt tie) := fun x y hxy => by
  by_contra! hlt
  have hx := (lt_roundInt_iff tie x _).mp hlt
  have hy := mt (lt_roundInt_iff tie y (roundInt tie y)).mpr (lt_irrefl _)
  rcases hxy.lt_or_eq with hlt' | rfl
  · rcases hx with hgt | ⟨heq, -⟩
    · exact hy (.inl (hgt.trans hlt'))
    · exact hy (.inl (heq ▸ hlt'))
  · exact hy hx

/-- Rounding to nearest even is odd (R131). -/
theorem rne_neg (t : ℚ) : rne (-t) = -rne t := by
  refine (rne_isNearestTiesToEven (-t)).unique ?_
  have habs : |-t - ((-rne t : Int) : ℚ)| = |t - rne t| := by
    rw [← abs_neg]
    push_cast
    ring_nf
  unfold IsNearestTiesToEven
  rw [habs]
  rcases rne_isNearestTiesToEven t with hlt | ⟨heq, heven⟩
  · exact .inl hlt
  · exact .inr ⟨heq, by omega⟩

end Sys2Proof.Proofs
end

section
/-! What an operand of the rounder denotes (spec 10_state.md R24, 43_rounder.md R134), and the sign. -/

namespace Sys2Proof.Proofs

open Sys2Proof.Machine

theorem magnitudeOf_low_lt_high (u : Unrounded) : (magnitudeOf u).low < (magnitudeOf u).high :=
  mul_lt_mul_of_pos_right (lt_add_one _) (pow2_pos _)

theorem logarithmOf_low_lt_high (u : UnroundedLog) :
    (logarithmOf u).low < (logarithmOf u).high :=
  mul_lt_mul_of_pos_right (lt_add_one _) (pow2_pos _)

/-- The points of a magnitude's interval are positive. -/
theorem pos_of_magnitudeOf_holds {u : Unrounded} {x : ℚ} (h : (magnitudeOf u).holds x) : 0 < x := by
  have hlow : 0 ≤ (magnitudeOf u).low := mul_nonneg (Nat.cast_nonneg _) (pow2_pos _).le
  exact hlow.trans_lt h.1

@[simp] theorem signFactor_mul_signFactor (sign : Bool) (x : ℚ) :
    signFactor sign * (signFactor sign * x) = x := by
  cases sign <;> simp [signFactor]

/-- The interval of a magnitude under a sign holds the values with that sign. -/
theorem Denoted.holds_withSign_iff {i : Denoted} (hsticky : i.sticky = true) (sign : Bool) (x : ℚ) :
    (i.withSign sign).holds x ↔ i.holds (signFactor sign * x) := by
  cases sign with
  | false => simp [Denoted.withSign, signFactor]
  | true =>
    simp only [Denoted.withSign, hsticky, if_true, Denoted.holds, signFactor, neg_one_mul]
    constructor <;> rintro ⟨hlow, hhigh⟩ <;> constructor <;> linarith

theorem Denoted.withSign_low_lt_high {i : Denoted} (h : i.low < i.high) (hsticky : i.sticky = true)
    (sign : Bool) : (i.withSign sign).low < (i.withSign sign).high := by
  cases sign with
  | false => exact h
  | true =>
    simp only [Denoted.withSign, hsticky, if_true]
    linarith

theorem Denoted.withSign_low_of_exact {i : Denoted} (hsticky : i.sticky = false) (sign : Bool) :
    (i.withSign sign).low = signFactor sign * i.low := by
  cases sign <;> simp [Denoted.withSign, hsticky, signFactor]

theorem Tie.passes_div {tie : Tie} {n : Int} {b x k : ℚ} (hk : 0 < k) :
    Tie.passes tie n (b / k) x ↔ Tie.passes tie n b (x * k) := by
  rw [Tie.passes, Tie.passes, div_lt_iff₀ hk, eq_div_iff hk.ne']

/-- No multiple of `2^grid` lies strictly between two neighbouring multiples of a power of two that is no
coarser. -/
theorem no_multiple_between {m z e grid : Int} (he : e ≤ grid) :
    ¬((m : ℚ) * pow2 e < z * pow2 grid ∧ z * pow2 grid < (m + 1) * pow2 e) := by
  obtain ⟨d, rfl⟩ : ∃ d : Nat, grid = d + e := ⟨(grid - e).toNat, by omega⟩
  have hgrid : (z : ℚ) * pow2 (d + e) = ((z * 2 ^ d : Int) : ℚ) * pow2 e := by
    rw [pow2_add, pow2_natCast]
    push_cast
    ring
  rintro ⟨hlow, hhigh⟩
  rw [hgrid] at hlow hhigh
  have hlow' : m < z * 2 ^ d := by exact_mod_cast lt_of_mul_lt_mul_right hlow (pow2_pos e).le
  have hhigh' : z * 2 ^ d < m + 1 := by
    exact_mod_cast lt_of_mul_lt_mul_right hhigh (pow2_pos e).le
  omega

end Sys2Proof.Proofs
end

section
/-! RoundF steps at `(i + 1/2) / 2^R` (spec 43_rounder.md R131, R132, R134). -/

namespace Sys2Proof.Proofs

open Sys2Proof.Machine

/-- The integer code that `v` rounds to (R131). -/
def Fix.roundedCode (c : Config) (tie : Tie) (v : ℚ) : Int :=
  clampInt c.fIMin c.fIMax (roundInt tie (v * 2 ^ c.fR))

theorem fIMin_le_fIMax (c : Config) : c.fIMin ≤ c.fIMax := by
  have hpos : (0 : Int) < 2 ^ (c.fN - 1) := by positivity
  unfold Config.fIMin Config.fIMax
  omega

theorem Fix.roundTie_toInt (c : Config) (tie : Tie) (v : ℚ) :
    (Fix.roundTie c tie v).toInt = Fix.roundedCode c tie v := by
  rw [Fix.roundTie, Fix.saturate_toInt, Fix.roundedCode]

theorem Fix.round_toInt (c : Config) (v : ℚ) :
    (Fix.round c v).toInt = Fix.roundedCode c .even v := Fix.roundTie_toInt c .even v

theorem Fix.round_eq_iff (c : Config) (v w : ℚ) :
    Fix.round c v = Fix.round c w ↔ Fix.roundedCode c .even v = Fix.roundedCode c .even w := by
  rw [← BitVec.toInt_inj, Fix.round_toInt, Fix.round_toInt]

/-- The pattern of a code is that of the code clamped once more. -/
theorem Fix.roundTie_eq (c : Config) :
    Fix.roundTie c = fun tie v => Fix.saturate c (Fix.roundedCode c tie v) := by
  funext tie v
  obtain ⟨hmin, hmax⟩ := clampInt_mem (fIMin_le_fIMax c) (roundInt tie (v * 2 ^ c.fR))
  apply BitVec.eq_of_toInt_eq
  rw [Fix.roundTie_toInt, Fix.saturate_toInt, Fix.roundedCode, clampInt_of_mem hmin hmax]

theorem Fix.stepsAt (c : Config) :
    StepsAt (fun i => (i + 1 / 2) / 2 ^ c.fR) c.fIMin c.fIMax (Fix.roundedCode c) :=
  .of_passes (fun _ _ => clampInt_mem (fIMin_le_fIMax c) _) fun tie v n hmin hmax => by
    rw [Tie.passes_div (by positivity), ← lt_roundInt_iff, Fix.roundedCode, clampInt]
    omega

end Sys2Proof.Proofs
end

section
/-! RoundL steps at `Lmin − 1` and at `(E + 1/2) / 2^R` (spec 43_rounder.md R127 to R129, R134). -/

namespace Sys2Proof.Proofs

open Sys2Proof.Machine

/-- The code that the logarithm `L` rounds to; `L_ERES` stands for the zero token (R127, R129). -/
def Lns.roundedCode (c : Config) (tie : Tie) (L : ℚ) : Int :=
  if L < c.lEMin / 2 ^ c.lR then
    if L < c.lEMin / 2 ^ c.lR - 1 ∨ (L = c.lEMin / 2 ^ c.lR - 1 ∧ tie ≠ .up) then c.lERes
    else c.lEMin
  else min (roundInt tie (L * 2 ^ c.lR)) c.lEMax

/-- The pattern of a sign and such a code. -/
def Lns.ofCode (c : Config) (sign : Bool) (E : Int) : BitVec c.lN :=
  if E = c.lERes then Lns.zero c else Lns.pack c sign E

/-- The breakpoint above a code (R134). -/
def Lns.breakpoint (c : Config) (E : Int) : ℚ :=
  if E = c.lERes then c.lEMin / 2 ^ c.lR - 1 else (E + 1 / 2) / 2 ^ c.lR

theorem lEMin_eq (c : Config) : c.lEMin = c.lERes + 1 := rfl

theorem lEMin_le_lEMax (c : Config) : c.lEMin ≤ c.lEMax := by
  have hpos : (0 : Int) < 2 ^ (c.lN - 2) := by positivity
  unfold Config.lEMin Config.lEMax
  omega

theorem Lns.lEMin_le_roundInt {c : Config} (tie : Tie) {L : ℚ} (h : c.lEMin / 2 ^ c.lR ≤ L) :
    c.lEMin ≤ roundInt tie (L * 2 ^ c.lR) := by
  rw [div_le_iff₀ (by positivity)] at h
  simpa [roundInt_intCast] using roundInt_mono tie h

theorem Lns.roundedCode_mem (c : Config) (tie : Tie) (L : ℚ) :
    c.lERes ≤ Lns.roundedCode c tie L ∧ Lns.roundedCode c tie L ≤ c.lEMax := by
  have hres := lEMin_eq c
  have hmax := lEMin_le_lEMax c
  unfold Lns.roundedCode
  split
  · split <;> omega
  · have hmin := Lns.lEMin_le_roundInt tie (not_lt.mp ‹_›)
    omega

theorem Lns.roundTie_eq (c : Config) (sign : Bool) :
    Lns.roundTie c sign = fun tie L => Lns.ofCode c sign (Lns.roundedCode c tie L) := by
  have hres := lEMin_eq c
  have hmax := lEMin_le_lEMax c
  funext tie L
  unfold Lns.roundTie Lns.roundedCode
  dsimp only
  split
  · split
    · rw [Lns.ofCode, if_pos rfl]
    · rw [Lns.ofCode, if_neg (by omega)]
  · have hmin := Lns.lEMin_le_roundInt tie (not_lt.mp ‹_›)
    rw [Lns.ofCode, if_neg (by omega)]

theorem Lns.round_eq (c : Config) (sign : Bool) (L : ℚ) :
    Lns.round c sign L = Lns.ofCode c sign (Lns.roundedCode c .even L) := by
  rw [Lns.round, Lns.roundTie_eq]

/-- R163 counts the codes from the zero token's. -/
theorem Lns.key_ofCode {c : Config} (sign : Bool) {E : Int} (hmin : c.lERes ≤ E) (hmax : E ≤ c.lEMax) :
    Lns.key c (Lns.ofCode c sign E) = (if sign then -1 else 1) * (E - c.lERes) := by
  have hres := lEMin_eq c
  unfold Lns.ofCode Lns.key
  split
  case isTrue hE => simp [hE]
  case isFalse hE =>
    have hcode := Lns.code_pack c sign hmin hmax
    obtain ⟨hzero, -⟩ := Lns.number_of_lEMin_le (p := Lns.pack c sign E) (by omega)
    rw [if_neg hzero, hcode, Lns.pack_msb]
    cases sign <;> simp <;> omega

theorem Lns.key_round (c : Config) (sign : Bool) (L : ℚ) :
    Lns.key c (Lns.round c sign L) =
      (if sign then -1 else 1) * (Lns.roundedCode c .even L - c.lERes) := by
  obtain ⟨hmin, hmax⟩ := Lns.roundedCode_mem c .even L
  rw [Lns.round_eq, Lns.key_ofCode sign hmin hmax]

theorem Lns.round_eq_iff (c : Config) (sign : Bool) (L L' : ℚ) :
    Lns.round c sign L = Lns.round c sign L' ↔
      Lns.roundedCode c .even L = Lns.roundedCode c .even L' := by
  constructor
  · intro h
    have hkey := congrArg (Lns.key c) h
    rw [Lns.key_round, Lns.key_round] at hkey
    cases sign <;> simp at hkey <;> omega
  · intro h
    rw [Lns.round_eq, Lns.round_eq, h]

/-- On `Lmin − 1` the tie goes to zero, whatever `L_ERES` is modulo 2 (R129). -/
def Lns.tieGoesUp (c : Config) (tie : Tie) (E : Int) : Bool :=
  if E = c.lERes then tie == .up else tie.goesUp E

/-- Up to `Lmin − 1` the code is the zero token's, and beyond it a number's (R129). -/
theorem Lns.lERes_lt_roundedCode_iff (c : Config) (tie : Tie) (L : ℚ) :
    c.lERes < Lns.roundedCode c tie L ↔
      c.lEMin / 2 ^ c.lR - 1 < L ∨ (L = c.lEMin / 2 ^ c.lR - 1 ∧ tie = .up) := by
  have hres := lEMin_eq c
  have hmax := lEMin_le_lEMax c
  unfold Lns.roundedCode
  split
  case isFalse h =>
    have hmin := Lns.lEMin_le_roundInt tie (not_lt.mp h)
    exact iff_of_true (by omega) (.inl (by linarith))
  case isTrue =>
    split
    case isTrue h =>
      refine iff_of_false (lt_irrefl _) ?_
      rintro (hgt | ⟨heq, hup⟩)
      · rcases h with hlt | ⟨heq, -⟩
        · exact lt_asymm hgt hlt
        · exact hgt.ne' heq
      · rcases h with hlt | ⟨-, hne⟩
        · exact hlt.ne heq
        · exact hne hup
    case isFalse h =>
      obtain ⟨hge, hne⟩ := not_or.mp h
      refine iff_of_true (by omega) ?_
      rcases (not_lt.mp hge).lt_or_eq with hgt | heq
      · exact .inl hgt
      · exact .inr ⟨heq.symm, not_not.mp fun hup => hne ⟨heq.symm, hup⟩⟩

/-- Between two numbers the logarithm is rounded as an integer (R127). -/
theorem Lns.lt_roundedCode_iff {c : Config} (tie : Tie) (L : ℚ) {n : Int} (hmin : c.lEMin ≤ n)
    (hmax : n < c.lEMax) :
    n < Lns.roundedCode c tie L ↔ Tie.passes tie n ((n + 1 / 2) / 2 ^ c.lR) L := by
  have hres := lEMin_eq c
  unfold Lns.roundedCode
  split
  case isTrue hL =>
    have hlt : L < (n + 1 / 2) / 2 ^ c.lR := by
      have hn : (c.lEMin : ℚ) ≤ n := by exact_mod_cast hmin
      refine hL.trans (div_lt_div_of_pos_right ?_ (by positivity))
      linarith
    refine iff_of_false (by split <;> omega) ?_
    rintro (hgt | ⟨heq, -⟩)
    · exact lt_asymm hlt hgt
    · exact hlt.ne heq
  case isFalse => rw [Tie.passes_div (by positivity), ← lt_roundInt_iff, lt_min_iff, and_iff_left hmax]

theorem Lns.breakpoint_lERes (c : Config) :
    Lns.breakpoint c c.lERes = c.lEMin / 2 ^ c.lR - 1 := if_pos rfl

theorem Lns.breakpoint_of_number {c : Config} {E : Int} (h : c.lEMin ≤ E) :
    Lns.breakpoint c E = (E + 1 / 2) / 2 ^ c.lR :=
  if_neg (by have := lEMin_eq c; omega)

theorem Lns.stepsAt (c : Config) :
    StepsAt (Lns.breakpoint c) c.lERes c.lEMax (Lns.roundedCode c) := by
  refine .of_lt_iff (goes := Lns.tieGoesUp c) (fun n => ?_) (fun n => ?_) (Lns.roundedCode_mem c)
    fun tie L n hlo hhi => ?_
  · simp [Lns.tieGoesUp, Tie.goesUp]
  · simp [Lns.tieGoesUp, Tie.goesUp]
  · by_cases hres : n = c.lERes
    · subst hres
      simpa [Lns.tieGoesUp, Lns.breakpoint_lERes] using Lns.lERes_lt_roundedCode_iff c tie L
    · have hmin : c.lEMin ≤ n := by have := lEMin_eq c; omega
      rw [Lns.lt_roundedCode_iff tie L hmin hhi, Lns.breakpoint_of_number hmin, Tie.passes,
        Lns.tieGoesUp, if_neg hres]

end Sys2Proof.Proofs
end

section
/-! PRND, LRND and FRND by the tag of the operand (spec 43_rounder.md R126, R130, R133, R135). -/

namespace Sys2Proof.Proofs

open Sys2Proof.Machine

section Rounder

variable {s : State}

theorem Posit.draws_of_undrawn {c : Config} {u : Unrounded}
    (h : Special.ofBits u.special ≠ .none ∨ u.sticky = false) : Posit.draws c u = false := by
  rcases h with htag | hsticky
  · simp [Posit.draws, htag]
  · simp [Posit.draws, isDraw, magnitudeOf, hsticky]

theorem Lns.draws_of_undrawn {c : Config} {u : UnroundedLog}
    (h : Special.ofBits u.special ≠ .none ∨ u.sticky = false) : Lns.draws c u = false := by
  rcases h with htag | hsticky
  · simp [Lns.draws, htag]
  · simp [Lns.draws, isDraw, logarithmOf, hsticky]

theorem Fix.draws_of_undrawn {c : Config} {u : Unrounded}
    (h : Special.ofBits u.special ≠ .none ∨ u.sticky = false) : Fix.draws c u = false := by
  rcases h with htag | hsticky
  · simp [Fix.draws, htag]
  · simp [Fix.draws, isDraw, magnitudeOf, hsticky]

/-- Where PRND draws nothing and its answer does not depend on the point picked, it is that answer. -/
theorem exec_prnd_of_undrawn {u : Unrounded} {r : BitVec s.cfg.pN} (hdraw : Posit.draws s.cfg u = false)
    (hr : ∀ pick, Posit.roundOperand s.cfg u pick = r) :
    exec (.prnd u) s = .next (s.answer (Posit.roundedResponse s.cfg r)) := by
  show execPrnd u s = _
  rw [execPrnd, hdraw, hr, State.countDraw_false, deliver_ok]

theorem exec_lrnd_of_undrawn {u : UnroundedLog} {r : BitVec s.cfg.lN}
    (hdraw : Lns.draws s.cfg u = false) (hr : ∀ pick, Lns.roundOperand s.cfg u pick = r) :
    exec (.lrnd u) s = .next (s.answer (Lns.roundedResponse s.cfg r)) := by
  show execLrnd u s = _
  rw [execLrnd, hdraw, hr, State.countDraw_false, deliver_ok]

theorem exec_frnd_of_undrawn {u : Unrounded} {r : BitVec s.cfg.fN} (hdraw : Fix.draws s.cfg u = false)
    (hr : ∀ pick, Fix.roundOperand s.cfg u pick = .ok r) :
    exec (.frnd u) s = .next (s.answer (Fix.roundedResponse s.cfg r)) := by
  show execFrnd u s = _
  rw [execFrnd, hdraw, hr, State.countDraw_false]
  rfl

/-- FRND of NaR (R111, R135). -/
theorem exec_frnd_of_nar {u : Unrounded} (h : u.special = Special.nar.bits) :
    exec (.frnd u) s = .next (s.answer (.faulted .noImage)) := by
  have htag : Special.ofBits u.special = .nar := by rw [h, Special.ofBits_bits]
  have herror : ∀ pick, Fix.roundOperand s.cfg u pick = .error .noImage := fun pick => by
    rw [Fix.roundOperand, htag]
  show execFrnd u s = _
  rw [execFrnd, Fix.draws_of_undrawn (.inl (by simp [htag])), herror, State.countDraw_false]
  rfl

/-! An operand tagged None, without the sticky flag. -/

theorem Lns.roundOperand_exact {c : Config} {u : UnroundedLog} (htag : u.special = Special.none.bits)
    (hsticky : u.sticky = false) (pick : Nat × Nat) :
    Lns.roundOperand c u pick = Lns.round c u.sign (u.lmant * pow2 u.lexp2) := by
  rw [Lns.roundOperand, htag, Special.ofBits_bits]
  exact roundDenoted_exact _ hsticky pick

theorem exec_lrnd_exact {u : UnroundedLog} (htag : u.special = Special.none.bits)
    (hsticky : u.sticky = false) :
    exec (.lrnd u) s = .next (s.answer (Lns.roundedResponse s.cfg
      (Lns.round s.cfg u.sign (u.lmant * pow2 u.lexp2)))) :=
  exec_lrnd_of_undrawn (Lns.draws_of_undrawn (.inr hsticky)) (Lns.roundOperand_exact htag hsticky)

theorem Fix.round_zero (c : Config) : Fix.round c 0 = Fix.zero c := by
  have hzero : roundInt .even (0 * 2 ^ c.fR) = 0 := by
    rw [zero_mul]; exact_mod_cast roundInt_intCast .even 0
  have hsat := Fix.saturate_toInt_self c (Fix.zero c)
  rw [Fix.round, Fix.roundTie, hzero]
  simpa [Fix.zero] using hsat

/-- The arm for a zero mantissa is no exception: 0 rounds to the zero pattern. -/
theorem Fix.roundOperand_exact {c : Config} {u : Unrounded} (htag : u.special = Special.none.bits)
    (hsticky : u.sticky = false) (pick : Nat × Nat) :
    Fix.roundOperand c u pick =
      .ok (Fix.round c (signFactor u.sign * (u.mant * pow2 u.exp2))) := by
  rw [Fix.roundOperand, htag, Special.ofBits_bits]
  dsimp only
  split
  case isTrue h => rw [h.1, Nat.cast_zero, zero_mul, mul_zero, Fix.round_zero]
  case isFalse =>
    rw [roundDenoted_exact _ ((Denoted.withSign_sticky _ _).trans hsticky),
      Denoted.withSign_low_of_exact hsticky, Fix.round]
    rfl

theorem exec_frnd_exact {u : Unrounded} (htag : u.special = Special.none.bits)
    (hsticky : u.sticky = false) :
    exec (.frnd u) s = .next (s.answer (Fix.roundedResponse s.cfg
      (Fix.round s.cfg (signFactor u.sign * (u.mant * pow2 u.exp2))))) :=
  exec_frnd_of_undrawn (Fix.draws_of_undrawn (.inr hsticky)) (Fix.roundOperand_exact htag hsticky)

theorem Posit.roundMagnitude_of_pos {c : Config} {x : ℚ} (hx : 0 < x) (sign : Bool) :
    Posit.roundMagnitude c sign .even x = Posit.round c (signFactor sign * x) := by
  have habs : |signFactor sign * x| = x := by
    cases sign <;> simp [signFactor, abs_of_pos hx]
  have hne : signFactor sign * x ≠ 0 := by
    cases sign <;> simp [signFactor, hx.ne']
  have hsign : decide (signFactor sign * x < 0) = sign := by
    cases sign <;> simp [signFactor, hx, hx.le]
  rw [Posit.round, if_neg hne, habs, hsign, Posit.roundMagnitude]

theorem Posit.round_zero (c : Config) : Posit.round c 0 = Posit.zero c := if_pos rfl

theorem Posit.roundOperand_exact {c : Config} {u : Unrounded} (htag : u.special = Special.none.bits)
    (hsticky : u.sticky = false) (pick : Nat × Nat) :
    Posit.roundOperand c u pick = Posit.round c (signFactor u.sign * (u.mant * pow2 u.exp2)) := by
  rw [Posit.roundOperand, htag, Special.ofBits_bits]
  dsimp only
  split
  case isTrue h => rw [h.1, Nat.cast_zero, zero_mul, mul_zero, Posit.round_zero]
  case isFalse h =>
    have hmant : u.mant ≠ 0 := fun h0 => h ⟨h0, hsticky⟩
    have hpos : (0 : ℚ) < u.mant * pow2 u.exp2 :=
      mul_pos (by exact_mod_cast Nat.pos_of_ne_zero hmant) (pow2_pos _)
    rw [roundDenoted_exact _ hsticky]
    exact Posit.roundMagnitude_of_pos hpos u.sign

theorem exec_prnd_exact {u : Unrounded} (htag : u.special = Special.none.bits)
    (hsticky : u.sticky = false) :
    exec (.prnd u) s = .next (s.answer (Posit.roundedResponse s.cfg
      (Posit.round s.cfg (signFactor u.sign * (u.mant * pow2 u.exp2))))) :=
  exec_prnd_of_undrawn (Posit.draws_of_undrawn (.inr hsticky)) (Posit.roundOperand_exact htag hsticky)

/-! An operand with another tag (R135). -/

theorem exec_prnd_of_tag {u : Unrounded} {r : BitVec s.cfg.pN} (x : Special)
    (htag : u.special = x.bits) (hx : x ≠ .none)
    (hr : ∀ pick, Posit.roundOperand s.cfg u pick = r) :
    exec (.prnd u) s = .next (s.answer (Posit.roundedResponse s.cfg r)) :=
  exec_prnd_of_undrawn (Posit.draws_of_undrawn (.inl (by rwa [htag, Special.ofBits_bits]))) hr

theorem exec_lrnd_of_tag {u : UnroundedLog} {r : BitVec s.cfg.lN} (x : Special)
    (htag : u.special = x.bits) (hx : x ≠ .none)
    (hr : ∀ pick, Lns.roundOperand s.cfg u pick = r) :
    exec (.lrnd u) s = .next (s.answer (Lns.roundedResponse s.cfg r)) :=
  exec_lrnd_of_undrawn (Lns.draws_of_undrawn (.inl (by rwa [htag, Special.ofBits_bits]))) hr

theorem exec_frnd_of_tag {u : Unrounded} {r : BitVec s.cfg.fN} (x : Special)
    (htag : u.special = x.bits) (hx : x ≠ .none)
    (hr : ∀ pick, Fix.roundOperand s.cfg u pick = .ok r) :
    exec (.frnd u) s = .next (s.answer (Fix.roundedResponse s.cfg r)) :=
  exec_frnd_of_undrawn (Fix.draws_of_undrawn (.inl (by rwa [htag, Special.ofBits_bits]))) hr

end Rounder

/-- No tuple in the range of a decoder is tagged Inf (R25). -/
theorem not_infTag_of_inRange (c : Config) :
    (∀ d, PositDec.inRange c d = true → d.special ≠ Special.inf.bits) ∧
      (∀ d, LnsDec.inRange c d = true → d.special ≠ Special.inf.bits) ∧
      (∀ d, FixDec.inRange c d = true → d.special ≠ Special.inf.bits) := by
  refine ⟨fun d h htag => ?_, fun d h htag => ?_, fun d h htag => ?_⟩
  · simp [PositDec.inRange, htag] at h
  · simp [LnsDec.inRange, htag] at h
  · simp [FixDec.inRange, htag] at h

/-- Settles O36: each tag selects its arm of `roundOperand`, a zero mantissa without the sticky flag is
tagged None, and what a decoder answers is in range. -/
theorem rounderHonoursTheSpecialTags : Obligations.RounderHonoursTheSpecialTags := by
  refine ⟨fun s sign mant exp2 sticky => ⟨?_, ?_, ?_, ?_, ?_, ?_, ?_, ?_⟩,
    fun s sign lmant lexp2 sticky => ⟨?_, ?_, ?_⟩, fun c => ?_⟩
  · exact exec_prnd_of_tag .nar rfl (by decide) fun _ => rfl
  · exact exec_prnd_of_tag .zero rfl (by decide) fun _ => rfl
  · exact exec_prnd_of_tag .inf rfl (by decide) fun _ => rfl
  · exact exec_prnd_of_undrawn (Posit.draws_of_undrawn (.inr rfl)) fun _ => rfl
  · exact exec_frnd_of_nar rfl
  · exact exec_frnd_of_tag .zero rfl (by decide) fun _ => rfl
  · exact exec_frnd_of_tag .inf rfl (by decide) fun _ => rfl
  · exact exec_frnd_of_undrawn (Fix.draws_of_undrawn (.inr rfl)) fun _ => rfl
  · exact exec_lrnd_of_tag .nar rfl (by decide) fun _ => rfl
  · exact exec_lrnd_of_tag .zero rfl (by decide) fun _ => rfl
  · refine exec_lrnd_of_tag .inf rfl (by decide) fun _ => ?_
    cases sign <;> rfl
  · obtain ⟨hposit, hlns, hfix⟩ := not_infTag_of_inRange c
    exact ⟨fun p => hposit _ (Posit.decode_inRange c p), fun p => hlns _ (Lns.decode_inRange c p),
      fun p => hfix _ (Fix.decode_inRange c p)⟩

end Sys2Proof.Proofs
end

section
/-! LRND and FRND (spec 43_rounder.md R127 to R134, R137). -/

namespace Sys2Proof.Proofs

open Sys2Proof.Machine

/-! Without the sticky flag. -/

theorem Lns.round_of_le {c : Config} (sign : Bool) {L : ℚ} (h : L ≤ c.lEMin / 2 ^ c.lR - 1) :
    Lns.round c sign L = Lns.zero c := by
  have hcode : ¬ c.lERes < Lns.roundedCode c .even L := by
    rw [Lns.lERes_lt_roundedCode_iff]
    rintro (hgt | ⟨-, htie⟩)
    · linarith
    · cases htie
  have hmem := (Lns.roundedCode_mem c .even L).1
  rw [Lns.round_eq, Lns.ofCode, if_pos (by omega)]

theorem Lns.round_of_underflow {c : Config} (sign : Bool) {L : ℚ} (h : c.lEMin / 2 ^ c.lR - 1 < L)
    (h' : L < c.lEMin / 2 ^ c.lR) : Lns.round c sign L = Lns.pack c sign c.lEMin := by
  rcases Lns.roundTie_cases c sign .even L with ⟨hle, -⟩ | ⟨-, -, hr⟩ | ⟨hge, -⟩
  · linarith
  · exact hr
  · linarith

theorem Lns.round_of_ge {c : Config} (sign : Bool) {L : ℚ} (h : c.lEMin / 2 ^ c.lR ≤ L) :
    (Lns.round c sign L).msb = sign ∧
      Lns.code c (Lns.round c sign L) = min (rne (L * 2 ^ c.lR)) c.lEMax := by
  have hmin := Lns.lEMin_le_roundInt .even h
  have hres := lEMin_eq c
  have hmax := lEMin_le_lEMax c
  have hround : Lns.round c sign L = Lns.pack c sign (min (rne (L * 2 ^ c.lR)) c.lEMax) := by
    rcases Lns.roundTie_cases c sign .even L with ⟨hle, -⟩ | ⟨-, hlt, -⟩ | ⟨-, hr⟩
    · linarith
    · linarith
    · exact hr
  rw [hround]
  refine ⟨Lns.pack_msb c sign _, Lns.code_pack c sign ?_ (min_le_right _ _)⟩
  unfold rne
  omega

/-- Settles O34, by the three regions of R127. -/
theorem lrndRoundsTheLogarithm : Obligations.LrndRoundsTheLogarithm := by
  intro s sign lmant lexp2 L Lmin
  exact ⟨_, _, exec_lrnd_exact rfl rfl, exec_ldec s _, Lns.round_of_le sign,
    Lns.round_of_underflow sign, Lns.round_of_ge sign⟩

/-- Settles O35. -/
theorem frndRoundsAndSaturates : Obligations.FrndRoundsAndSaturates := by
  intro s sign mant exp2 v
  exact ⟨_, _, exec_frnd_exact rfl rfl, exec_fdec s _, Fix.round_toInt s.cfg v⟩

/-! The laws of R137. -/

theorem Lns.round_ne_nar (c : Config) (sign : Bool) (L : ℚ) : Lns.round c sign L ≠ Lns.nar c := by
  obtain ⟨hmin, hmax⟩ := Lns.roundedCode_mem c .even L
  rw [Lns.round_eq, Lns.ofCode]
  split
  case isTrue => exact (Lns.nar_ne_zero c).symm
  case isFalse h =>
    have hcode := Lns.code_pack c sign hmin hmax
    have hres := lEMin_eq c
    exact (Lns.number_of_lEMin_le (by omega)).2

theorem Lns.round_sign (c : Config) (sign : Bool) (L : ℚ) :
    Lns.round c sign L = Lns.zero c ∨ (Lns.round c sign L).msb = sign := by
  rw [Lns.round_eq, Lns.ofCode]
  split
  · exact .inl rfl
  · exact .inr (Lns.pack_msb c sign _)

/-- An exact logarithm keeps its sign and its code. -/
theorem Lns.round_exact {c : Config} (sign : Bool) {E : Int} (hmin : c.lEMin ≤ E) (hmax : E ≤ c.lEMax) :
    (Lns.round c sign (E / 2 ^ c.lR)).msb = sign ∧
      Lns.code c (Lns.round c sign (E / 2 ^ c.lR)) = E := by
  have hge : (c.lEMin : ℚ) / 2 ^ c.lR ≤ E / 2 ^ c.lR :=
    div_le_div_of_nonneg_right (by exact_mod_cast hmin) (by positivity)
  obtain ⟨hsign, hcode⟩ := Lns.round_of_ge sign hge
  refine ⟨hsign, hcode.trans ?_⟩
  rw [div_mul_cancel₀ _ (by positivity), rne, roundInt_intCast, min_eq_left hmax]

theorem Lns.key_round_mono (c : Config) {L L' : ℚ} (h : L ≤ L') :
    Lns.key c (Lns.round c false L) ≤ Lns.key c (Lns.round c false L') ∧
      Lns.key c (Lns.round c true L') ≤ Lns.key c (Lns.round c true L) := by
  have hmono := (Lns.stepsAt c).mono .even h
  simp only [Lns.key_round]
  simp
  omega

theorem Fix.round_val (c : Config) (p : BitVec c.fN) : Fix.round c (Fix.val c p) = p := by
  rw [Fix.round, Fix.roundTie, Fix.val, div_mul_cancel₀ _ (by positivity), roundInt_intCast,
    Fix.saturate_toInt_self]

theorem Fix.val_round_mono (c : Config) {v w : ℚ} (h : v ≤ w) :
    Fix.val c (Fix.round c v) ≤ Fix.val c (Fix.round c w) := by
  have hmono := (Fix.stepsAt c).mono .even h
  rw [Fix.val, Fix.val, Fix.round_toInt, Fix.round_toInt]
  exact div_le_div_of_nonneg_right (by exact_mod_cast hmono) (by positivity)

/-- Symmetric in sign where neither the value nor its negative is clamped (R137). -/
theorem Fix.round_neg {c : Config} {v : ℚ} (hmin : c.fIMin < rne (v * 2 ^ c.fR))
    (hmax : rne (v * 2 ^ c.fR) ≤ c.fIMax) : Fix.round c (-v) = -Fix.round c v := by
  have hends : c.fIMax = -c.fIMin - 1 := by unfold Config.fIMax Config.fIMin; omega
  have hcode : (Fix.round c v).toInt = rne (v * 2 ^ c.fR) :=
    (Fix.round_toInt c v).trans (clampInt_of_mem hmin.le hmax)
  have hneg : (Fix.round c (-v)).toInt = -rne (v * 2 ^ c.fR) := by
    rw [Fix.round_toInt, Fix.roundedCode, neg_mul, ← rne, rne_neg]
    exact clampInt_of_mem (by omega) (by omega)
  apply BitVec.eq_of_toInt_eq
  rw [hneg, BitVec.toInt_neg_of_ne_intMin, hcode]
  intro hintMin
  rw [hintMin, BitVec.toInt_intMin_of_pos (by have := c.fN_ge; omega)] at hcode
  exact hmin.ne hcode

/-- Settles O32, law by law. -/
theorem lnsAndFixedRoundingLaws : Obligations.LnsAndFixedRoundingLaws :=
  ⟨fun _ sign _ => Lns.round_exact sign,
    fun c sign L => ⟨Lns.round_ne_nar c sign L, Lns.round_sign c sign L⟩,
    fun c _ _ => Lns.key_round_mono c, Fix.round_val, fun c _ _ => Fix.val_round_mono c,
    fun _ _ => Fix.round_neg⟩

/-! With the sticky flag. -/

section Sticky

variable {s : State}

theorem Lns.roundOperand_sticky {c : Config} {u : UnroundedLog}
    (htag : u.special = Special.none.bits) (pick : Nat × Nat) :
    Lns.roundOperand c u pick =
      roundDenoted (fun tie L => Lns.ofCode c u.sign (Lns.roundedCode c tie L)) (logarithmOf u) pick := by
  rw [Lns.roundOperand, htag, Special.ofBits_bits, Lns.roundTie_eq]

theorem Lns.draws_sticky {c : Config} {u : UnroundedLog} (htag : u.special = Special.none.bits) :
    Lns.draws c u =
      isDraw (fun tie L => Lns.ofCode c u.sign (Lns.roundedCode c tie L)) (logarithmOf u) := by
  rw [Lns.draws, htag, Special.ofBits_bits, Lns.roundTie_eq]
  rfl

/-- LRND's half of O38. -/
theorem lrnd_sticky {u : UnroundedLog} (htag : u.special = Special.none.bits)
    (hsticky : u.sticky = true) :
    (∃ t x, exec (.lrnd u) s = .next t ∧ (logarithmOf u).holds x ∧
      t.resp = some (Lns.roundedResponse s.cfg (Lns.round s.cfg u.sign x))) ∧
    ((∀ x y, (logarithmOf u).holds x → (logarithmOf u).holds y →
        Lns.round s.cfg u.sign x = Lns.round s.cfg u.sign y) →
      ∀ x, (logarithmOf u).holds x →
        exec (.lrnd u) s = .next (s.answer (Lns.roundedResponse s.cfg
          (Lns.round s.cfg u.sign x)))) := by
  have hlt := logarithmOf_low_lt_high u
  simp only [Lns.round_eq]
  constructor
  · obtain ⟨x, hx, hr⟩ := (Lns.stepsAt s.cfg).roundDenoted_taken (g := Lns.ofCode s.cfg u.sign)
      hsticky hlt (drawOf s 0b01010#5 u.sign u.lmant u.lexp2)
    refine ⟨_, x, rfl, hx, ?_⟩
    rw [State.answer_resp, Lns.roundOperand_sticky htag, hr]
  · intro hconst x hx
    obtain ⟨hdraw, hr⟩ := (Lns.stepsAt s.cfg).roundDenoted_constant hsticky hlt hconst
    exact exec_lrnd_of_undrawn ((Lns.draws_sticky htag).trans hdraw) fun pick =>
      (Lns.roundOperand_sticky htag pick).trans (hr x pick hx)

theorem Fix.roundOperand_sticky {c : Config} {u : Unrounded}
    (htag : u.special = Special.none.bits) (hsticky : u.sticky = true) (pick : Nat × Nat) :
    Fix.roundOperand c u pick =
      .ok (roundDenoted (fun tie v => Fix.saturate c (Fix.roundedCode c tie v))
        ((magnitudeOf u).withSign u.sign) pick) := by
  rw [Fix.roundOperand, htag, Special.ofBits_bits, Fix.roundTie_eq]
  exact if_neg (by simp [hsticky])

theorem Fix.draws_sticky {c : Config} {u : Unrounded} (htag : u.special = Special.none.bits) :
    Fix.draws c u =
      isDraw (fun tie v => Fix.saturate c (Fix.roundedCode c tie v))
        ((magnitudeOf u).withSign u.sign) := by
  rw [Fix.draws, htag, Special.ofBits_bits, Fix.roundTie_eq]
  rfl

theorem Fix.round_eq (c : Config) (v : ℚ) :
    Fix.round c v = Fix.saturate c (Fix.roundedCode c .even v) := by
  rw [Fix.round, Fix.roundTie_eq]

/-- FRND's half of O38: the operand denotes an interval of magnitudes, which is rounded under the sign. -/
theorem frnd_sticky {u : Unrounded} (htag : u.special = Special.none.bits)
    (hsticky : u.sticky = true) :
    (∃ t x, exec (.frnd u) s = .next t ∧ (magnitudeOf u).holds x ∧
      t.resp = some (Fix.roundedResponse s.cfg (Fix.round s.cfg (signFactor u.sign * x)))) ∧
    ((∀ x y, (magnitudeOf u).holds x → (magnitudeOf u).holds y →
        Fix.round s.cfg (signFactor u.sign * x) = Fix.round s.cfg (signFactor u.sign * y)) →
      ∀ x, (magnitudeOf u).holds x →
        exec (.frnd u) s = .next (s.answer (Fix.roundedResponse s.cfg
          (Fix.round s.cfg (signFactor u.sign * x))))) := by
  have hsticky' : ((magnitudeOf u).withSign u.sign).sticky = true :=
    (Denoted.withSign_sticky _ _).trans hsticky
  have hlt := Denoted.withSign_low_lt_high (magnitudeOf_low_lt_high u) hsticky u.sign
  have hholds := Denoted.holds_withSign_iff (i := magnitudeOf u) hsticky u.sign
  simp only [Fix.round_eq]
  constructor
  · obtain ⟨v, hv, hr⟩ := (Fix.stepsAt s.cfg).roundDenoted_taken (g := Fix.saturate s.cfg)
      hsticky' hlt (drawOf s 0b10010#5 u.sign u.mant u.exp2)
    refine ⟨_, _, deliver_eq_answer _ _, (hholds v).mp hv, ?_⟩
    rw [State.answer_resp, Fix.roundOperand_sticky htag hsticky, hr, signFactor_mul_signFactor]
    rfl
  · intro hconst x hx
    obtain ⟨hdraw, hr⟩ := (Fix.stepsAt s.cfg).roundDenoted_constant (g := Fix.saturate s.cfg)
      hsticky' hlt fun v w hv hw => by
        simpa using hconst _ _ ((hholds v).mp hv) ((hholds w).mp hw)
    have hx' := (hholds (signFactor u.sign * x)).mpr (by rwa [signFactor_mul_signFactor])
    refine exec_frnd_of_undrawn ((Fix.draws_sticky htag).trans hdraw) fun pick => ?_
    rw [Fix.roundOperand_sticky htag hsticky, hr _ pick hx']

end Sticky

/-- Settles O38. -/
theorem stickyLrndAndFrndAnswerAValueTaken : Obligations.StickyLrndAndFrndAnswerAValueTaken :=
  ⟨fun _ _ htag hsticky => lrnd_sticky htag hsticky, fun _ _ htag hsticky => frnd_sticky htag hsticky⟩

/-! Breakpoints (R134). -/

theorem Lns.round_constant_iff (c : Config) (sign : Bool) (low high : ℚ) :
    (∀ x y, low < x → x < high → low < y → y < high → Lns.round c sign x = Lns.round c sign y) ↔
      ¬(low < (c.lEMin : ℚ) / 2 ^ c.lR - 1 ∧ (c.lEMin : ℚ) / 2 ^ c.lR - 1 < high) ∧
      ∀ E : Int, c.lEMin ≤ E → E < c.lEMax →
        ¬(low < ((E : ℚ) + 1 / 2) / 2 ^ c.lR ∧ ((E : ℚ) + 1 / 2) / 2 ^ c.lR < high) := by
  have hres := lEMin_eq c
  have hmax := lEMin_le_lEMax c
  simp only [Lns.round_eq_iff, (Lns.stepsAt c).constant_iff]
  constructor
  · intro hfree
    refine ⟨Lns.breakpoint_lERes c ▸ hfree c.lERes (le_refl _) (by omega), fun E hE hE' => ?_⟩
    rw [← Lns.breakpoint_of_number hE]
    exact hfree E (by omega) hE'
  · rintro ⟨hzero, hnumbers⟩ E hE hE'
    rcases hE.lt_or_eq with hlt | rfl
    · rw [Lns.breakpoint_of_number (by omega)]
      exact hnumbers E (by omega) hE'
    · rwa [Lns.breakpoint_lERes]

theorem Fix.round_constant_iff (c : Config) (low high : ℚ) :
    (∀ x y, low < x → x < high → low < y → y < high → Fix.round c x = Fix.round c y) ↔
      ∀ i : Int, c.fIMin ≤ i → i < c.fIMax →
        ¬(low < ((i : ℚ) + 1 / 2) / 2 ^ c.fR ∧ ((i : ℚ) + 1 / 2) / 2 ^ c.fR < high) := by
  simp only [Fix.round_eq_iff, (Fix.stepsAt c).constant_iff]

/-- A half of a code is an odd multiple of half a unit. -/
theorem half_code_eq (E : Int) (R : Nat) :
    ((E : ℚ) + 1 / 2) / 2 ^ R = ((2 * E + 1 : Int) : ℚ) * pow2 (-(R : Int) - 1) := by
  rw [show -(R : Int) - 1 = -((R + 1 : Nat) : Int) by push_cast; ring]
  unfold pow2
  rw [zpow_neg, zpow_natCast, pow_succ]
  push_cast
  field_simp

/-- R134's condition on LRND's operand. -/
theorem Lns.round_of_fine {c : Config} {u : UnroundedLog} {x y : ℚ}
    (hfine : u.lexp2 ≤ -(c.lR : Int) - 1) (hx : (logarithmOf u).holds x) (hy : (logarithmOf u).holds y) :
    Lns.round c u.sign x = Lns.round c u.sign y := by
  refine (Lns.round_constant_iff c u.sign _ _).mpr ⟨?_, fun E _ _ => ?_⟩ x y hx.1 hx.2 hy.1 hy.2
  · have hzero : (c.lEMin : ℚ) / 2 ^ c.lR - 1 =
        ((2 * c.lEMin - 2 * 2 ^ c.lR : Int) : ℚ) * pow2 (-(c.lR : Int) - 1) := by
      have hhalf := half_code_eq (c.lEMin - 2 ^ c.lR) c.lR
      have hunit := half_code_eq 0 c.lR
      push_cast at hhalf hunit ⊢
      field_simp at hhalf hunit ⊢
      linarith
    rw [hzero]
    exact no_multiple_between hfine
  · rw [half_code_eq]
    exact no_multiple_between hfine

/-- R134's condition on FRND's operand, under either sign. -/
theorem Fix.round_of_fine {c : Config} {u : Unrounded} {x y : ℚ} (hfine : u.exp2 ≤ -(c.fR : Int) - 1)
    (hx : (magnitudeOf u).holds x) (hy : (magnitudeOf u).holds y) :
    Fix.round c x = Fix.round c y ∧ Fix.round c (-x) = Fix.round c (-y) := by
  have hfree (i : Int) := no_multiple_between (m := u.mant) (z := 2 * i + 1) hfine
  obtain ⟨hxlow, hxhigh⟩ := hx
  obtain ⟨hylow, hyhigh⟩ := hy
  constructor
  · refine (Fix.round_constant_iff c _ _).mpr (fun i _ _ => ?_) x y hxlow hxhigh hylow hyhigh
    rw [half_code_eq]
    exact hfree i
  · refine (Fix.round_constant_iff c (-(magnitudeOf u).high) (-(magnitudeOf u).low)).mpr
      (fun i _ _ => ?_) (-x) (-y) (by linarith) (by linarith) (by linarith) (by linarith)
    rw [half_code_eq]
    rintro ⟨hlow, hhigh⟩
    refine hfree (-i - 1) ⟨?_, ?_⟩
    · simp only [magnitudeOf] at hhigh
      push_cast at hhigh ⊢
      linarith
    · simp only [magnitudeOf] at hlow
      push_cast at hlow ⊢
      linarith

end Sys2Proof.Proofs
end

section
/-! PRND without the sticky flag (spec 43_rounder.md R126), and the host's conversions (R136). -/

namespace Sys2Proof.Proofs

open Sys2Proof.Machine

/-- Settles O33: the tuple is that of the pattern, which PENC inverts. -/
theorem prndRoundsTheDenotedValue : Obligations.PrndRoundsTheDenotedValue := fun s _ _ _ =>
  ⟨_, _, exec_prnd_exact rfl rfl, exec_pdec s _, exec_penc_of_ok (Posit.encode_decode s.cfg _)⟩

/-- The operand denotes `x` exactly (R24): by its tag, or as sign, integer and power of two. -/
def DenotesExactly (u : Unrounded) (x : ℚ) : Prop :=
  (u.special = Special.zero.bits ∧ x = 0) ∨
    (u.special = Special.none.bits ∧ u.sticky = false ∧
      x = signFactor u.sign * (u.mant * pow2 u.exp2))

/-- PRND and FRND round what such an operand denotes. -/
theorem exec_prnd_frnd_of_denotesExactly {u : Unrounded} {x : ℚ} (h : DenotesExactly u x)
    (s : State) :
    exec (.prnd u) s = .next (s.answer (Posit.roundedResponse s.cfg (Posit.round s.cfg x))) ∧
      exec (.frnd u) s = .next (s.answer (Fix.roundedResponse s.cfg (Fix.round s.cfg x))) := by
  rcases h with ⟨htag, rfl⟩ | ⟨htag, hsticky, rfl⟩
  · rw [Posit.round_zero, Fix.round_zero]
    constructor
    · refine exec_prnd_of_tag .zero htag (by decide) fun _ => ?_
      rw [Posit.roundOperand, htag, Special.ofBits_bits]
    · refine exec_frnd_of_tag .zero htag (by decide) fun _ => ?_
      rw [Fix.roundOperand, htag, Special.ofBits_bits]
  · exact ⟨exec_prnd_exact htag hsticky, exec_frnd_exact htag hsticky⟩

theorem pow2_sub_natCast (e : Int) (n : Nat) : pow2 (e - n) = pow2 e / 2 ^ n := by
  unfold pow2
  rw [zpow_sub₀ (by norm_num), zpow_natCast]

theorem Posit.unrounded_denotesExactly {c : Config} {p : BitVec c.pN} {x : ℚ}
    (h : Posit.val c p = some x) : DenotesExactly (unroundedOfPosit c (Posit.decode c p)) x := by
  rcases (Posit.val_eq_some_iff c p x).mp h with ⟨rfl, rfl⟩ | ⟨hzero, hnar, rfl⟩
  · rw [(Posit.decode_special c).1]
    exact .inl ⟨rfl, rfl⟩
  · rw [Posit.decode_of_number hzero hnar]
    refine .inr ⟨rfl, rfl, ?_⟩
    simp only [unroundedOfPosit, Posit.magnitude, Posit.tupleMagnitude, pow2_sub_natCast]
    ring

theorem Fix.unrounded_denotesExactly (c : Config) (p : BitVec c.fN) :
    DenotesExactly (unroundedOfFix c (Fix.decode c p)) (Fix.val c p) := by
  by_cases hzero : p = Fix.zero c
  · subst hzero
    rw [Fix.decode_zero]
    exact .inl ⟨rfl, by simp [Fix.val, Fix.zero]⟩
  · refine .inr ⟨if_neg hzero, rfl, ?_⟩
    have hvalue := Fix.value_eq c (Fix.decode c p)
    rw [Fix.signed_magnitude_decode] at hvalue
    rw [Fix.val, ← hvalue]
    change signFactor _ * _ = _
    have hpow : pow2 (-(c.fR : Int)) = 1 / 2 ^ c.fR := by
      rw [← zero_sub, pow2_sub_natCast, pow2_zero]
    simp only [unroundedOfFix, hpow]
    push_cast
    field_simp

/-- The tuple of an LNS number denotes its logarithm: quotient and remainder make up the code (R136). -/
theorem exec_lnsToLns_of_number {c : Config} {p : BitVec c.lN} (hzero : p ≠ Lns.zero c)
    (hnar : p ≠ Lns.nar c) (s : State) :
    exec (lnsToLns c (Lns.decode c p)) s = .next (s.answer (Lns.roundedResponse s.cfg
      (Lns.round s.cfg p.msb (Lns.code c p / 2 ^ c.lR)))) := by
  have hrem := Int.toNat_of_nonneg
    (Int.emod_nonneg (Lns.code c p) (by positivity : (2 : Int) ^ c.lR ≠ 0))
  have hcode := Int.ediv_mul_add_emod (Lns.code c p) (2 ^ c.lR)
  rw [lnsToLns, exec_lrnd_exact (congrArg LnsDec.special (Lns.decode_of_number hzero hnar)) rfl]
  simp only [unroundedOfLns, Lns.decode_of_number hzero hnar, hrem, hcode]
  rw [← zero_sub, pow2_sub_natCast, pow2_zero, mul_one_div]

/-- Settles O58: each operand denotes the value of its pattern, or carries its tag. -/
theorem conversionsRoundTheValue : Obligations.ConversionsRoundTheValue := by
  refine ⟨fun c p s => ⟨fun x hx => ?_, fun hnone => ?_⟩, fun c p s => ?_, fun c p s => ?_⟩
  · exact (exec_prnd_frnd_of_denotesExactly (Posit.unrounded_denotesExactly hx) s).symm
  · rw [(Posit.val_eq_none_iff c p).mp hnone, (Posit.decode_special c).2]
    exact ⟨exec_frnd_of_nar rfl, exec_prnd_of_tag .nar rfl (by decide) fun _ => rfl⟩
  · exact exec_prnd_frnd_of_denotesExactly (Fix.unrounded_denotesExactly c p) s
  · unfold Lns.val
    split_ifs with hzero hnar
    · rw [hzero, (Lns.decode_special c).1]
      exact exec_lrnd_of_tag .zero rfl (by decide) fun _ => rfl
    · rw [hnar, (Lns.decode_special c).2]
      exact exec_lrnd_of_tag .nar rfl (by decide) fun _ => rfl
    · exact exec_lnsToLns_of_number hzero hnar s

end Sys2Proof.Proofs
end

section
/-! Magnitude codes (spec 43_rounder.md R121), and RoundP by arithmetic distance: it steps at the midpoints
of consecutive magnitudes (R121 to R124, R134). -/

namespace Sys2Proof.Proofs

open Sys2Proof.Machine

theorem largestCode_bounds (p : Nat → Bool) (bits : Nat) :
    ∀ base, base ≤ largestCode p bits base ∧ largestCode p bits base < base + 2 ^ bits := by
  induction bits with
  | zero => intro base; simp [largestCode]
  | succ bits ih =>
    intro base
    rw [largestCode, pow_succ]
    split
    · have := ih (base + 2 ^ bits); omega
    · have := ih base; omega

/-- The search settles on the largest code with `p`, for a `p` that is downward closed where it is
searched. -/
theorem le_largestCode_iff {p : Nat → Bool} (bits : Nat) :
    ∀ base, (∀ a b, a ≤ b → b < base + 2 ^ bits → p b = true → p a = true) →
      ∀ code, base < code → code < base + 2 ^ bits →
        (code ≤ largestCode p bits base ↔ p code = true) := by
  induction bits with
  | zero => intro base _ code h h'; omega
  | succ bits ih =>
    intro base hdown code hbase hcode
    rw [pow_succ] at hdown hcode
    rw [largestCode]
    split
    case isTrue hp =>
      have hbounds := largestCode_bounds p bits (base + 2 ^ bits)
      by_cases hle : code ≤ base + 2 ^ bits
      · exact iff_of_true (hle.trans hbounds.1) (hdown _ _ hle (by omega) hp)
      · exact ih _ (fun a b hab hb => hdown a b hab (by omega)) code (by omega) (by omega)
    case isFalse hp =>
      have hbounds := largestCode_bounds p bits base
      by_cases hlt : code < base + 2 ^ bits
      · exact ih _ (fun a b hab hb => hdown a b hab (by omega)) code hbase hlt
      · exact iff_of_false (by omega) fun h => hp (hdown _ _ (not_lt.mp hlt) (by omega) h)

theorem Posit.maxCode_succ (c : Config) : Posit.maxCode c + 1 = 2 ^ (c.pN - 1) :=
  Nat.sub_add_cancel (Posit.one_lt_two_pow c).le

theorem Posit.maxCode_pos (c : Config) : 0 < Posit.maxCode c := by
  have hone := Posit.one_lt_two_pow c
  have hsucc := Posit.maxCode_succ c
  omega

/-- A magnitude code is a pattern with sign bit 0. -/
theorem Posit.ofNat_toNat {c : Config} {n : Nat} (h : n ≤ Posit.maxCode c) :
    (BitVec.ofNat c.pN n).toNat = n := by
  have hsucc := Posit.maxCode_succ c
  have hpow := two_pow_pred (show 1 ≤ c.pN by have := c.pN_ge; omega)
  rw [BitVec.toNat_ofNat, Nat.mod_eq_of_lt (by omega)]

theorem Posit.mag_lt_mag_iff {c : Config} {m n : Nat} (hm : m ≤ Posit.maxCode c)
    (hn : n ≤ Posit.maxCode c) : Posit.mag c m < Posit.mag c n ↔ m < n := by
  have hsucc := Posit.maxCode_succ c
  have hm' := Posit.ofNat_toNat hm
  have hn' := Posit.ofNat_toNat hn
  have hiff := Posit.mag_lt_iff (q := BitVec.ofNat c.pN m) (q' := BitVec.ofNat c.pN n) (by omega)
    (by omega)
  rwa [hm', hn'] at hiff

theorem Posit.mag_le_mag_iff {c : Config} {m n : Nat} (hm : m ≤ Posit.maxCode c)
    (hn : n ≤ Posit.maxCode c) : Posit.mag c m ≤ Posit.mag c n ↔ m ≤ n := by
  rw [← not_lt, Posit.mag_lt_mag_iff hn hm, not_lt]

theorem Posit.mag_pos {c : Config} {n : Nat} (hpos : 0 < n) : 0 < Posit.mag c n := by
  rw [Posit.mag, if_neg hpos.ne']
  exact Posit.magnitude_pos c _

/-- Halfway between a magnitude and the next. -/
def Posit.midpoint (c : Config) (n : Nat) : ℚ := (Posit.mag c n + Posit.mag c (n + 1)) / 2

theorem Posit.midpoint_between {c : Config} {n : Nat} (h : n < Posit.maxCode c) :
    Posit.mag c n < Posit.midpoint c n ∧ Posit.midpoint c n < Posit.mag c (n + 1) := by
  have hlt := (Posit.mag_lt_mag_iff h.le h).mpr n.lt_succ_self
  unfold Posit.midpoint
  constructor <;> linarith

/-- R121's `lo`. -/
def Posit.floorCode (c : Config) (x : ℚ) : Nat :=
  largestCode (fun code => decide (Posit.mag c code ≤ x)) (c.pN - 1) 0

theorem Posit.floorCode_le (c : Config) (x : ℚ) : Posit.floorCode c x ≤ Posit.maxCode c := by
  have hbounds := largestCode_bounds (fun code => decide (Posit.mag c code ≤ x)) (c.pN - 1) 0
  have hsucc := Posit.maxCode_succ c
  unfold Posit.floorCode
  omega

theorem Posit.le_floorCode_iff {c : Config} {x : ℚ} {n : Nat} (hpos : 0 < n)
    (h : n ≤ Posit.maxCode c) : n ≤ Posit.floorCode c x ↔ Posit.mag c n ≤ x := by
  have hsucc := Posit.maxCode_succ c
  have hiff := le_largestCode_iff (p := fun code => decide (Posit.mag c code ≤ x)) (c.pN - 1) 0
    (fun a b hab hb hp => ?_) n hpos (by omega)
  · rwa [decide_eq_true_iff] at hiff
  · rw [decide_eq_true_iff] at hp ⊢
    exact ((Posit.mag_le_mag_iff (by omega) (by omega)).mpr hab).trans hp

/-- Below maxpos the neighbours of `x` are `lo` and `lo + 1`; there is no lower neighbour of a negative
`x`. -/
theorem Posit.floorCode_bracket {c : Config} {x : ℚ} (h : x < Posit.mag c (Posit.maxCode c)) :
    Posit.floorCode c x < Posit.maxCode c ∧
      (0 < Posit.floorCode c x → Posit.mag c (Posit.floorCode c x) ≤ x) ∧
      x < Posit.mag c (Posit.floorCode c x + 1) := by
  have hle := Posit.floorCode_le c x
  have hlt : Posit.floorCode c x < Posit.maxCode c := by
    by_contra! hge
    exact h.not_ge ((Posit.le_floorCode_iff (Posit.maxCode_pos c) (le_refl _)).mp hge)
  refine ⟨hlt, fun hpos => (Posit.le_floorCode_iff hpos hle).mp (le_refl _), ?_⟩
  rw [← not_le, ← Posit.le_floorCode_iff (Nat.succ_pos _) hlt]
  omega

/-- The choice between the two neighbours (R121, R122). -/
theorem Posit.nearestCode_cases {c : Config} (tie : Tie) {x : ℚ}
    (h : x < Posit.mag c (Posit.maxCode c)) :
    (Tie.passes tie (Posit.floorCode c x) (Posit.midpoint c (Posit.floorCode c x)) x ∧
        Posit.nearestCode c tie x = Posit.floorCode c x + 1) ∨
      (¬Tie.passes tie (Posit.floorCode c x) (Posit.midpoint c (Posit.floorCode c x)) x ∧
        Posit.nearestCode c tie x = Posit.floorCode c x) := by
  have hdef : Posit.nearestCode c tie x =
      if x - Posit.mag c (Posit.floorCode c x) < Posit.mag c (Posit.floorCode c x + 1) - x then
        Posit.floorCode c x
      else if Posit.mag c (Posit.floorCode c x + 1) - x < x - Posit.mag c (Posit.floorCode c x) then
        Posit.floorCode c x + 1
      else if tie.goesUp (Posit.floorCode c x) then Posit.floorCode c x + 1
      else Posit.floorCode c x := by
    rw [Posit.nearestCode, if_neg h.not_ge]
    rfl
  rw [hdef]
  generalize Posit.floorCode c x = lo
  unfold Tie.passes Posit.midpoint
  split_ifs with hlow hhigh hgoes
  · refine .inr ⟨?_, rfl⟩
    rintro (hgt | ⟨heq, -⟩) <;> linarith
  · exact .inl ⟨.inl (by linarith), rfl⟩
  · exact .inl ⟨.inr ⟨by linarith, hgoes⟩, rfl⟩
  · refine .inr ⟨?_, rfl⟩
    rintro (hgt | ⟨-, hup⟩)
    · linarith
    · exact hgoes hup

theorem Posit.nearestCode_of_ge {c : Config} (tie : Tie) {x : ℚ}
    (h : Posit.mag c (Posit.maxCode c) ≤ x) : Posit.nearestCode c tie x = Posit.maxCode c := if_pos h

theorem Posit.nearestCode_le (c : Config) (tie : Tie) (x : ℚ) :
    Posit.nearestCode c tie x ≤ Posit.maxCode c := by
  rcases le_or_gt (Posit.mag c (Posit.maxCode c)) x with hge | hlt
  · rw [Posit.nearestCode_of_ge tie hge]
  · obtain ⟨hlo, -⟩ := Posit.floorCode_bracket hlt
    rcases Posit.nearestCode_cases tie hlt with ⟨-, hr⟩ | ⟨-, hr⟩ <;> omega

/-- The code beyond `n` is reached at the midpoint above `n`. -/
theorem Posit.lt_nearestCode_iff {c : Config} (tie : Tie) (x : ℚ) {n : Nat} (hn : n < Posit.maxCode c) :
    n < Posit.nearestCode c tie x ↔ Tie.passes tie n (Posit.midpoint c n) x := by
  obtain ⟨hmid, hmid'⟩ := Posit.midpoint_between hn
  rcases le_or_gt (Posit.mag c (Posit.maxCode c)) x with hge | hlt
  · rw [Posit.nearestCode_of_ge tie hge]
    have hnext := (Posit.mag_le_mag_iff hn (le_refl _)).mpr hn
    exact iff_of_true hn (.inl (by linarith))
  · obtain ⟨hlo, hlow, hhigh⟩ := Posit.floorCode_bracket hlt
    have hcases := Posit.nearestCode_cases tie hlt
    rcases lt_trichotomy n (Posit.floorCode c x) with hlt' | heq | hgt
    · have hnext := (Posit.mag_le_mag_iff hn hlo.le).mpr hlt'
      have hx := hlow (by omega)
      refine iff_of_true ?_ (.inl (by linarith))
      rcases hcases with ⟨-, hr⟩ | ⟨-, hr⟩ <;> omega
    · rw [heq]
      rcases hcases with ⟨hpass, hr⟩ | ⟨hpass, hr⟩ <;> simp [hpass, hr]
    · have hnext := (Posit.mag_le_mag_iff hlo hn.le).mpr hgt
      refine iff_of_false ?_ ?_
      · rcases hcases with ⟨-, hr⟩ | ⟨-, hr⟩ <;> omega
      · rintro (hgt' | ⟨heq, -⟩) <;> linarith

end Sys2Proof.Proofs
end

section
/-! The unbounded bit string of a positive rational (spec 43_rounder.md R125).  Between two powers of two the
logarithm runs in a straight line, and so does the string between two regimes; the string of `x`, read
after a binary point, is the second line at the first, so it is strictly increasing in `x`. -/

namespace Sys2Proof.Proofs

open Sys2Proof.Machine

/-- The broken line through the points `start k` at the integers `k`. -/
def brokenLine (start : Int → ℚ) (u : ℚ) : ℚ :=
  start ⌊u⌋ + (start (⌊u⌋ + 1) - start ⌊u⌋) * (u - ⌊u⌋)

section BrokenLine

variable {start : Int → ℚ}

/-- On one segment, both ends included. -/
theorem brokenLine_of_mem {u : ℚ} {k : Int} (hk : k ≤ u) (hk' : u ≤ k + 1) :
    brokenLine start u = start k + (start (k + 1) - start k) * (u - k) := by
  rcases hk'.lt_or_eq with hlt | rfl
  · rw [brokenLine, Int.floor_eq_iff.mpr ⟨hk, hlt⟩]
  · have hfloor : ⌊(k : ℚ) + 1⌋ = k + 1 := by exact_mod_cast Int.floor_intCast (k + 1)
    rw [brokenLine, hfloor]
    push_cast
    ring

theorem brokenLine_bracket (hstart : StrictMono start) (u : ℚ) :
    start ⌊u⌋ ≤ brokenLine start u ∧ brokenLine start u < start (⌊u⌋ + 1) := by
  have hslope : 0 < start (⌊u⌋ + 1) - start ⌊u⌋ := sub_pos.mpr (hstart (lt_add_one _))
  have hlow := mul_nonneg hslope.le (Int.fract_nonneg u)
  have hhigh := mul_lt_mul_of_pos_left (Int.fract_lt_one u) hslope
  rw [brokenLine, Int.self_sub_floor]
  constructor <;> linarith

theorem brokenLine_strictMono (hstart : StrictMono start) : StrictMono (brokenLine start) := by
  intro u v huv
  rcases (Int.floor_le_floor huv.le).lt_or_eq with hlt | heq
  · calc brokenLine start u < start (⌊u⌋ + 1) := (brokenLine_bracket hstart u).2
      _ ≤ start ⌊v⌋ := hstart.monotone hlt
      _ ≤ brokenLine start v := (brokenLine_bracket hstart v).1
  · have hslope : 0 < start (⌊v⌋ + 1) - start ⌊v⌋ := sub_pos.mpr (hstart (lt_add_one _))
    unfold brokenLine
    rw [heq]
    gcongr

theorem interpolate_eq_brokenLine {m : Nat} (hm : 0 < m) (n : Int) :
    interpolate start m n = brokenLine start (n / m) := by
  have hmq : (m : ℚ) ≠ 0 := by exact_mod_cast hm.ne'
  have hfract : (n : ℚ) / m - (n / m : Int) = ((n % m : Int) : ℚ) / m := by
    rw [Int.emod_def]
    push_cast
    field_simp
  rw [interpolate, brokenLine, Rat.floor_intCast_div_natCast, hfract]

end BrokenLine

/-- `log2 x`, in a straight line between powers of two. -/
def brokenLog2 (x : ℚ) : ℚ := floorLog2 x + (x / pow2 (floorLog2 x) - 1)

/-- R125's `t`. -/
theorem fraction_bounds {x : ℚ} (hx : 0 < x) :
    0 ≤ x / pow2 (floorLog2 x) - 1 ∧ x / pow2 (floorLog2 x) - 1 < 1 := by
  obtain ⟨hlow, hhigh⟩ := floorLog2_bracket hx
  have hpow := pow2_pos (floorLog2 x)
  rw [pow2_succ] at hhigh
  rw [sub_nonneg, le_div_iff₀ hpow, one_mul, sub_lt_iff_lt_add, div_lt_iff₀ hpow]
  exact ⟨hlow, by linarith⟩

theorem brokenLine_brokenLog2 {x : ℚ} (hx : 0 < x) : brokenLine pow2 (brokenLog2 x) = x := by
  obtain ⟨hlow, hhigh⟩ := fraction_bounds hx
  have hpow := pow2_pos (floorLog2 x)
  rw [brokenLine_of_mem (k := floorLog2 x) (by unfold brokenLog2; linarith)
    (by unfold brokenLog2; linarith), pow2_succ, brokenLog2]
  field_simp
  ring

theorem brokenLog2_brokenLine {u x : ℚ} (hx : 0 < x) (h : brokenLine pow2 u = x) :
    brokenLog2 x = u :=
  (brokenLine_strictMono pow2_strictMono).injective ((brokenLine_brokenLog2 hx).trans h.symm)

theorem brokenLog2_lt_iff {x y : ℚ} (hx : 0 < x) (hy : 0 < y) :
    brokenLog2 x < brokenLog2 y ↔ x < y := by
  rw [← (brokenLine_strictMono pow2_strictMono).lt_iff_lt, brokenLine_brokenLog2 hx,
    brokenLine_brokenLog2 hy]

/-- The unbounded bit string of `x`, read after a binary point. -/
def Posit.stringValue (c : Config) (x : ℚ) : ℚ :=
  brokenLine Posit.regimeStart (brokenLog2 x / 2 ^ c.pES)

theorem Posit.stringValue_lt_iff (c : Config) {x y : ℚ} (hx : 0 < x) (hy : 0 < y) :
    Posit.stringValue c x < Posit.stringValue c y ↔ x < y := by
  unfold Posit.stringValue
  rw [(brokenLine_strictMono Posit.regimeStart_strictMono).lt_iff_lt,
    div_lt_div_iff_of_pos_right (by positivity), brokenLog2_lt_iff hx hy]

theorem Posit.stringValue_inj (c : Config) {x y : ℚ} (hx : 0 < x) (hy : 0 < y) :
    Posit.stringValue c x = Posit.stringValue c y ↔ x = y := by
  refine ⟨fun h => ?_, congrArg _⟩
  have hxy := mt (Posit.stringValue_lt_iff c hx hy).mpr h.not_lt
  have hyx := mt (Posit.stringValue_lt_iff c hy hx).mpr h.not_gt
  exact le_antisymm (not_lt.mp hyx) (not_lt.mp hxy)

/-- The string of `2^s` up to its fraction, the regime and the exponent, as an integer (R125). -/
def Posit.stringHead (c : Config) (s : Int) : Int :=
  (Posit.regimeString (s / 2 ^ c.pES)).1 * 2 ^ c.pES + (s - s / 2 ^ c.pES * 2 ^ c.pES)

/-- The number of its bits. -/
def Posit.headLength (c : Config) (s : Int) : Nat :=
  (Posit.regimeString (s / 2 ^ c.pES)).2 + c.pES

/-- Between two powers of two the logarithm is linear, both ends included. -/
theorem brokenLog2_of_mem {s : Int} {x : ℚ} (hlow : pow2 s ≤ x) (hhigh : x ≤ pow2 (s + 1)) :
    brokenLog2 x = s + (x / pow2 s - 1) := by
  have hpow := pow2_pos s
  have hfrac : 0 ≤ x / pow2 s - 1 := by
    rwa [sub_nonneg, le_div_iff₀ hpow, one_mul]
  have hfrac' : x / pow2 s - 1 ≤ 1 := by
    rw [pow2_succ] at hhigh
    rw [sub_le_iff_le_add, div_le_iff₀ hpow]
    linarith
  refine brokenLog2_brokenLine (hpow.trans_le hlow) ?_
  rw [brokenLine_of_mem (k := s) (by linarith) (by linarith), pow2_succ]
  field_simp
  ring

/-- R125's `S` between two powers of two: the head, a binary point and the fraction. -/
theorem Posit.stringValue_segment (c : Config) {s : Int} {x : ℚ} (hlow : pow2 s ≤ x)
    (hhigh : x ≤ pow2 (s + 1)) :
    Posit.stringValue c x =
      (Posit.stringHead c s + (x / pow2 s - 1)) / 2 ^ Posit.headLength c s := by
  have hlog := brokenLog2_of_mem hlow hhigh
  have hunit : (0 : Int) < 2 ^ c.pES := by positivity
  have hquot : ((s / 2 ^ c.pES : Int) : ℚ) * 2 ^ c.pES ≤ s := by
    exact_mod_cast Int.ediv_mul_le s hunit.ne'
  have hquot' : (s : ℚ) + 1 ≤ ((s / 2 ^ c.pES : Int) + 1) * 2 ^ c.pES := by
    exact_mod_cast Int.lt_ediv_add_one_mul_self s hunit
  have hpow := pow2_pos s
  have hfrac : 1 ≤ x / pow2 s := by rwa [le_div_iff₀ hpow, one_mul]
  have hfrac' : x / pow2 s ≤ 2 := by rwa [div_le_iff₀ hpow, ← pow2_succ]
  rw [Posit.stringValue, brokenLine_of_mem (k := s / 2 ^ c.pES), Posit.regimeStart_succ,
    Posit.regimeStart, hlog, Posit.headLength, pow_add, Posit.stringHead]
  · push_cast
    field_simp
    ring
  · rw [le_div_iff₀ (by positivity), hlog]
    linarith
  · rw [div_le_iff₀ (by positivity), hlog]
    linarith

theorem Posit.stringValue_eq (c : Config) {x : ℚ} (hx : 0 < x) :
    Posit.stringValue c x =
      (Posit.stringHead c (floorLog2 x) + (x / pow2 (floorLog2 x) - 1)) /
        2 ^ Posit.headLength c (floorLog2 x) := by
  obtain ⟨hlow, hhigh⟩ := floorLog2_bracket hx
  exact Posit.stringValue_segment c hlow hhigh.le

theorem Posit.stringValue_bounds (c : Config) (x : ℚ) :
    0 < Posit.stringValue c x ∧ Posit.stringValue c x < 1 := by
  obtain ⟨hlow, hhigh⟩ := brokenLine_bracket Posit.regimeStart_strictMono (brokenLog2 x / 2 ^ c.pES)
  exact ⟨(Posit.regimeStart_pos _).trans_le hlow, hhigh.trans (Posit.regimeStart_lt_one _)⟩

/-- The string of a tuple's magnitude is the tuple's bit string (R80). -/
theorem Posit.stringValue_tupleMagnitude {c : Config} {scale : Int} {sig : Nat}
    (h : Posit.HiddenBit c sig) :
    Posit.stringValue c (Posit.tupleMagnitude c scale sig) = Posit.stringFraction c scale sig := by
  have hmag := Posit.tupleMagnitude_eq_interpolate (scale := scale) h
  rw [interpolate_eq_brokenLine (by positivity)] at hmag
  rw [Posit.stringValue, brokenLog2_brokenLine (Posit.tupleMagnitude_pos h) hmag.symm,
    Posit.stringFraction_eq_interpolate scale h, interpolate_eq_brokenLine (by positivity)]
  push_cast
  rw [pow_add, div_div, mul_comm ((2 : ℚ) ^ c.pFW)]

/-- The string of a magnitude is its code, and after it zeros. -/
theorem Posit.stringValue_mag {c : Config} {n : Nat} (hpos : 0 < n) (h : n ≤ Posit.maxCode c) :
    Posit.stringValue c (Posit.mag c n) = n / 2 ^ (c.pN - 1) := by
  have hsucc := Posit.maxCode_succ c
  have hnat := Posit.ofNat_toNat h
  have hfields := Posit.stringFraction_fields (q := BitVec.ofNat c.pN n) (by omega) (by omega)
  rw [Posit.mag, if_neg hpos.ne', Posit.magnitude,
    Posit.stringValue_tupleMagnitude (Posit.significand_hiddenBit c _), hfields, hnat]

end Sys2Proof.Proofs
end

section
/-! RoundP on the bit string (spec 43_rounder.md R125): it steps at the values of the pattern with one more
bit, whose string is that of the lower neighbour followed by a 1. -/

namespace Sys2Proof.Proofs

open Sys2Proof.Machine

/-- The same format with one more bit. -/
def widen (c : Config) : Config :=
  { c with
    pN := c.pN + 1
    pN_ge := c.pN_ge.trans (Nat.le_succ _)
    pES_lt := c.pES_lt.trans (Nat.lt_succ_self _) }

/-- The value of the code `n` followed by a 1. -/
def Posit.stringMidpoint (c : Config) (n : Nat) : ℚ := Posit.mag (widen c) (2 * n + 1)

theorem Posit.stringMidpoint_pos (c : Config) (n : Nat) : 0 < Posit.stringMidpoint c n :=
  Posit.mag_pos (Nat.succ_pos _)

theorem Posit.stringValue_stringMidpoint {c : Config} {n : Nat} (h : n < Posit.maxCode c) :
    Posit.stringValue c (Posit.stringMidpoint c n) * 2 ^ (c.pN - 1) = n + 1 / 2 := by
  have hpow : 2 ^ c.pN = 2 * 2 ^ (c.pN - 1) := two_pow_pred (by have := c.pN_ge; omega)
  have hmax : 2 * n + 1 ≤ Posit.maxCode (widen c) := by
    have hsucc := Posit.maxCode_succ c
    have hwide : Posit.maxCode (widen c) + 1 = 2 ^ c.pN := Posit.maxCode_succ (widen c)
    omega
  have hvalue : Posit.stringValue c (Posit.stringMidpoint c n) = (2 * n + 1 : Nat) / 2 ^ c.pN :=
    Posit.stringValue_mag (c := widen c) (Nat.succ_pos _) hmax
  have hpowq : (2 : ℚ) ^ c.pN = 2 * 2 ^ (c.pN - 1) := by exact_mod_cast hpow
  rw [hvalue, hpowq]
  push_cast
  field_simp

theorem Posit.stringMidpoint_between {c : Config} {n : Nat} (h : n < Posit.maxCode c) :
    Posit.mag c n < Posit.stringMidpoint c n ∧ Posit.stringMidpoint c n < Posit.mag c (n + 1) := by
  have hmid := Posit.stringMidpoint_pos c n
  have hvalue := Posit.stringValue_stringMidpoint h
  have hpow : (0 : ℚ) < 2 ^ (c.pN - 1) := by positivity
  rw [← eq_div_iff hpow.ne'] at hvalue
  constructor
  · rcases Nat.eq_zero_or_pos n with rfl | hn
    · rwa [Posit.mag_zero]
    · rw [← Posit.stringValue_lt_iff c (Posit.mag_pos hn) hmid, hvalue, Posit.stringValue_mag hn h.le,
        div_lt_div_iff_of_pos_right hpow]
      linarith
  · rw [← Posit.stringValue_lt_iff c hmid (Posit.mag_pos n.succ_pos), hvalue,
      Posit.stringValue_mag n.succ_pos h, div_lt_div_iff_of_pos_right hpow]
    push_cast
    linarith

theorem ratFloor_eq_iff {t : ℚ} {n : Int} : t.floor = n ↔ n ≤ t ∧ t < n + 1 :=
  Int.floor_eq_iff (a := t)

/-- Guard bit, sticky bit and the parity of the kept part settle the cut as `roundInt` does (R12, R125). -/
theorem roundInt_eq_guard (tie : Tie) (y : ℚ) :
    (if (((y - y.floor) * 2).floor == 1 &&
        (decide ((((y - y.floor) * 2).floor : ℚ) < (y - y.floor) * 2) || tie.goesUp y.floor)) = true then
      y.floor + 1 else y.floor) = roundInt tie y := by
  obtain ⟨hlow, hhigh⟩ := floor_bracket y
  unfold roundInt
  dsimp only
  generalize y.floor = keep at *
  obtain ⟨r, hr⟩ : ∃ r, r = y - keep := ⟨_, rfl⟩
  rw [← hr]
  rcases lt_trichotomy r (1 / 2) with hlt | heq | hgt
  · have hguard : (r * 2).floor = 0 :=
      ratFloor_eq_iff.mpr ⟨by push_cast; linarith, by push_cast; linarith⟩
    simp [hguard, hlt, hlt.not_gt, -one_div]
  · have hguard : (r * 2).floor = 1 :=
      ratFloor_eq_iff.mpr ⟨by push_cast; linarith, by push_cast; linarith⟩
    rw [hguard]
    simp [heq]
  · have hguard : (r * 2).floor = 1 :=
      ratFloor_eq_iff.mpr ⟨by push_cast; linarith, by push_cast; linarith⟩
    have hsticky : (1 : ℚ) < r * 2 := by linarith
    simp [hguard, hgt, hsticky, -one_div]

/-- The code of the cut string (R125). -/
theorem Posit.bitstringCode_of_pos {c : Config} (tie : Tie) {x : ℚ} (hx : 0 < x) :
    Posit.bitstringCode c tie x =
      min (roundInt tie (Posit.stringValue c x * 2 ^ (c.pN - 1))).toNat (Posit.maxCode c) := by
  have hcut : Posit.stringValue c x * 2 ^ (c.pN - 1) =
      ((Posit.regimeString (floorLog2 x / 2 ^ c.pES)).1 * 2 ^ c.pES +
        ((floorLog2 x - floorLog2 x / 2 ^ c.pES * 2 ^ c.pES : Int) : ℚ) +
          (x / pow2 (floorLog2 x) - 1)) *
        pow2 ((c.pN : Int) - 1 - (Posit.headLength c (floorLog2 x) : Nat)) := by
    have hN : ((c.pN : Int) - 1) = ((c.pN - 1 : Nat) : Int) := by have := c.pN_ge; omega
    rw [Posit.stringValue_eq c hx, hN, pow2_sub_natCast, pow2_natCast, Posit.stringHead]
    push_cast
    ring
  rw [hcut, ← roundInt_eq_guard, Posit.bitstringCode, if_neg hx.not_ge]
  rfl

theorem Posit.bitstringCode_of_nonpos {c : Config} (tie : Tie) {x : ℚ} (hx : x ≤ 0) :
    Posit.bitstringCode c tie x = 0 := if_pos hx

theorem Posit.bitstringCode_le (c : Config) (tie : Tie) (x : ℚ) :
    Posit.bitstringCode c tie x ≤ Posit.maxCode c := by
  rcases le_or_gt x 0 with hx | hx
  · rw [Posit.bitstringCode_of_nonpos tie hx]
    exact Nat.zero_le _
  · rw [Posit.bitstringCode_of_pos tie hx]
    exact min_le_right _ _

theorem Posit.lt_bitstringCode_iff {c : Config} (tie : Tie) (x : ℚ) {n : Nat}
    (hn : n < Posit.maxCode c) :
    n < Posit.bitstringCode c tie x ↔ Tie.passes tie n (Posit.stringMidpoint c n) x := by
  have hmid := Posit.stringMidpoint_pos c n
  rcases le_or_gt x 0 with hx | hx
  · rw [Posit.bitstringCode_of_nonpos tie hx]
    refine iff_of_false (by omega) ?_
    rintro (hgt | ⟨heq, -⟩) <;> linarith
  · have hpow : (0 : ℚ) < 2 ^ (c.pN - 1) := by positivity
    have hpass := lt_roundInt_iff tie (Posit.stringValue c x * 2 ^ (c.pN - 1)) n
    rw [Tie.passes, Int.cast_natCast, ← Posit.stringValue_stringMidpoint hn,
      mul_lt_mul_iff_left₀ hpow, mul_left_inj' hpow.ne', Posit.stringValue_lt_iff c hmid hx,
      Posit.stringValue_inj c hx hmid, ← Tie.passes] at hpass
    rw [Posit.bitstringCode_of_pos tie hx, ← hpass]
    omega

end Sys2Proof.Proofs
end

section
/-! Posit rounding in either reading of "nearest" (spec 43_rounder.md R121, R125, R137). -/

namespace Sys2Proof.Proofs

open Sys2Proof.Machine

/-- The breakpoint above a code, in the configured reading of "nearest" (R121, R125). -/
def Posit.breakpoint (c : Config) (n : Nat) : ℚ :=
  match c.pRoundDomain with
  | .value => Posit.midpoint c n
  | .bitstring => Posit.stringMidpoint c n

theorem Posit.breakpoint_of_value {c : Config} (h : c.pRoundDomain = .value) :
    Posit.breakpoint c = Posit.midpoint c := by
  funext n
  rw [Posit.breakpoint, h]

theorem Posit.breakpoint_of_bitstring {c : Config} (h : c.pRoundDomain = .bitstring) :
    Posit.breakpoint c = Posit.stringMidpoint c := by
  funext n
  rw [Posit.breakpoint, h]

theorem Posit.roundCode_of_value {c : Config} (h : c.pRoundDomain = .value) :
    Posit.roundCode c = Posit.nearestCode c := by
  funext tie x
  rw [Posit.roundCode, h]

theorem Posit.roundCode_of_bitstring {c : Config} (h : c.pRoundDomain = .bitstring) :
    Posit.roundCode c = Posit.bitstringCode c := by
  funext tie x
  rw [Posit.roundCode, h]

theorem Posit.breakpoint_between {c : Config} {n : Nat} (hn : n < Posit.maxCode c) :
    Posit.mag c n < Posit.breakpoint c n ∧ Posit.breakpoint c n < Posit.mag c (n + 1) := by
  cases h : c.pRoundDomain with
  | value => rw [Posit.breakpoint_of_value h]; exact Posit.midpoint_between hn
  | bitstring => rw [Posit.breakpoint_of_bitstring h]; exact Posit.stringMidpoint_between hn

theorem Posit.roundCode_le (c : Config) (tie : Tie) (x : ℚ) :
    Posit.roundCode c tie x ≤ Posit.maxCode c := by
  cases h : c.pRoundDomain with
  | value => rw [Posit.roundCode_of_value h]; exact Posit.nearestCode_le c tie x
  | bitstring => rw [Posit.roundCode_of_bitstring h]; exact Posit.bitstringCode_le c tie x

theorem Posit.lt_roundCode_iff {c : Config} (tie : Tie) (x : ℚ) {n : Nat} (hn : n < Posit.maxCode c) :
    n < Posit.roundCode c tie x ↔ Tie.passes tie n (Posit.breakpoint c n) x := by
  cases h : c.pRoundDomain with
  | value =>
    rw [Posit.roundCode_of_value h, Posit.breakpoint_of_value h, Posit.lt_nearestCode_iff tie x hn]
  | bitstring =>
    rw [Posit.roundCode_of_bitstring h, Posit.breakpoint_of_bitstring h,
      Posit.lt_bitstringCode_iff tie x hn]

theorem Posit.stepsAt (c : Config) :
    StepsAt (fun n => Posit.breakpoint c n.toNat) 0 (Posit.maxCode c)
      (fun tie x => (Posit.roundCode c tie x : Int)) := by
  refine .of_passes (fun tie x => ⟨Int.natCast_nonneg _, by exact_mod_cast Posit.roundCode_le c tie x⟩)
    fun tie x n hlo hhi => ?_
  obtain ⟨m, rfl⟩ := Int.eq_ofNat_of_zero_le hlo
  rw [Nat.cast_lt, Int.toNat_natCast]
  exact Posit.lt_roundCode_iff tie x (by exact_mod_cast hhi)

theorem Posit.roundCode_mono (c : Config) {x y : ℚ} (h : x ≤ y) :
    Posit.roundCode c .even x ≤ Posit.roundCode c .even y := by
  exact_mod_cast (Posit.stepsAt c).mono .even h

/-- The code with the value between the breakpoints on its two sides. -/
theorem Posit.roundCode_eq {c : Config} {tie : Tie} {x : ℚ} {n : Nat} (hn : n ≤ Posit.maxCode c)
    (hlow : 0 < n → Tie.passes tie (n - 1 : Nat) (Posit.breakpoint c (n - 1)) x)
    (hhigh : n < Posit.maxCode c → ¬Tie.passes tie n (Posit.breakpoint c n) x) :
    Posit.roundCode c tie x = n := by
  have hle := Posit.roundCode_le c tie x
  apply le_antisymm
  · rcases hn.lt_or_eq with hlt | rfl
    · exact not_lt.mp (mt (Posit.lt_roundCode_iff tie x hlt).mp (hhigh hlt))
    · exact hle
  · rcases Nat.eq_zero_or_pos n with rfl | hpos
    · exact Nat.zero_le _
    · have := (Posit.lt_roundCode_iff tie x (show n - 1 < Posit.maxCode c by omega)).mpr (hlow hpos)
      omega

/-- A magnitude rounds to its own code, in either reading (R137). -/
theorem Posit.roundCode_mag {c : Config} (tie : Tie) {n : Nat} (hn : n ≤ Posit.maxCode c) :
    Posit.roundCode c tie (Posit.mag c n) = n := by
  refine Posit.roundCode_eq hn (fun hpos => .inl ?_) fun hlt => ?_
  · have hbelow := (Posit.breakpoint_between (show n - 1 < Posit.maxCode c by omega)).2
    rwa [Nat.sub_add_cancel hpos] at hbelow
  · have habove := (Posit.breakpoint_between hlt).1
    rintro (hgt | ⟨heq, -⟩) <;> linarith

/-! The patterns of the codes. -/

theorem Posit.ofCode_not (c : Config) (sign : Bool) (n : Nat) :
    Posit.ofCode c (!sign) n = -Posit.ofCode c sign n := by
  cases sign <;> simp [Posit.ofCode]

theorem Posit.ofCode_zero (c : Config) (sign : Bool) : Posit.ofCode c sign 0 = Posit.zero c := by
  cases sign <;> simp [Posit.ofCode, Posit.zero]

/-- The value of a sign and a code, zero included (R121). -/
theorem Posit.val_ofCode_mag {c : Config} {n : Nat} (h : n ≤ Posit.maxCode c) (sign : Bool) :
    Posit.val c (Posit.ofCode c sign n) = some (signFactor sign * Posit.mag c n) := by
  rcases Nat.eq_zero_or_pos n with rfl | hpos
  · rw [Posit.ofCode_zero, Posit.val_zero, Posit.mag_zero, mul_zero]
  · have hsucc := Posit.maxCode_succ c
    have hnat := Posit.ofNat_toNat h
    have hval := Posit.val_ofCode (q := BitVec.ofNat c.pN n) (by omega) (by omega) sign
    rw [← Posit.mag_toNat (by omega), hnat] at hval
    exact hval

theorem Posit.ofCode_inj {c : Config} {m n : Nat} (hm : m ≤ Posit.maxCode c)
    (hn : n ≤ Posit.maxCode c) {sign : Bool} (h : Posit.ofCode c sign m = Posit.ofCode c sign n) :
    m = n := by
  have hbits : BitVec.ofNat c.pN m = BitVec.ofNat c.pN n := by
    cases sign with
    | false => exact h
    | true => exact neg_injective h
  rw [← Posit.ofNat_toNat hm, hbits, Posit.ofNat_toNat hn]

/-- Rounding by sign and magnitude; zero is no exception. -/
theorem Posit.round_eq (c : Config) (v : ℚ) :
    Posit.round c v = Posit.ofCode c (decide (v < 0)) (Posit.roundCode c .even |v|) := by
  rw [Posit.round]
  split
  case isTrue h =>
    have hcode := Posit.roundCode_mag (c := c) .even (Nat.zero_le _)
    rw [Posit.mag_zero] at hcode
    rw [h, abs_zero, hcode, Posit.ofCode_zero]
  case isFalse => rfl

theorem Posit.round_of_nonneg {c : Config} {v : ℚ} (h : 0 ≤ v) :
    Posit.round c v = Posit.ofCode c false (Posit.roundCode c .even v) := by
  rw [Posit.round_eq, abs_of_nonneg h, decide_eq_false h.not_gt]

/-- The value of the pattern that `v` rounds to. -/
def Posit.roundedValue (c : Config) (v : ℚ) : ℚ :=
  signFactor (decide (v < 0)) * Posit.mag c (Posit.roundCode c .even |v|)

theorem Posit.val_round (c : Config) (v : ℚ) :
    Posit.val c (Posit.round c v) = some (Posit.roundedValue c v) := by
  rw [Posit.round_eq, Posit.val_ofCode_mag (Posit.roundCode_le c _ _), Posit.roundedValue]

theorem Posit.round_ne_nar (c : Config) (v : ℚ) : Posit.round c v ≠ Posit.nar c :=
  Posit.ne_nar_of_val (Posit.val_round c v)

theorem Posit.round_neg (c : Config) (v : ℚ) : Posit.round c (-v) = -Posit.round c v := by
  rcases eq_or_ne v 0 with rfl | hv
  · rw [neg_zero, Posit.round_zero]
    simp [Posit.zero]
  · have hsign : decide (-v < 0) = !decide (v < 0) := by
      rcases hv.lt_or_gt with hlt | hgt
      · simp [hlt, hlt.le]
      · simp [hgt, hgt.le]
    rw [Posit.round_eq, Posit.round_eq, abs_neg, hsign, Posit.ofCode_not]

theorem Posit.roundedValue_mono (c : Config) : Monotone (Posit.roundedValue c) := by
  intro v w h
  have hmag {x y : ℚ} (hxy : x ≤ y) :
      Posit.mag c (Posit.roundCode c .even x) ≤ Posit.mag c (Posit.roundCode c .even y) :=
    (Posit.mag_le_mag_iff (Posit.roundCode_le c _ _) (Posit.roundCode_le c _ _)).mpr
      (Posit.roundCode_mono c hxy)
  have hv := Posit.mag_nonneg c (Posit.roundCode c .even |v|)
  have hw := Posit.mag_nonneg c (Posit.roundCode c .even |w|)
  unfold Posit.roundedValue
  rcases lt_or_ge v 0 with hneg | hpos
  · rcases lt_or_ge w 0 with hneg' | hpos'
    · have := hmag (abs_le_abs_of_nonpos hneg'.le h)
      simp only [hneg, hneg', decide_true, signFactor, if_true]
      linarith
    · simp only [hneg, hpos'.not_gt, decide_true, decide_false, signFactor, if_true,
        Bool.false_eq_true, if_false]
      linarith
  · have := hmag (abs_le_abs_of_nonneg hpos h)
    simpa [hpos.not_gt, (hpos.trans h).not_gt, signFactor] using this

/-- Settles O30: the magnitude of a pattern rounds to its own code. -/
theorem representablePositsRoundToThemselves : Obligations.RepresentablePositsRoundToThemselves := by
  intro c p x hx
  rcases (Posit.val_eq_some_iff c p x).mp hx with ⟨rfl, rfl⟩ | ⟨hzero, hnar, rfl⟩
  · exact Posit.round_zero c
  · obtain ⟨hpos, hlt⟩ := Posit.magPattern_bounds c hzero hnar
    have hsucc := Posit.maxCode_succ c
    rw [← Posit.roundMagnitude_of_pos (Posit.magnitude_pos c _), Posit.roundMagnitude,
      ← Posit.mag_toNat hpos, Posit.roundCode_mag .even (by omega), Posit.ofCode_magPattern]

/-- Settles O31. -/
theorem positRoundingIsMonotoneAndOdd : Obligations.PositRoundingIsMonotoneAndOdd :=
  ⟨fun c v w _ h => ⟨_, _, Posit.val_round c v, Posit.val_round c w, Posit.roundedValue_mono c h⟩,
    Posit.round_neg, Posit.round_ne_nar⟩

end Sys2Proof.Proofs
end

section
/-! PRND with the sticky flag (spec 43_rounder.md R134). -/

namespace Sys2Proof.Proofs

open Sys2Proof.Machine

theorem Posit.roundOperand_sticky {c : Config} {u : Unrounded} (htag : u.special = Special.none.bits)
    (hsticky : u.sticky = true) (pick : Nat × Nat) :
    Posit.roundOperand c u pick = roundDenoted (Posit.roundMagnitude c u.sign) (magnitudeOf u) pick := by
  rw [Posit.roundOperand, htag, Special.ofBits_bits]
  exact if_neg (by simp [hsticky])

theorem Posit.draws_sticky {c : Config} {u : Unrounded} (htag : u.special = Special.none.bits) :
    Posit.draws c u = isDraw (Posit.roundMagnitude c u.sign) (magnitudeOf u) := by
  rw [Posit.draws, htag, Special.ofBits_bits]
  rfl

/-- Settles O37: the magnitude is rounded as a step function, and the sign is set on its code. -/
theorem stickyPrndAnswersAValueTaken : Obligations.StickyPrndAnswersAValueTaken := by
  intro s u htag hsticky
  have hlt := magnitudeOf_low_lt_high u
  have hround {x : ℚ} (hx : (magnitudeOf u).holds x) :=
    Posit.roundMagnitude_of_pos (c := s.cfg) (pos_of_magnitudeOf_holds hx) u.sign
  constructor
  · obtain ⟨x, hx, hr⟩ := (Posit.stepsAt s.cfg).roundDenoted_taken
      (g := fun n => Posit.ofCode s.cfg u.sign n.toNat) hsticky hlt
      (drawOf s 0b00010#5 u.sign u.mant u.exp2)
    refine ⟨_, x, rfl, hx, ?_⟩
    rw [State.answer_resp, Posit.roundOperand_sticky htag hsticky]
    exact congrArg (some ∘ Posit.roundedResponse s.cfg) (hr.trans (hround hx))
  · intro hconst x hx
    obtain ⟨hdraw, hr⟩ := (Posit.stepsAt s.cfg).roundDenoted_constant
      (g := fun n => Posit.ofCode s.cfg u.sign n.toNat) hsticky hlt
      fun x y hx hy => (hround hx).trans ((hconst x y hx hy).trans (hround hy).symm)
    exact exec_prnd_of_undrawn ((Posit.draws_sticky htag).trans hdraw) fun pick =>
      (Posit.roundOperand_sticky htag hsticky pick).trans ((hr x pick hx).trans (hround hx))

/-! Breakpoints (R134). -/

theorem Posit.round_constant_iff {c : Config} {low high : ℚ} (hvalue : c.pRoundDomain = .value)
    (hlow : 0 ≤ low) :
    (∀ x y, low < x → x < high → low < y → y < high → Posit.round c x = Posit.round c y) ↔
      ∀ code, code < Posit.maxCode c →
        ¬(low < Posit.midpoint c code ∧ Posit.midpoint c code < high) := by
  have hcodes {x y : ℚ} (hx : low < x) (hy : low < y) :
      Posit.round c x = Posit.round c y ↔
        (Posit.roundCode c .even x : Int) = Posit.roundCode c .even y := by
    rw [Posit.round_of_nonneg (hlow.trans hx.le), Posit.round_of_nonneg (hlow.trans hy.le), Nat.cast_inj]
    exact ⟨Posit.ofCode_inj (Posit.roundCode_le c _ _) (Posit.roundCode_le c _ _), congrArg _⟩
  have hsteps := (Posit.stepsAt c).constant_iff (low := low) (high := high)
  rw [Posit.breakpoint_of_value hvalue] at hsteps
  constructor
  · intro hconst code hcode
    have hfree := hsteps.mp fun x y hx hx' hy hy' => (hcodes hx hy).mp (hconst x y hx hx' hy hy')
    exact hfree code (Int.natCast_nonneg _) (by exact_mod_cast hcode)
  · intro hfree x y hx hx' hy hy'
    refine (hcodes hx hy).mpr (hsteps.mpr (fun n hlo hhi => ?_) x y hx hx' hy hy')
    exact hfree n.toNat (by omega)

/-- Settles O39. -/
theorem roundingIsConstantBetweenBreakpoints : Obligations.RoundingIsConstantBetweenBreakpoints :=
  ⟨fun _ _ _ hvalue hlow _ => Posit.round_constant_iff hvalue hlow,
    fun c sign low high _ => Lns.round_constant_iff c sign low high,
    fun c low high _ => Fix.round_constant_iff c low high⟩

/-- What is left of the scale under the fraction bits is still at least that of minpos. -/
theorem Posit.fracBits_le_scale {c : Config} {q : BitVec c.pN} (hpos : 0 < q.toNat)
    (hlt : q.toNat < 2 ^ (c.pN - 1)) :
    c.pMinScale ≤ Posit.scale c q - Posit.fracBits c (Posit.regimeRun c q) := by
  have hN := c.pN_ge
  have hrun := Posit.one_le_regimeRun c q
  have hrun' := Posit.regimeRun_le c q
  have hfrac : Posit.fracBits c (Posit.regimeRun c q) ≤ c.pN - 2 - Posit.regimeRun c q := by
    unfold Posit.fracBits Posit.remBits
    omega
  have hk : (Posit.fracBits c (Posit.regimeRun c q) : Int) ≤
      Posit.regimeValue (Posit.regimeBit c q) (Posit.regimeRun c q) + (c.pN - 2 : Nat) := by
    cases hbit : Posit.regimeBit c q with
    | false =>
      have := Posit.regimeRun_lt_of_regimeBit_false hpos hlt hbit
      simp only [Posit.regimeValue, Bool.false_eq_true, if_false]
      omega
    | true =>
      simp only [Posit.regimeValue, if_true]
      omega
  have hunit : (1 : Int) ≤ 2 ^ c.pES := by exact_mod_cast Nat.one_le_two_pow
  unfold Posit.scale Config.pMinScale Config.pMaxScale Config.pUseedLog2
  push_cast
  nlinarith

/-- Every magnitude is an integer multiple of minpos (R134). -/
theorem Posit.mag_eq_multiple {c : Config} {n : Nat} (h : n ≤ Posit.maxCode c) :
    ∃ z : Int, Posit.mag c n = z * pow2 c.pMinScale := by
  rcases Nat.eq_zero_or_pos n with rfl | hpos
  · exact ⟨0, by simp⟩
  have hsucc := Posit.maxCode_succ c
  have hnat := Posit.ofNat_toNat h
  rw [Posit.mag, if_neg hpos.ne']
  generalize BitVec.ofNat c.pN n = q at hnat
  have hscale := Posit.fracBits_le_scale (q := q) (by omega) (by omega)
  have hfrac := Posit.fracBits_le_pFW c (Posit.one_le_regimeRun c q)
  rw [Posit.magnitude, Posit.tupleMagnitude, Posit.significand]
  generalize Posit.fracBits c (Posit.regimeRun c q) = nf at *
  generalize Posit.lowBits c q % 2 ^ nf = frac
  obtain ⟨d, hd⟩ : ∃ d : Nat, Posit.scale c q = c.pMinScale + d + nf :=
    ⟨(Posit.scale c q - nf - c.pMinScale).toNat, by omega⟩
  obtain ⟨pad, hpad⟩ : ∃ pad, c.pFW = nf + pad := ⟨c.pFW - nf, by omega⟩
  refine ⟨((2 ^ nf + frac) * 2 ^ d : Nat), ?_⟩
  rw [hd, hpad, Nat.add_sub_cancel_left, pow2_add, pow2_add, pow2_natCast, pow2_natCast]
  push_cast [pow_add]
  field_simp

theorem Posit.midpoint_eq_multiple {c : Config} {n : Nat} (h : n < Posit.maxCode c) :
    ∃ z : Int, Posit.midpoint c n = z * pow2 (c.pMinScale - 1) := by
  obtain ⟨z, hz⟩ := Posit.mag_eq_multiple h.le
  obtain ⟨z', hz'⟩ := Posit.mag_eq_multiple (show n + 1 ≤ Posit.maxCode c from h)
  refine ⟨z + z', ?_⟩
  have hhalf : pow2 c.pMinScale = 2 * pow2 (c.pMinScale - 1) := by
    rw [← pow2_succ, sub_add_cancel]
  rw [Posit.midpoint, hz, hz', hhalf]
  push_cast
  ring

/-- R134's condition on PRND's operand. -/
theorem Posit.round_of_fine {c : Config} {u : Unrounded} {x y : ℚ}
    (hvalue : c.pRoundDomain = .value) (hfine : u.exp2 ≤ c.pMinScale - 1)
    (hx : (magnitudeOf u).holds x) (hy : (magnitudeOf u).holds y) :
    Posit.round c x = Posit.round c y := by
  have hlow : 0 ≤ (magnitudeOf u).low := mul_nonneg (Nat.cast_nonneg _) (pow2_pos _).le
  refine (Posit.round_constant_iff hvalue hlow).mpr (fun code hcode => ?_) x y hx.1 hx.2 hy.1 hy.2
  obtain ⟨z, hz⟩ := Posit.midpoint_eq_multiple hcode
  rw [hz]
  exact no_multiple_between (m := u.mant) hfine

/-- Settles O40: in each format the breakpoints are multiples of the power of two that bounds the
operand's own. -/
theorem fineStickyOperandsAreDetermined : Obligations.FineStickyOperandsAreDetermined :=
  ⟨fun _ _ _ _ => Posit.round_of_fine, fun _ _ _ _ => Lns.round_of_fine,
    fun _ _ _ _ => Fix.round_of_fine⟩

end Sys2Proof.Proofs
end

section
/-! RoundP answers the nearest posit (spec 43_rounder.md R121 to R124). -/

namespace Sys2Proof.Proofs

open Sys2Proof.Machine

/-! The ends of the range. -/

theorem Posit.mag_maxCode (c : Config) : Posit.mag c (Posit.maxCode c) = c.pMaxPos := by
  have hmax : (Posit.maxPos c).toNat = Posit.maxCode c := Posit.maxPos_toNat c
  rw [← Posit.magnitude_maxPos, ← hmax, Posit.mag_toNat (hmax ▸ Posit.maxCode_pos c)]

theorem Posit.mag_one (c : Config) : Posit.mag c 1 = c.pMinPos := by
  rw [← Posit.magnitude_minPos]
  rfl

theorem Posit.maxNeg_eq (c : Config) : Posit.maxNeg c = -Posit.maxPos c := by
  have hone := Posit.one_lt_two_pow c
  have hpow := two_pow_pred (show 1 ≤ c.pN by have := c.pN_ge; omega)
  apply BitVec.eq_of_toNat_eq
  rw [Posit.maxNeg, BitVec.toNat_neg, Posit.maxPos_toNat, BitVec.toNat_ofNat]
  congr 1
  omega

theorem Posit.minNeg_eq (c : Config) : Posit.minNeg c = -Posit.minPos c := by
  apply BitVec.eq_of_toNat_eq
  rw [Posit.minNeg, BitVec.toNat_neg, Posit.minPos_toNat, BitVec.toNat_ofNat]

section Value

variable {c : Config} {v : ℚ}

theorem Posit.round_of_overflow (hvalue : c.pRoundDomain = .value) (h : c.pMaxPos ≤ v) :
    Posit.round c v = Posit.maxPos c := by
  rw [Posit.round_of_nonneg ((Posit.pMaxPos_pos c).le.trans h), Posit.roundCode_of_value hvalue,
    Posit.nearestCode_of_ge .even (by rwa [Posit.mag_maxCode])]
  rfl

/-- The breakpoint above zero is half of minpos (R124). -/
theorem Posit.midpoint_zero (c : Config) : Posit.midpoint c 0 = c.pMinPos / 2 := by
  rw [Posit.midpoint, Posit.mag_zero, zero_add, zero_add, Posit.mag_one]

theorem Posit.round_of_underflow (hvalue : c.pRoundDomain = .value) (h : |v| ≤ c.pMinPos / 2) :
    Posit.round c v = Posit.zero c := by
  have hcode : Posit.roundCode c .even |v| = 0 := by
    refine Posit.roundCode_eq (Nat.zero_le _) (fun h0 => absurd h0 (lt_irrefl 0)) fun _ => ?_
    rw [Posit.breakpoint_of_value hvalue, Posit.midpoint_zero]
    rintro (hgt | ⟨-, hodd⟩)
    · exact h.not_gt hgt
    · cases hodd
  rw [Posit.round_eq, hcode, Posit.ofCode_zero]

theorem Posit.round_of_belowMinPos (hvalue : c.pRoundDomain = .value) (h : c.pMinPos / 2 < v)
    (h' : v < c.pMinPos) : Posit.round c v = Posit.minPos c := by
  have hminPos : 0 < c.pMinPos := pow2_pos _
  have hcode : Posit.roundCode c .even v = 1 := by
    refine Posit.roundCode_eq (Posit.maxCode_pos c) (fun _ => .inl ?_) fun hlt => ?_
    · rwa [Posit.breakpoint_of_value hvalue, Nat.sub_self, Posit.midpoint_zero]
    · have habove := (Posit.breakpoint_between hlt).1
      rw [Posit.mag_one] at habove
      rintro (hgt | ⟨heq, -⟩) <;> linarith
  rw [Posit.round_of_nonneg (by linarith), hcode]
  rfl

end Value

/-- Settles O27; the negative ends follow because rounding is odd. -/
theorem positRoundingAtTheEndsOfTheRange : Obligations.PositRoundingAtTheEndsOfTheRange := by
  intro c v hvalue
  have hodd : Posit.round c v = -Posit.round c (-v) := by rw [Posit.round_neg, neg_neg]
  refine ⟨Posit.round_of_overflow hvalue, fun h => ?_, Posit.round_of_underflow hvalue,
    Posit.round_of_belowMinPos hvalue, fun h h' => ?_, Posit.round_ne_nar c v⟩
  · rw [hodd, Posit.round_of_overflow hvalue (by linarith), Posit.maxNeg_eq]
  · rw [hodd, Posit.round_of_belowMinPos hvalue (by linarith) (by linarith), Posit.minNeg_eq]

/-! The nearest number. -/

/-- Of two numbers the one on the near side of their midpoint is nearer. -/
theorem abs_sub_lt_abs_sub_iff {v w z : ℚ} :
    |v - w| < |v - z| ↔ 0 < (z - w) * (w + z - 2 * v) := by
  rw [← sq_lt_sq, ← sub_pos]
  constructor <;> intro h <;> linarith

theorem abs_sub_eq_abs_sub_of_mid {v w z : ℚ} (h : 2 * v = w + z) : |v - w| = |v - z| := by
  have hflip : v - w = -(v - z) := by linarith
  rw [hflip, abs_neg]

/-- As near as another number: on the midpoint or on the near side of it. -/
theorem nearer_or_mid {v w z : ℚ} (h : 0 ≤ (z - w) * (w + z - 2 * v)) (hne : z ≠ w) :
    |v - w| < |v - z| ∨ (|v - w| = |v - z| ∧ 2 * v = w + z) := by
  rcases h.lt_or_eq with hlt | heq
  · exact .inl (abs_sub_lt_abs_sub_iff.mpr hlt)
  · have hmid : 2 * v = w + z := by
      rcases mul_eq_zero.mp heq.symm with h0 | h0
      · exact absurd (sub_eq_zero.mp h0) hne
      · linarith
    exact .inr ⟨abs_sub_eq_abs_sub_of_mid hmid, hmid⟩

/-- Bit 0 of a pattern is 0 where its signed integer is even. -/
theorem getLsbD_zero_eq_false_iff {n : Nat} (hn : 0 < n) (p : BitVec n) :
    p.getLsbD 0 = false ↔ p.toInt % 2 = 0 := by
  have hparity : p.toInt % 2 = ((p.toNat % 2 : Nat) : Int) := by
    have hpow := two_pow_pred hn
    rw [BitVec.toInt_eq_msb_cond]
    split <;> omega
  rw [hparity, ← BitVec.testBit_toNat, Nat.testBit_zero]
  simp
  omega

theorem Posit.ofCode_toInt {c : Config} {n : Nat} (h : n ≤ Posit.maxCode c) :
    (Posit.ofCode c false n).toInt = n := by
  have hsucc := Posit.maxCode_succ c
  have hnat : (Posit.ofCode c false n).toNat = n := Posit.ofNat_toNat h
  have hpow := two_pow_pred (show 1 ≤ c.pN by have := c.pN_ge; omega)
  rw [BitVec.toInt_eq_toNat_of_lt (by omega), hnat]

theorem Posit.val_ofCode_false {c : Config} {n : Nat} (h : n ≤ Posit.maxCode c) :
    Posit.val c (Posit.ofCode c false n) = some (Posit.mag c n) := by
  simpa [signFactor] using Posit.val_ofCode_mag h false

/-- No number lies strictly between consecutive magnitudes. -/
theorem Posit.mag_succ_le_of_lt {c : Config} {p : BitVec c.pN} {z : ℚ} {n : Nat}
    (hp : Posit.val c p = some z) (hn : n ≤ Posit.maxCode c) (h : Posit.mag c n < z) :
    n < Posit.maxCode c ∧ Posit.mag c (n + 1) ≤ z := by
  rw [Posit.val_lt_iff (Posit.val_ofCode_false hn) hp, Posit.ofCode_toInt hn] at h
  have hsucc : ((Posit.maxCode c : Int)) + 1 = 2 ^ (c.pN - 1) := by
    exact_mod_cast Posit.maxCode_succ c
  have hmax := BitVec.toInt_lt (x := p)
  have hlt : n < Posit.maxCode c := by omega
  refine ⟨hlt, ?_⟩
  rw [← not_lt, Posit.val_lt_iff hp (Posit.val_ofCode_false hlt), Posit.ofCode_toInt hlt]
  push_cast
  omega

theorem Posit.le_mag_pred_of_lt {c : Config} {p : BitVec c.pN} {z : ℚ} {n : Nat}
    (hp : Posit.val c p = some z) (hn : n ≤ Posit.maxCode c) (hpos : 0 < n) (h : z < Posit.mag c n) :
    z ≤ Posit.mag c (n - 1) := by
  have hpred : n - 1 ≤ Posit.maxCode c := (Nat.sub_le _ _).trans hn
  rw [Posit.val_lt_iff hp (Posit.val_ofCode_false hn), Posit.ofCode_toInt hn] at h
  rw [← not_lt, Posit.val_lt_iff (Posit.val_ofCode_false hpred) hp, Posit.ofCode_toInt hpred]
  omega

theorem Posit.nearest_neg {c : Config} {v : ℚ} {r : BitVec c.pN} (h : Posit.nearest c v r) :
    Posit.nearest c (-v) (-r) := by
  have hN : 0 < c.pN := by have := c.pN_ge; omega
  obtain ⟨w, hw, hnear⟩ := h
  have hneg {p : BitVec c.pN} {z : ℚ} (hp : Posit.val c p = some z) : Posit.val c (-p) = some (-z) := by
    rw [Posit.val_neg (Posit.ne_nar_of_val hp), hp, Option.map_some]
  have hbit : (-r).getLsbD 0 = r.getLsbD 0 := by
    have hpow := two_pow_pred hN
    have hr := r.isLt
    rw [← BitVec.testBit_toNat, ← BitVec.testBit_toNat, Nat.testBit_zero, Nat.testBit_zero,
      BitVec.toNat_neg, Nat.mod_mod_of_dvd _ (dvd_pow_self 2 hN.ne')]
    congr 2
    omega
  refine ⟨-w, hneg hw, fun p z hp hne => ?_⟩
  have habs (x : ℚ) : |-v - x| = |v - -x| := by rw [← abs_neg]; ring_nf
  rw [habs, habs, neg_neg, hbit]
  exact hnear (-p) (-z) (hneg hp) fun heq => hne (by rw [← heq, neg_neg])

/-- A nonnegative value lies between the midpoints on the two sides of its code, and on one of them only
where the code is even. -/
theorem Posit.nearest_round_of_nonneg {c : Config} {v : ℚ} (hvalue : c.pRoundDomain = .value)
    (hv : 0 ≤ v) : Posit.nearest c v (Posit.round c v) := by
  have hN : 0 < c.pN := by have := c.pN_ge; omega
  have hle := Posit.roundCode_le c .even v
  have habove : ∀ h : Posit.roundCode c .even v < Posit.maxCode c, _ := fun h =>
    mt (Posit.lt_roundCode_iff .even v h).mpr (lt_irrefl _)
  have hbelow : ∀ m, m < Posit.roundCode c .even v → _ := fun m hm =>
    (Posit.lt_roundCode_iff .even v (hm.trans_le hle)).mp hm
  rw [Posit.breakpoint_of_value hvalue] at habove hbelow
  rw [Posit.round_of_nonneg hv]
  generalize Posit.roundCode c .even v = n at *
  have heven : (Posit.ofCode c false n).getLsbD 0 = false ↔ (n : Int) % 2 = 0 := by
    rw [getLsbD_zero_eq_false_iff hN, Posit.ofCode_toInt hle]
  refine ⟨Posit.mag c n, Posit.val_ofCode_false hle, fun p z hp hne => ?_⟩
  have hzne : z ≠ Posit.mag c n := fun heq =>
    Posit.val_ne_of_ne (Posit.ne_nar_of_val hp) hne (hp.trans (heq ▸ (Posit.val_ofCode_false hle).symm))
  rcases hzne.lt_or_gt with hlt | hgt
  · rcases Nat.eq_zero_or_pos n with rfl | hpos
    · rw [Posit.mag_zero] at hlt ⊢
      exact .inl (abs_sub_lt_abs_sub_iff.mpr (by nlinarith))
    · have hz := Posit.le_mag_pred_of_lt hp hle hpos hlt
      have hpass := hbelow (n - 1) (by omega)
      have hmid : 2 * Posit.midpoint c (n - 1) = Posit.mag c (n - 1) + Posit.mag c n := by
        rw [Posit.midpoint, Nat.sub_add_cancel hpos]
        ring
      have hv' : Posit.midpoint c (n - 1) ≤ v := hpass.elim le_of_lt fun h => h.1.ge
      refine (nearer_or_mid (by nlinarith) hzne).imp_right fun ⟨habs, htie⟩ => ⟨habs, heven.mpr ?_⟩
      rcases hpass with hpast | ⟨-, hodd⟩
      · linarith
      · simp only [Tie.goesUp, bne_iff_ne] at hodd
        omega
  · obtain ⟨hlt, hz⟩ := Posit.mag_succ_le_of_lt hp hle hgt
    have hpass := habove hlt
    have hmid : 2 * Posit.midpoint c n = Posit.mag c n + Posit.mag c (n + 1) := by
      rw [Posit.midpoint]
      ring
    have hv' : v ≤ Posit.midpoint c n := not_lt.mp fun h => hpass (.inl h)
    refine (nearer_or_mid (by nlinarith) hzne).imp_right fun ⟨habs, htie⟩ => ⟨habs, heven.mpr ?_⟩
    by_contra hodd
    exact hpass (.inr ⟨by linarith, by simpa [Tie.goesUp] using hodd⟩)

theorem Posit.nearest_round {c : Config} (hvalue : c.pRoundDomain = .value) (v : ℚ) :
    Posit.nearest c v (Posit.round c v) := by
  rcases le_or_gt 0 v with hv | hv
  · exact Posit.nearest_round_of_nonneg hvalue hv
  · have hneg := Posit.nearest_neg (Posit.nearest_round_of_nonneg hvalue (neg_pos.mpr hv).le)
    rwa [Posit.round_neg, neg_neg, neg_neg] at hneg

/-- Between two numbers with bit 0 equal to 0 lies another. -/
theorem Posit.exists_between {c : Config} {a b : BitVec c.pN} {x y : ℚ} (hx : Posit.val c a = some x)
    (hy : Posit.val c b = some y) (ha : a.getLsbD 0 = false) (hb : b.getLsbD 0 = false) (h : x < y) :
    ∃ p z, Posit.val c p = some z ∧ x < z ∧ z < y := by
  have hN : 0 < c.pN := by have := c.pN_ge; omega
  rw [getLsbD_zero_eq_false_iff hN] at ha hb
  have hint := (Posit.val_lt_iff hx hy).mp h
  have hlow := BitVec.le_toInt a
  have hhigh := BitVec.toInt_lt (x := b)
  have hmid : (BitVec.ofInt c.pN (a.toInt + 1)).toInt = a.toInt + 1 :=
    BitVec.toInt_ofInt_eq_self hN (by omega) (by omega)
  have hnar : BitVec.ofInt c.pN (a.toInt + 1) ≠ Posit.nar c := by
    intro heq
    have hnarInt : (Posit.nar c).toInt = -2 ^ (c.pN - 1) := by
      have hpow := two_pow_pred (show 1 ≤ c.pN from hN)
      rw [BitVec.toInt_eq_toNat_cond, Posit.nar_toNat, if_neg (by omega), hpow]
      push_cast
      ring
    rw [heq, hnarInt] at hmid
    omega
  have hz := Posit.val_eq_mag hnar
  exact ⟨_, _, hz, (Posit.val_lt_iff hx hz).mpr (by omega), (Posit.val_lt_iff hz hy).mpr (by omega)⟩

/-- Two patterns that are both nearest are equally near, and both have bit 0 equal to 0. -/
theorem Posit.tie_of_nearest {c : Config} {v : ℚ} {r r' : BitVec c.pN} (hr : Posit.nearest c v r)
    (hr' : Posit.nearest c v r') (hne : r ≠ r') :
    ∃ w w', Posit.val c r = some w ∧ Posit.val c r' = some w' ∧ |v - w| = |v - w'| ∧
      r.getLsbD 0 = false ∧ r'.getLsbD 0 = false := by
  obtain ⟨w, hw, hnear⟩ := hr
  obtain ⟨w', hw', hnear'⟩ := hr'
  rcases hnear r' w' hw' hne.symm with hlt | ⟨heq, hbit⟩ <;>
    rcases hnear' r w hw hne with hlt' | ⟨heq', hbit'⟩
  · exact absurd hlt hlt'.not_gt
  · exact absurd heq' hlt.ne'
  · exact absurd heq hlt'.ne'
  · exact ⟨w, w', hw, hw', heq, hbit, hbit'⟩

/-- Then the value is halfway between them, and a number between them is nearer (R122). -/
theorem Posit.not_nearest_of_tie {c : Config} {v : ℚ} {r r' : BitVec c.pN} {w w' : ℚ}
    (hw : Posit.val c r = some w) (hw' : Posit.val c r' = some w') (hdist : |v - w| = |v - w'|)
    (hbit : r.getLsbD 0 = false) (hbit' : r'.getLsbD 0 = false) (hlt : w < w') :
    ¬ Posit.nearest c v r := by
  rintro ⟨_, h, hnear⟩
  obtain rfl := Option.some_inj.mp (hw.symm.trans h)
  have hmid : v - w = -(v - w') := by
    rcases abs_eq_abs.mp hdist with h0 | h0
    · linarith
    · exact h0
  obtain ⟨p, z, hp, hwz, hzw⟩ := Posit.exists_between hw hw' hbit hbit' hlt
  have hne : p ≠ r := by
    rintro rfl
    exact hwz.ne (Option.some_inj.mp (hw.symm.trans hp))
  have hcloser : |v - z| < |v - w| := abs_sub_lt_abs_sub_iff.mpr (by nlinarith)
  rcases hnear p z hp hne with hlt' | ⟨heq, -⟩
  · exact lt_asymm hcloser hlt'
  · exact hcloser.ne' heq

/-- Settles O26. -/
theorem positRoundingIsToNearestTiesToEven : Obligations.PositRoundingIsToNearestTiesToEven := by
  intro c v hvalue
  have hround := Posit.nearest_round hvalue v
  refine ⟨hround, fun r hr => ?_⟩
  by_contra hne
  obtain ⟨w, w', hw, hw', hdist, hbit, hbit'⟩ := Posit.tie_of_nearest hr hround hne
  rcases lt_trichotomy w w' with hlt | heq | hgt
  · exact Posit.not_nearest_of_tie hw hw' hdist hbit hbit' hlt hr
  · exact Posit.val_ne_of_ne (Posit.ne_nar_of_val hw) hne (hw.trans (heq ▸ hw'.symm))
  · exact Posit.not_nearest_of_tie hw' hw hdist.symm hbit' hbit hgt hround

end Sys2Proof.Proofs
end

section
/-! The bits of the unbounded string, and rounding its cut (spec 43_rounder.md R125). -/

namespace Sys2Proof.Proofs

open Sys2Proof.Machine

/-! The binary expansion of a rational. -/

/-- The next bit of a binary expansion (R125). -/
theorem floor_mul_two (y : ℚ) :
    ⌊y * 2⌋ = 2 * ⌊y⌋ + ⌊y * 2⌋ % 2 := by
  have hhalf : ⌊y * 2⌋ / 2 = ⌊y⌋ := by
    have hdiv := Int.floor_div_natCast (y * 2) 2
    rw [← Nat.cast_ofNat, mul_div_cancel_right₀ _ (by norm_num)] at hdiv
    exact hdiv.symm
  omega

/-- A later bit is 1 exactly where something is cut off. -/
theorem exists_bit_iff (y : ℚ) : (∃ i : Nat, ⌊y * 2 ^ (i + 1)⌋ % 2 = 1) ↔ y ≠ ⌊y⌋ := by
  constructor
  · rintro ⟨i, hi⟩ hint
    have hfloor : ⌊y * 2 ^ (i + 1)⌋ = ⌊y⌋ * 2 ^ (i + 1) := by
      rw [hint]
      exact_mod_cast Int.floor_intCast (⌊y⌋ * 2 ^ (i + 1))
    rw [hfloor, pow_succ, ← mul_assoc, Int.mul_emod_left] at hi
    omega
  · intro hne
    by_contra! hzero
    have hshift (i : Nat) : ⌊y * 2 ^ i⌋ = ⌊y⌋ * 2 ^ i := by
      induction i with
      | zero => simp
      | succ i ih =>
        have hbit := hzero i
        have hnext := floor_mul_two (y * 2 ^ i)
        rw [mul_assoc, ← pow_succ, ih] at hnext
        rw [pow_succ (2 : Int), ← mul_assoc]
        omega
    have hfract : 0 < y - ⌊y⌋ := sub_pos.mpr (lt_of_le_of_ne (Int.floor_le y) hne.symm)
    obtain ⟨i, hi⟩ := exists_pow_lt_of_lt_one hfract (show (1 / 2 : ℚ) < 1 by norm_num)
    have hlt := Int.lt_floor_add_one (y * 2 ^ i)
    rw [hshift, div_pow, one_pow, div_lt_iff₀ (by positivity)] at *
    push_cast at hlt
    linarith

/-- Guard bit, later bits and parity say whether the value lies past the half (R12, R125). -/
theorem guard_iff_passes (y : ℚ) :
    (⌊y * 2⌋ % 2 = 1 ∧ (y * 2 ≠ ⌊y * 2⌋ ∨ ⌊y⌋ % 2 = 1)) ↔
      Tie.passes .even ⌊y⌋ (⌊y⌋ + 1 / 2) y := by
  have hnext := floor_mul_two y
  have hlow := Int.floor_le (y * 2)
  have hhigh := Int.lt_floor_add_one (y * 2)
  have hodd : Tie.goesUp .even ⌊y⌋ = true ↔ ⌊y⌋ % 2 = 1 := by
    simp only [Tie.goesUp, bne_iff_ne]
    omega
  rw [Tie.passes, hodd]
  rcases Int.emod_two_eq_zero_or_one ⌊y * 2⌋ with h | h <;> rw [h] at hnext ⊢ <;>
    rw [hnext] at hlow hhigh ⊢ <;> push_cast at hlow hhigh ⊢
  · refine iff_of_false (by simp) ?_
    rintro (hgt | ⟨heq, -⟩) <;> linarith
  · rw [true_and]
    constructor
    · rintro (hne | hparity)
      · exact .inl (lt_of_le_of_ne (by linarith) fun heq => hne (by linarith))
      · rcases (show (⌊y⌋ : ℚ) + 1 / 2 ≤ y by linarith).lt_or_eq with hlt | heq
        · exact .inl hlt
        · exact .inr ⟨heq.symm, hparity⟩
    · rintro (hgt | ⟨-, hparity⟩)
      · exact .inl fun heq => by linarith
      · exact .inr hparity

/-! The bits of the string are those of its value. -/

/-- The number of regime bits before the terminator (R125). -/
def Posit.runOf (k : Int) : Nat := if 0 ≤ k then k.toNat + 1 else (-k).toNat

theorem Posit.regimeString_length (k : Int) : (Posit.regimeString k).2 = Posit.runOf k + 1 := by
  unfold Posit.regimeString Posit.runOf
  split <;> rfl

/-- A run of equal bits and the opposite one (R125). -/
theorem Posit.testBit_regimeString {k : Int} {m : Nat} (hm : m ≤ Posit.runOf k) :
    (Posit.regimeString k).1.testBit m = if m = 0 then decide (k < 0) else decide (0 ≤ k) := by
  unfold Posit.regimeString
  unfold Posit.runOf at hm
  split
  case isTrue hk =>
    rw [if_pos hk] at hm
    cases m with
    | zero => simp [Nat.testBit_zero, hk]
    | succ m => simp [Nat.testBit_succ, Nat.testBit_two_pow_sub_one, hk]; omega
  case isFalse hk =>
    cases m with
    | zero => simpa using hk
    | succ m => simpa [Nat.testBit_succ] using hk

/-- The exponent has `P_ES` bits. -/
theorem Posit.exists_exponent (c : Config) (s : Int) :
    ∃ e : Nat, (s - s / 2 ^ c.pES * 2 ^ c.pES).toNat = e ∧ e < 2 ^ c.pES ∧
      Posit.stringHead c s = (2 ^ c.pES * (Posit.regimeString (s / 2 ^ c.pES)).1 + e : Nat) := by
  have hunit : (0 : Int) < 2 ^ c.pES := by positivity
  have hexp : s - s / 2 ^ c.pES * 2 ^ c.pES = s % 2 ^ c.pES := by rw [Int.emod_def, mul_comm]
  have hnonneg := Int.emod_nonneg s hunit.ne'
  have hlt := Int.emod_lt_of_pos s hunit
  refine ⟨_, rfl, ?_, ?_⟩
  · zify
    rwa [hexp, Int.toNat_of_nonneg hnonneg]
  · rw [Posit.stringHead]
    push_cast
    rw [hexp, Int.toNat_of_nonneg hnonneg]
    ring

theorem Posit.headLength_eq (c : Config) (s : Int) :
    Posit.headLength c s = Posit.runOf (s / 2 ^ c.pES) + 1 + c.pES := by
  rw [Posit.headLength, Posit.regimeString_length]

section Bits

variable {c : Config} {x : ℚ}

theorem Posit.floor_stringValue_head (hx : 0 < x) {j : Nat}
    (hj : j < Posit.headLength c (floorLog2 x)) :
    ⌊Posit.stringValue c x * 2 ^ (j + 1)⌋ =
      Posit.stringHead c (floorLog2 x) / (2 ^ (Posit.headLength c (floorLog2 x) - 1 - j) : Nat) := by
  obtain ⟨hlow, hhigh⟩ := fraction_bounds hx
  rw [Posit.stringValue_eq c hx]
  generalize Posit.headLength c (floorLog2 x) = len at *
  generalize x / pow2 (floorLog2 x) - 1 = t at *
  have hsplit : (2 : ℚ) ^ len = 2 ^ (j + 1) * (2 ^ (len - 1 - j) : Nat) := by
    push_cast
    rw [← pow_add]
    congr 1
    omega
  have hfloor : ⌊t⌋ = 0 := Int.floor_eq_zero_iff.mpr ⟨hlow, hhigh⟩
  rw [hsplit, div_mul_eq_mul_div, mul_comm, mul_div_mul_left _ _ (by positivity), Int.floor_div_natCast,
    Int.floor_intCast_add, hfloor, add_zero]

theorem Posit.floor_stringValue_fraction (hx : 0 < x) (i : Nat) :
    ⌊Posit.stringValue c x * 2 ^ (Posit.headLength c (floorLog2 x) + i)⌋ =
      Posit.stringHead c (floorLog2 x) * 2 ^ i + ⌊(x / pow2 (floorLog2 x) - 1) * 2 ^ i⌋ := by
  rw [Posit.stringValue_eq c hx, pow_add, ← mul_assoc, div_mul_cancel₀ _ (by positivity), add_mul,
    ← Int.floor_intCast_add]
  push_cast
  rfl

/-- Bit `j` of the string (R125): the run, its terminator, the exponent, the fraction. -/
theorem Posit.stringBit_eq (hx : 0 < x) (j : Nat) :
    Posit.stringBit c x j = decide (⌊Posit.stringValue c x * 2 ^ (j + 1)⌋ % 2 = 1) := by
  obtain ⟨e, he, helt, hhead⟩ := Posit.exists_exponent c (floorLog2 x)
  have hlen := Posit.headLength_eq c (floorLog2 x)
  have hbit : Posit.stringBit c x j =
      if j < Posit.runOf (floorLog2 x / 2 ^ c.pES) then decide (0 ≤ floorLog2 x / 2 ^ c.pES)
      else if j = Posit.runOf (floorLog2 x / 2 ^ c.pES) then decide (floorLog2 x / 2 ^ c.pES < 0)
      else if j ≤ Posit.runOf (floorLog2 x / 2 ^ c.pES) + c.pES then
        (floorLog2 x - floorLog2 x / 2 ^ c.pES * 2 ^ c.pES).toNat.testBit
          (c.pES - (j - Posit.runOf (floorLog2 x / 2 ^ c.pES)))
      else ((x / pow2 (floorLog2 x) - 1) *
        2 ^ (j - Posit.runOf (floorLog2 x / 2 ^ c.pES) - c.pES)).floor % 2 == 1 := rfl
  rw [hbit, he]
  by_cases hj : j < Posit.headLength c (floorLog2 x)
  · have htest : decide (⌊Posit.stringValue c x * 2 ^ (j + 1)⌋ % 2 = 1) =
        (2 ^ c.pES * (Posit.regimeString (floorLog2 x / 2 ^ c.pES)).1 + e).testBit
          (Posit.headLength c (floorLog2 x) - 1 - j) := by
      rw [Posit.floor_stringValue_head hx hj, hhead, Nat.testBit_eq_decide_div_mod_eq]
      norm_cast
    rw [htest, Nat.testBit_two_pow_mul_add _ helt, hlen]
    generalize floorLog2 x / 2 ^ c.pES = k at *
    rcases lt_trichotomy j (Posit.runOf k) with hlt | heq | hgt
    · rw [if_pos hlt, if_neg (by omega), Posit.testBit_regimeString (by omega), if_neg (by omega)]
    · rw [if_neg (by omega), if_pos heq, if_neg (by omega), Posit.testBit_regimeString (by omega),
        if_pos (by omega)]
    · rw [if_neg (by omega), if_neg (by omega), if_pos (by omega), if_pos (by omega)]
      congr 1
      omega
  · obtain ⟨i, hi⟩ := Nat.exists_eq_add_of_le (not_lt.mp hj)
    have hexp : j - Posit.runOf (floorLog2 x / 2 ^ c.pES) - c.pES = i + 1 := by omega
    have hfloor := Posit.floor_stringValue_fraction (c := c) hx (i + 1)
    have hparity (head tail : Int) : (head * 2 ^ (i + 1) + tail) % 2 = tail % 2 := by
      rw [pow_succ, ← mul_assoc]
      omega
    rw [← add_assoc, ← hi] at hfloor
    rw [if_neg (by omega), if_neg (by omega), if_neg (by omega), hexp, hfloor, hparity]
    rfl

/-- The first bits as an integer: the whole part of the string shifted so far. -/
theorem Posit.leadingBits_eq (hx : 0 < x) (n : Nat) :
    (Posit.leadingBits c x n : Int) = ⌊Posit.stringValue c x * 2 ^ n⌋ := by
  induction n with
  | zero =>
    obtain ⟨hpos, hlt⟩ := Posit.stringValue_bounds c x
    rw [pow_zero, mul_one, Int.floor_eq_zero_iff.mpr ⟨hpos.le, hlt⟩]
    rfl
  | succ n ih =>
    have hnext := floor_mul_two (Posit.stringValue c x * 2 ^ n)
    rw [mul_assoc, ← pow_succ, ← ih] at hnext
    rw [Posit.leadingBits, Posit.stringBit_eq hx]
    rcases Int.emod_two_eq_zero_or_one ⌊Posit.stringValue c x * 2 ^ (n + 1)⌋ with h | h <;>
      simp [h] at hnext ⊢ <;> omega

/-- The cut of R125 rounds up where `rne` does. -/
theorem Posit.cutRoundsUp_iff (hx : 0 < x) :
    Posit.cutRoundsUp c x ↔
      ⌊Posit.stringValue c x * 2 ^ (c.pN - 1)⌋ < rne (Posit.stringValue c x * 2 ^ (c.pN - 1)) := by
  have hN : c.pN - 1 + 1 = c.pN := Nat.sub_add_cancel (by have := c.pN_ge; omega)
  have hlater : (∃ j, c.pN ≤ j ∧ Posit.stringBit c x j = true) ↔
      ∃ i : Nat, ⌊Posit.stringValue c x * 2 ^ (c.pN - 1) * 2 * 2 ^ (i + 1)⌋ % 2 = 1 := by
    have hshift (i : Nat) : Posit.stringValue c x * 2 ^ (c.pN - 1) * 2 * 2 ^ (i + 1) =
        Posit.stringValue c x * 2 ^ (c.pN + i + 1) := by
      rw [mul_assoc _ _ (2 : ℚ), ← pow_succ, hN, mul_assoc, ← pow_add, add_assoc]
    constructor
    · rintro ⟨j, hj, hbit⟩
      obtain ⟨i, rfl⟩ := Nat.exists_eq_add_of_le hj
      rw [Posit.stringBit_eq hx, decide_eq_true_iff] at hbit
      exact ⟨i, by rwa [hshift]⟩
    · rintro ⟨i, hi⟩
      refine ⟨c.pN + i, Nat.le_add_right _ _, ?_⟩
      rwa [Posit.stringBit_eq hx, decide_eq_true_iff, ← hshift]
  have hguard : Posit.stringBit c x (c.pN - 1) = true ↔
      ⌊Posit.stringValue c x * 2 ^ (c.pN - 1) * 2⌋ % 2 = 1 := by
    rw [Posit.stringBit_eq hx, decide_eq_true_iff, pow_succ, mul_assoc]
  have hkept : Posit.leadingBits c x (c.pN - 1) % 2 = 1 ↔
      ⌊Posit.stringValue c x * 2 ^ (c.pN - 1)⌋ % 2 = 1 := by
    rw [← Posit.leadingBits_eq hx]
    omega
  rw [Posit.cutRoundsUp, hlater, hguard, hkept, exists_bit_iff, rne, lt_roundInt_iff, guard_iff_passes]

end Bits

theorem rne_eq_ite (t : ℚ) : rne t = if ⌊t⌋ < rne t then ⌊t⌋ + 1 else ⌊t⌋ := by
  have hfloor : t.floor = ⌊t⌋ := rfl
  unfold rne
  rcases roundInt_cases .even t with ⟨h, -⟩ | ⟨h, -⟩ <;> rw [h, hfloor]
  · rw [if_neg (lt_irrefl _)]
  · rw [if_pos (lt_add_one _)]

/-- Settles O28: the code is `rne` of the string with its point after `N − 1` bits, clamped. -/
theorem bitstringRoundingCutsTheString : Obligations.BitstringRoundingCutsTheString := by
  intro c v hbits hv
  have hx : 0 < |v| := abs_pos.mpr hv
  have hcode : Posit.roundCode c .even |v| =
      min (rne (Posit.stringValue c |v| * 2 ^ (c.pN - 1))).toNat (Posit.maxCode c) := by
    rw [Posit.roundCode_of_bitstring hbits, Posit.bitstringCode_of_pos .even hx, rne]
  have hkept := Posit.leadingBits_eq (c := c) hx (c.pN - 1)
  refine ⟨Posit.roundCode c .even |v|, by simp [Posit.round_eq, Posit.ofCode], fun hup => ?_,
    fun hdown => ?_⟩
  · rw [Posit.cutRoundsUp_iff hx] at hup
    rw [hcode, rne_eq_ite, if_pos hup, ← hkept]
    rfl
  · rw [Posit.cutRoundsUp_iff hx] at hdown
    rw [hcode, rne_eq_ite, if_neg hdown, ← hkept]
    rfl

end Sys2Proof.Proofs
end

section
/-! Where the two readings of "nearest" agree, and where the bit string goes to zero (spec 43_rounder.md
R125). -/

namespace Sys2Proof.Proofs

open Sys2Proof.Machine

/-- Between two magnitudes the breakpoint between them decides. -/
theorem Posit.roundCode_of_bracket {c : Config} (tie : Tie) {x : ℚ} {n : Nat}
    (hn : n < Posit.maxCode c) (hlow : Posit.mag c n ≤ x) (hhigh : x < Posit.mag c (n + 1)) :
    (Posit.roundCode c tie x = n + 1 ∧ Tie.passes tie n (Posit.breakpoint c n) x) ∨
      (Posit.roundCode c tie x = n ∧ ¬Tie.passes tie n (Posit.breakpoint c n) x) := by
  have hmono : Monotone fun x => (Posit.roundCode c tie x : Int) := (Posit.stepsAt c).mono tie
  have hge := hmono hlow
  have hle := hmono hhigh.le
  dsimp only at hge hle
  rw [Posit.roundCode_mag tie hn.le] at hge
  rw [Posit.roundCode_mag tie hn] at hle
  rw [← Posit.lt_roundCode_iff tie x hn]
  omega

section Fits

variable {c : Config} {s : Int}

/-- Where regime and exponent fit, the cut string runs linearly between two powers of two. -/
theorem Posit.cut_segment (hfit : Posit.headLength c s ≤ c.pN - 1) {y : ℚ} (hlow : pow2 s ≤ y)
    (hhigh : y ≤ pow2 (s + 1)) :
    Posit.stringValue c y * 2 ^ (c.pN - 1) =
      (Posit.stringHead c s + (y / pow2 s - 1)) * 2 ^ (c.pN - 1 - Posit.headLength c s) := by
  have hsplit : (2 : ℚ) ^ (c.pN - 1) =
      2 ^ Posit.headLength c s * 2 ^ (c.pN - 1 - Posit.headLength c s) := by
    rw [← pow_add, Nat.add_sub_cancel' hfit]
  rw [Posit.stringValue_segment c hlow hhigh, hsplit, ← mul_assoc, div_mul_cancel₀ _ (by positivity)]

/-- The magnitude whose cut string is `m`, for an `m` between those of two powers of two. -/
def Posit.magOfCut (c : Config) (s : Int) (m : ℚ) : ℚ :=
  pow2 s * (m / 2 ^ (c.pN - 1 - Posit.headLength c s) - Posit.stringHead c s + 1)

theorem Posit.eq_magOfCut (hfit : Posit.headLength c s ≤ c.pN - 1) {z m : ℚ} (hz : 0 < z)
    (hm : (Posit.stringHead c s : ℚ) * 2 ^ (c.pN - 1 - Posit.headLength c s) ≤ m)
    (hm' : m ≤ ((Posit.stringHead c s : ℚ) + 1) * 2 ^ (c.pN - 1 - Posit.headLength c s))
    (h : Posit.stringValue c z * 2 ^ (c.pN - 1) = m) : z = Posit.magOfCut c s m := by
  have hpow := pow2_pos s
  have hunit : (0 : ℚ) < 2 ^ (c.pN - 1 - Posit.headLength c s) := by positivity
  have hlow : pow2 s ≤ Posit.magOfCut c s m := by
    rw [← le_div_iff₀ hunit] at hm
    exact le_mul_of_one_le_right hpow.le (by linarith)
  have hhigh : Posit.magOfCut c s m ≤ pow2 (s + 1) := by
    rw [← div_le_iff₀ hunit] at hm'
    rw [pow2_succ, mul_comm 2]
    exact mul_le_mul_of_nonneg_left (by linarith) hpow.le
  have hcut := Posit.cut_segment hfit hlow hhigh
  have hvalue : Posit.stringValue c (Posit.magOfCut c s m) * 2 ^ (c.pN - 1) = m := by
    rw [hcut, Posit.magOfCut]
    field_simp
    ring
  rw [← Posit.stringValue_inj c hz (hpow.trans_le hlow)]
  exact mul_right_cancel₀ (by positivity) (h.trans hvalue.symm)

/-- There the breakpoint on the string is the midpoint of the values. -/
theorem Posit.stringMidpoint_eq_midpoint (hfit : Posit.headLength c s ≤ c.pN - 1) {n : Nat}
    (hpos : 0 < n) (hn : n < Posit.maxCode c)
    (hlow : (Posit.stringHead c s : ℚ) * 2 ^ (c.pN - 1 - Posit.headLength c s) ≤ n)
    (hhigh : (n : ℚ) + 1 ≤ (Posit.stringHead c s + 1) * 2 ^ (c.pN - 1 - Posit.headLength c s)) :
    Posit.stringMidpoint c n = Posit.midpoint c n := by
  have hcut {m : Nat} (hm : 0 < m) (hm' : m ≤ Posit.maxCode c) :
      Posit.stringValue c (Posit.mag c m) * 2 ^ (c.pN - 1) = m := by
    rw [Posit.stringValue_mag hm hm', div_mul_cancel₀ _ (by positivity)]
  have hmid := Posit.eq_magOfCut hfit (Posit.stringMidpoint_pos c n) (m := n + 1 / 2) (by linarith)
    (by linarith) (Posit.stringValue_stringMidpoint hn)
  have hmag := Posit.eq_magOfCut hfit (Posit.mag_pos hpos) hlow (by linarith) (hcut hpos hn.le)
  have hmag' := Posit.eq_magOfCut hfit (Posit.mag_pos n.succ_pos) (m := n + 1) (by linarith) hhigh
    (by exact_mod_cast hcut n.succ_pos hn)
  rw [Posit.midpoint, hmid, hmag, hmag', Posit.magOfCut, Posit.magOfCut, Posit.magOfCut]
  ring

/-- The head is positive, and is not all ones. -/
theorem Posit.stringHead_bounds (c : Config) (s : Int) :
    0 < Posit.stringHead c s ∧ Posit.stringHead c s + 1 < 2 ^ Posit.headLength c s := by
  have hpow := pow2_pos s
  have hstep : pow2 s ≤ pow2 (s + 1) := pow2_le_iff.mpr (by omega)
  have hlow := (Posit.stringValue_bounds c (pow2 s)).1
  have hhigh := (Posit.stringValue_bounds c (pow2 (s + 1))).2
  rw [Posit.stringValue_segment c (le_refl _) hstep, div_self hpow.ne',
    div_pos_iff_of_pos_right (by positivity)] at hlow
  rw [Posit.stringValue_segment c hstep (le_refl _), pow2_succ, mul_div_cancel_right₀ _ hpow.ne',
    div_lt_one (by positivity)] at hhigh
  constructor
  · have hlow' : (0 : ℚ) < Posit.stringHead c s := by linarith
    exact_mod_cast hlow'
  · have hhigh' : (Posit.stringHead c s : ℚ) + 1 < 2 ^ Posit.headLength c s := by linarith
    exact_mod_cast hhigh'

end Fits

/-- The whole part of a value in one of the stretches of `unit` that follow on one another. -/
theorem exists_whole_part {head : Int} {unit last : Nat} {frac y : ℚ} (hhead : 0 < head)
    (hunit : 0 < unit) (hlast : (head + 1) * unit < last + 1) (hfrac : 0 ≤ frac) (hfrac' : frac < 1)
    (hy : y = (head + frac) * unit) :
    ∃ n : Nat, 0 < n ∧ n < last ∧ (head : ℚ) * unit ≤ n ∧ (n : ℚ) + 1 ≤ (head + 1) * unit ∧
      n ≤ y ∧ y < n + 1 := by
  have hunitq : (0 : ℚ) < unit := by exact_mod_cast hunit
  have hlow : head * unit ≤ ⌊y⌋ := by
    rw [Int.le_floor, hy]
    push_cast
    gcongr
    linarith
  have hhigh : ⌊y⌋ < (head + 1) * unit := by
    rw [Int.floor_lt, hy]
    push_cast
    gcongr
  have hpos : 0 < head * unit := by positivity
  obtain ⟨n, hn⟩ := Int.eq_ofNat_of_zero_le (show 0 ≤ ⌊y⌋ by omega)
  have hfloor := Int.floor_le y
  have hfloor' := Int.lt_floor_add_one y
  rw [hn] at hlow hhigh hfloor hfloor'
  exact ⟨n, by omega, by omega, by exact_mod_cast hlow, by exact_mod_cast hhigh, hfloor, hfloor'⟩

/-- Where regime and exponent fit, the kept bits are those of a positive code below maxpos, and the code
above it is in the same linear part. -/
theorem Posit.exists_kept {c : Config} {x : ℚ} (hx : 0 < x)
    (hfit : Posit.headLength c (floorLog2 x) ≤ c.pN - 1) :
    ∃ n : Nat, 0 < n ∧ n < Posit.maxCode c ∧ Posit.mag c n ≤ x ∧ x < Posit.mag c (n + 1) ∧
      Posit.stringMidpoint c n = Posit.midpoint c n := by
  obtain ⟨hpos, hones⟩ := Posit.stringHead_bounds c (floorLog2 x)
  obtain ⟨hfrac, hfrac'⟩ := fraction_bounds hx
  obtain ⟨hlog, hlog'⟩ := floorLog2_bracket hx
  have hlast : (Posit.stringHead c (floorLog2 x) + 1) *
      (2 ^ (c.pN - 1 - Posit.headLength c (floorLog2 x)) : Nat) < Posit.maxCode c + 1 := by
    have hsplit : (Posit.maxCode c : Int) + 1 = 2 ^ Posit.headLength c (floorLog2 x) *
        (2 ^ (c.pN - 1 - Posit.headLength c (floorLog2 x)) : Nat) := by
      push_cast
      rw [← pow_add, Nat.add_sub_cancel' hfit]
      exact_mod_cast Posit.maxCode_succ c
    rw [hsplit]
    gcongr
  have hcut := Posit.cut_segment hfit hlog hlog'.le
  obtain ⟨n, hn0, hn, hlow, hhigh, hfloor, hfloor'⟩ := exists_whole_part
    (y := Posit.stringValue c x * 2 ^ (c.pN - 1)) hpos (Nat.two_pow_pos _) hlast hfrac hfrac'
    (by push_cast; exact hcut)
  have hunit : (0 : ℚ) < 2 ^ (c.pN - 1) := by positivity
  refine ⟨n, hn0, hn, ?_, ?_, Posit.stringMidpoint_eq_midpoint hfit hn0 hn (by exact_mod_cast hlow)
    (by exact_mod_cast hhigh)⟩
  · rw [← not_lt, ← Posit.stringValue_lt_iff c hx (Posit.mag_pos hn0), Posit.stringValue_mag hn0 hn.le,
      lt_div_iff₀ hunit, not_lt]
    exact hfloor
  · rw [← Posit.stringValue_lt_iff c hx (Posit.mag_pos n.succ_pos), Posit.stringValue_mag n.succ_pos hn,
      lt_div_iff₀ hunit]
    push_cast
    exact hfloor'

/-- The two readings agree there. -/
theorem Posit.roundCode_eq_of_fits {c : Config} (tie : Tie) {x : ℚ} (hx : 0 < x)
    (hbits : c.pRoundDomain = .bitstring) (hfit : Posit.headLength c (floorLog2 x) ≤ c.pN - 1) :
    Posit.roundCode c tie x = Posit.roundCode { c with pRoundDomain := .value } tie x := by
  obtain ⟨n, -, hn, hlow, hhigh, hmid⟩ := Posit.exists_kept hx hfit
  have hstring := Posit.roundCode_of_bracket tie hn hlow hhigh
  have hvalue := Posit.roundCode_of_bracket (c := { c with pRoundDomain := .value }) tie hn hlow hhigh
  rw [Posit.breakpoint_of_bitstring hbits, hmid] at hstring
  rw [Posit.breakpoint_of_value rfl] at hvalue
  rcases hstring with ⟨h, hpass⟩ | ⟨h, hpass⟩ <;> rcases hvalue with ⟨h', hpass'⟩ | ⟨h', hpass'⟩
  · exact h.trans h'.symm
  · exact absurd hpass hpass'
  · exact absurd hpass' hpass
  · exact h.trans h'.symm

/-- The magnitudes that go to zero under `bitstring` are those up to the value of the lone last bit. -/
theorem Posit.round_eq_zero_iff {c : Config} (hbits : c.pRoundDomain = .bitstring) (v : ℚ) :
    Posit.round c v = Posit.zero c ↔ |v| ≤ (2 : ℚ) ^ (-((c.pN : Int) - 1) * 2 ^ c.pES) := by
  have hstart : Posit.stringMidpoint c 0 = (2 : ℚ) ^ (-((c.pN : Int) - 1) * 2 ^ c.pES) := by
    have hmin : (widen c).pMinPos = pow2 (-((c.pN + 1 - 2 : Nat) * (2 ^ c.pES : Nat))) := rfl
    rw [Posit.stringMidpoint, mul_zero, zero_add, Posit.mag_one, hmin, pow2]
    congr 1
    have hN := c.pN_ge
    push_cast [show c.pN + 1 - 2 = c.pN - 1 by omega, show 1 ≤ c.pN by omega]
    ring
  have hcode : Posit.round c v = Posit.zero c ↔ ¬ 0 < Posit.roundCode c .even |v| := by
    rw [Posit.round_eq, ← Posit.ofCode_zero c (decide (v < 0)), Nat.not_lt, Nat.le_zero]
    exact ⟨Posit.ofCode_inj (Posit.roundCode_le c _ _) (Nat.zero_le _), congrArg _⟩
  rw [hcode, Posit.lt_roundCode_iff .even |v| (Posit.maxCode_pos c), Posit.breakpoint_of_bitstring hbits,
    hstart, Tie.passes]
  simp [Tie.goesUp]

/-- Settles O29. -/
theorem bitstringRoundingAgreesInTheFraction : Obligations.BitstringRoundingAgreesInTheFraction := by
  refine ⟨?_, fun c v hbits => Posit.round_eq_zero_iff hbits v⟩
  rintro c _ v hbits rfl hv hfit
  rw [Posit.round_eq, Posit.round_eq, Posit.roundCode_eq_of_fits .even (abs_pos.mpr hv) hbits hfit]
  rfl

end Sys2Proof.Proofs
end

section
/-! The posit adder, subtractor, multiplier and divider (spec 44_posit_arith.md R140 to R149). -/

namespace Sys2Proof.Proofs

open Sys2Proof.Machine

/-! The values of the operands: NaR, zero and negation (R142, R144). -/

theorem Posit.val_nar (c : Config) : Posit.val c (Posit.nar c) = none :=
  (Posit.val_eq_none_iff c _).mpr rfl

theorem Posit.neg_zeroPattern (c : Config) : -Posit.zero c = Posit.zero c := by
  simp [Posit.zero]

theorem Posit.neg_narPattern (c : Config) : -Posit.nar c = Posit.nar c := by
  have hpow := two_pow_pred (show 1 ≤ c.pN by have := c.pN_ge; omega)
  have hpos := Posit.one_lt_two_pow c
  apply BitVec.eq_of_toNat_eq
  rw [BitVec.toNat_neg, Posit.nar_toNat, Nat.mod_eq_of_lt (by omega)]
  omega

/-- Two's complement negates the value of every pattern; NaR stays without one. -/
theorem Posit.val_neg_pattern (c : Config) (p : BitVec c.pN) :
    Posit.val c (-p) = (Posit.val c p).map (-·) := by
  by_cases hnar : p = Posit.nar c
  · rw [hnar, Posit.neg_narPattern, Posit.val_nar, Option.map_none]
  · exact Posit.val_neg hnar

theorem Posit.val_eq_zero_iff {c : Config} {p : BitVec c.pN} {x : ℚ} (h : Posit.val c p = some x) :
    x = 0 ↔ p = Posit.zero c := by
  constructor
  · rintro rfl
    by_contra hne
    exact Posit.val_ne_of_ne (Posit.ne_nar_of_val h) hne (h.trans (Posit.val_zero c).symm)
  · rintro rfl
    exact (Option.some_inj.mp ((Posit.val_zero c).symm.trans h)).symm

/-! The common procedure (R140) meets its operands through their values alone. -/

theorem Posit.operate_eq (c : Config) (f : ℚ → ℚ → Option ℚ) (a b : BitVec c.pN) :
    Posit.operate c f a b =
      (((Posit.val c a).bind fun x => (Posit.val c b).bind (f x)).map (Posit.round c)).getD
        (Posit.nar c) := by
  rcases Posit.operate_cases c f a b with ⟨hnar, hop⟩ | ⟨x, y, hx, hy, hop⟩
  · rw [hop]
    rcases hnar with rfl | rfl <;> simp [Posit.val_nar]
  · rw [hop, hx, hy]
    rfl

theorem Posit.operate_nar_left (c : Config) (f : ℚ → ℚ → Option ℚ) (b : BitVec c.pN) :
    Posit.operate c f (Posit.nar c) b = Posit.nar c := by
  simp [Posit.operate_eq, Posit.val_nar]

theorem Posit.operate_nar_right (c : Config) (f : ℚ → ℚ → Option ℚ) (a : BitVec c.pN) :
    Posit.operate c f a (Posit.nar c) = Posit.nar c := by
  simp [Posit.operate_eq, Posit.val_nar]

section Function

variable {c : Config} {f : ℚ → ℚ → Option ℚ}

theorem Posit.operate_swap (h : ∀ x y, f x y = f y x) (a b : BitVec c.pN) :
    Posit.operate c f a b = Posit.operate c f b a := by
  rw [Posit.operate_eq, Posit.operate_eq]
  cases Posit.val c a <;> cases Posit.val c b <;> simp [h]

theorem Posit.operate_neg_right (a b : BitVec c.pN) :
    Posit.operate c f a (-b) = Posit.operate c (fun x y => f x (-y)) a b := by
  simp only [Posit.operate_eq, Posit.val_neg_pattern, Option.bind_map, Function.comp_def]

theorem Posit.operate_neg_neg (a b : BitVec c.pN) :
    Posit.operate c f (-a) (-b) = Posit.operate c (fun x y => f (-x) (-y)) a b := by
  simp only [Posit.operate_eq, Posit.val_neg_pattern, Option.bind_map, Function.comp_def]

/-- An odd function of the values is odd on patterns, because rounding is (R149). -/
theorem Posit.operate_odd (h : ∀ x y, f (-x) (-y) = (f x y).map (-·)) (a b : BitVec c.pN) :
    Posit.operate c f (-a) (-b) = -Posit.operate c f a b := by
  rw [Posit.operate_neg_neg]
  simp only [h]
  rw [Posit.operate_eq, Posit.operate_eq]
  rcases Posit.val c a with _ | x <;> rcases Posit.val c b with _ | y
  case some.some =>
    rcases hf : f x y with _ | v <;> simp [hf, Posit.round_neg, Posit.neg_narPattern]
  all_goals simp [Posit.neg_narPattern]

/-- An even function of the values is even on patterns (R149). -/
theorem Posit.operate_even (h : ∀ x y, f (-x) (-y) = f x y) (a b : BitVec c.pN) :
    Posit.operate c f (-a) (-b) = Posit.operate c f a b := by
  rw [Posit.operate_neg_neg]
  simp only [h]

end Function

section Values

variable {c : Config} {a b : BitVec c.pN} {x y : ℚ} (hx : Posit.val c a = some x)
  (hy : Posit.val c b = some y)

include hx hy

theorem Posit.operate_of_val (f : ℚ → ℚ → Option ℚ) :
    Posit.operate c f a b = ((f x y).map (Posit.round c)).getD (Posit.nar c) := by
  rw [Posit.operate_eq, hx, hy]
  rfl

theorem Posit.padd_of_val : Posit.add c a b = Posit.round c (x + y) := Posit.operate_of_val hx hy _

theorem Posit.psub_of_val : Posit.sub c a b = Posit.round c (x - y) := Posit.operate_of_val hx hy _

theorem Posit.pmul_of_val : Posit.mul c a b = Posit.round c (x * y) := Posit.operate_of_val hx hy _

theorem Posit.pdiv_of_val :
    Posit.div c a b = if b = Posit.zero c then Posit.nar c else Posit.round c (x / y) := by
  rw [Posit.div, Posit.operate_of_val hx hy, exactQuotient]
  simp only [Posit.val_eq_zero_iff hy]
  split <;> rfl

end Values

/-! The four operations answer the pattern of the common procedure, with no fault (R140). -/

section Exec

variable (s : State) (a b : BitVec s.cfg.pN)

theorem exec_padd :
    exec (.padd a.toNat b.toNat) s = .next (s.answer (.pattern (Posit.add s.cfg a b))) := by
  show execPadd a.toNat b.toNat s = _
  rw [execPadd, posPort_toNat, posPort_toNat, deliver_ok]

theorem exec_psub :
    exec (.psub a.toNat b.toNat) s = .next (s.answer (.pattern (Posit.sub s.cfg a b))) := by
  show execPsub a.toNat b.toNat s = _
  rw [execPsub, posPort_toNat, posPort_toNat, deliver_ok]

theorem exec_pmul :
    exec (.pmul a.toNat b.toNat) s = .next (s.answer (.pattern (Posit.mul s.cfg a b))) := by
  show execPmul a.toNat b.toNat s = _
  rw [execPmul, posPort_toNat, posPort_toNat, deliver_ok]

theorem exec_pdiv :
    exec (.pdiv a.toNat b.toNat) s = .next (s.answer (.pattern (Posit.div s.cfg a b))) := by
  show execPdiv a.toNat b.toNat s = _
  rw [execPdiv, posPort_toNat, posPort_toNat, deliver_ok]

end Exec

/-! The laws of the four operations. -/

theorem Posit.padd_comm (c : Config) (a b : BitVec c.pN) : Posit.add c a b = Posit.add c b a :=
  Posit.operate_swap (fun x y => congrArg some (add_comm x y)) a b

theorem Posit.pmul_comm (c : Config) (a b : BitVec c.pN) : Posit.mul c a b = Posit.mul c b a :=
  Posit.operate_swap (fun x y => congrArg some (mul_comm x y)) a b

/-- Subtraction is the addition of the negation (R146). -/
theorem Posit.psub_eq_padd_neg (c : Config) (a b : BitVec c.pN) :
    Posit.sub c a b = Posit.add c a (-b) := by
  simp only [Posit.add, Posit.operate_neg_right, ← sub_eq_add_neg, Posit.sub]

/-- Zero is neutral, NaR included: the value of a pattern rounds to the pattern (R142). -/
theorem Posit.padd_zero (c : Config) (p : BitVec c.pN) : Posit.add c p (Posit.zero c) = p := by
  rcases hp : Posit.val c p with _ | x
  · rw [(Posit.val_eq_none_iff c p).mp hp]
    exact Posit.operate_nar_left c _ _
  · rw [Posit.padd_of_val hp (Posit.val_zero c), add_zero,
      representablePositsRoundToThemselves c p x hp]

theorem Posit.psub_zero (c : Config) (p : BitVec c.pN) : Posit.sub c p (Posit.zero c) = p := by
  rw [Posit.psub_eq_padd_neg, Posit.neg_zeroPattern, Posit.padd_zero]

theorem Posit.zero_psub (c : Config) (p : BitVec c.pN) : Posit.sub c (Posit.zero c) p = -p := by
  rw [Posit.psub_eq_padd_neg, Posit.padd_comm, Posit.padd_zero]

section Number

variable {c : Config} {p : BitVec c.pN} (hnar : p ≠ Posit.nar c)

include hnar

theorem Posit.pmul_zero : Posit.mul c p (Posit.zero c) = Posit.zero c := by
  rw [Posit.pmul_of_val (Posit.val_eq_mag hnar) (Posit.val_zero c), mul_zero, Posit.round_zero]

theorem Posit.zero_pdiv (hzero : p ≠ Posit.zero c) :
    Posit.div c (Posit.zero c) p = Posit.zero c := by
  rw [Posit.pdiv_of_val (Posit.val_zero c) (Posit.val_eq_mag hnar), if_neg hzero, zero_div,
    Posit.round_zero]

theorem Posit.padd_neg_self : Posit.add c p (-p) = Posit.zero c := by
  have hx := Posit.val_eq_mag hnar
  rw [← Posit.psub_eq_padd_neg, Posit.psub_of_val hx hx, sub_self, Posit.round_zero]

end Number

/-- In posit<8,0> maxpos + maxpos clamps, and taking maxpos off again leaves nothing (R149). -/
theorem Posit.padd_not_assoc :
    Posit.add sampleConfig (Posit.add sampleConfig (Posit.maxPos _) (Posit.maxPos _))
        (Posit.maxNeg _) ≠
      Posit.add sampleConfig (Posit.maxPos _)
        (Posit.add sampleConfig (Posit.maxPos _) (Posit.maxNeg _)) := by
  decide +kernel

/-- In posit<8,0> maxpos · maxpos clamps, and multiplying by minpos then gives 1 (R149). -/
theorem Posit.pmul_not_assoc :
    Posit.mul sampleConfig (Posit.mul sampleConfig (Posit.maxPos _) (Posit.maxPos _))
        (Posit.minPos _) ≠
      Posit.mul sampleConfig (Posit.maxPos _)
        (Posit.mul sampleConfig (Posit.maxPos _) (Posit.minPos _)) := by
  decide +kernel

/-- Settles O43. -/
theorem positArithmeticLaws : Obligations.PositArithmeticLaws := by
  refine ⟨fun c x => ?absorption, fun c a b => ?symmetry,
    ⟨sampleConfig, _, _, _, by decide, by decide, by decide, Posit.padd_not_assoc⟩,
    ⟨sampleConfig, _, _, _, by decide, by decide, by decide, Posit.pmul_not_assoc⟩⟩
  case absorption =>
    exact ⟨Posit.operate_nar_left c _ x, Posit.operate_nar_right c _ x,
      Posit.operate_nar_left c _ x, Posit.operate_nar_right c _ x,
      Posit.operate_nar_left c _ x, Posit.operate_nar_right c _ x,
      Posit.operate_nar_left c _ x, Posit.operate_nar_right c _ x, Posit.padd_neg_self⟩
  case symmetry =>
    refine ⟨Posit.padd_comm c a b, Posit.pmul_comm c a b, Posit.operate_odd (fun x y => ?_) a b,
      Posit.operate_odd (fun x y => ?_) a b, Posit.operate_even (fun x y => ?_) a b,
      Posit.operate_even (fun x y => ?_) a b, Posit.psub_eq_padd_neg c a b⟩
    · exact congrArg some (neg_add x y).symm
    · exact congrArg some (neg_sub_neg x y |>.trans (neg_sub x y).symm)
    · exact congrArg some (neg_mul_neg x y)
    · simp only [exactQuotient, neg_eq_zero, neg_div_neg_eq]

/-- Settles O42: the operand 0 on a port is the zero pattern. -/
theorem positZeroOperandsAndNegation : Obligations.PositZeroOperandsAndNegation := by
  refine ⟨fun s p => ?_, fun c => ⟨fun p x hx => ?_, Posit.neg_zeroPattern c, Posit.neg_narPattern c⟩⟩
  · rw [← Posit.zero_toNat s.cfg, exec_padd, exec_padd, exec_psub, exec_psub, exec_pmul, exec_pmul,
      exec_pdiv, Posit.padd_comm _ (Posit.zero _), Posit.pmul_comm _ (Posit.zero _),
      Posit.padd_zero, Posit.psub_zero, Posit.zero_psub]
    refine ⟨rfl, rfl, rfl, rfl, fun hnar => ?_⟩
    rw [Posit.pmul_zero hnar]
    exact ⟨rfl, rfl, fun hzero => by rw [Posit.zero_pdiv hnar hzero]⟩
  · rw [Posit.val_neg_pattern, hx, Option.map_some]

/-- Settles O41: every pattern but NaR has a value. -/
theorem positArithmeticRoundsTheExactResult : Obligations.PositArithmeticRoundsTheExactResult := by
  refine ⟨fun s a b hnar => ?_, fun s a b ha hb => ?_⟩
  · rw [exec_padd, exec_psub, exec_pmul, exec_pdiv]
    have habsorbs (f : ℚ → ℚ → Option ℚ) : Posit.operate s.cfg f a b = Posit.nar s.cfg := by
      rcases hnar with rfl | rfl
      · exact Posit.operate_nar_left s.cfg f b
      · exact Posit.operate_nar_right s.cfg f a
    simp only [Posit.add, Posit.sub, Posit.mul, Posit.div, habsorbs, and_self]
  · have hx := Posit.val_eq_mag ha
    have hy := Posit.val_eq_mag hb
    have hzero : b = Posit.zero s.cfg ↔ b.toNat = 0 := by
      rw [← BitVec.toNat_inj, Posit.zero_toNat]
    refine ⟨_, _, hx, hy, ?_⟩
    rw [exec_padd, exec_psub, exec_pmul, exec_pdiv, Posit.padd_of_val hx hy,
      Posit.psub_of_val hx hy, Posit.pmul_of_val hx hy, Posit.pdiv_of_val hx hy]
    simp only [hzero, and_self]

end Sys2Proof.Proofs
end

section
/-! What a comparison answers (spec 45_comparator.md R160, R161, R165): the order of two numbers, and the
comparison of patterns by an integer key, which PCMP and LCMP share. -/

namespace Sys2Proof.Proofs

open Sys2Proof.Machine

/-! The order of two numbers. -/

/-- The answer says how `x` and `y` compare (R160). -/
def IsComparison {α : Type} [LinearOrder α] (rel : Relation) (x y : α) : Prop :=
  (rel = .lt ↔ x < y) ∧ (rel = .eq ↔ x = y) ∧ (rel = .gt ↔ y < x)

theorem relationOf_isComparison (i j : Int) : IsComparison (relationOf i j) i j := by
  unfold IsComparison relationOf
  split
  case isTrue hlt => simp [hlt, hlt.ne, hlt.le]
  case isFalse hle =>
    split
    case isTrue hgt => simp [hgt, hgt.ne', hgt.le]
    case isFalse hge => simp [le_antisymm (not_lt.mp hge) (not_lt.mp hle)]

/-- Comparing integers compares whatever is ordered as they are. -/
theorem relationOf_isComparison_of_lt_iff {α : Type} [LinearOrder α] {i j : Int} {x y : α}
    (hlt : x < y ↔ i < j) (hgt : y < x ↔ j < i) : IsComparison (relationOf i j) x y := by
  obtain ⟨hrel_lt, hrel_eq, hrel_gt⟩ := relationOf_isComparison i j
  refine ⟨hrel_lt.trans hlt.symm, hrel_eq.trans ?_, hrel_gt.trans hgt.symm⟩
  rw [le_antisymm_iff, le_antisymm_iff, ← not_lt, ← not_lt, ← not_lt, ← not_lt, hlt, hgt]

theorem relationOf_eq_lt (i j : Int) : relationOf i j = .lt ↔ i < j :=
  (relationOf_isComparison i j).1

theorem relationOf_eq_eq (i j : Int) : relationOf i j = .eq ↔ i = j :=
  (relationOf_isComparison i j).2.1

theorem relationOf_ne_un (i j : Int) : relationOf i j ≠ .un := by
  unfold relationOf
  split
  case isTrue => decide
  case isFalse => split <;> decide

/-! Exchanging the operands. -/

/-- The answer with the operands exchanged (R166). -/
def swapRelation : Relation → Relation
  | .lt => .gt
  | .eq => .eq
  | .gt => .lt
  | .un => .un

theorem relationOf_swap (i j : Int) : relationOf j i = swapRelation (relationOf i j) := by
  unfold relationOf
  rcases lt_trichotomy i j with hlt | rfl | hgt
  · simp [hlt, hlt.not_gt, swapRelation]
  · simp [swapRelation]
  · simp [hgt, hgt.not_gt, swapRelation]

/-- A comparison that is exchanged with its operands is antisymmetric, and symmetric in `eq` and `un`
(R166). -/
theorem symmetry_of_swap {rel rel' : Relation} (h : rel' = swapRelation rel) :
    (rel = .lt ↔ rel' = .gt) ∧ (rel = .eq ↔ rel' = .eq) ∧ (rel = .un ↔ rel' = .un) := by
  subst h
  cases rel <;> decide

/-! Comparison by a key, with NaR (R161). -/

/-- What PCMP and LCMP have in common: numbers compare as their keys. -/
def compareByKey (c : Config) {n : Nat} (nar : BitVec n) (key : BitVec n → Int) (a b : BitVec n) :
    Relation :=
  relationWithNar c (a == nar) (b == nar) (key a) (key b)

theorem Posit.compare_eq (c : Config) :
    Posit.compare c = compareByKey c (Posit.nar c) BitVec.toInt := rfl

theorem Lns.compare_eq (c : Config) : Lns.compare c = compareByKey c (Lns.nar c) (Lns.key c) := rfl

section Key

variable {c : Config} {n : Nat} {nar : BitVec n} {key : BitVec n → Int} {a b d : BitVec n}

theorem compareByKey_of_numbers (ha : a ≠ nar) (hb : b ≠ nar) :
    compareByKey c nar key a b = relationOf (key a) (key b) := by
  simp [compareByKey, relationWithNar, ha, hb]

/-- NaR equals NaR by the parameter alone, and is unordered otherwise (R161). -/
theorem compareByKey_of_nar (h : a = nar ∨ b = nar) :
    compareByKey c nar key a b = if a = b ∧ c.narEqReflexive = true then .eq else .un := by
  unfold compareByKey relationWithNar
  by_cases ha : a = nar
  · by_cases hb : b = nar
    · simp [ha, hb]
    · simp [ha, hb, Ne.symm hb]
  · obtain rfl := h.resolve_left ha
    simp [ha]

theorem compareByKey_nar_left (h : c.narEqReflexive = false) :
    compareByKey c nar key nar a = .un := by
  simp [compareByKey_of_nar, h]

theorem compareByKey_eq_lt :
    compareByKey c nar key a b = .lt ↔ a ≠ nar ∧ b ≠ nar ∧ key a < key b := by
  by_cases hnar : a = nar ∨ b = nar
  · have hne : ¬(a ≠ nar ∧ b ≠ nar ∧ key a < key b) := fun ⟨ha, hb, _⟩ => hnar.elim ha hb
    rw [compareByKey_of_nar hnar, iff_false_right hne]
    split <;> decide
  · obtain ⟨ha, hb⟩ := not_or.mp hnar
    simp [compareByKey_of_numbers ha hb, relationOf_eq_lt, ha, hb]

theorem compareByKey_swap :
    compareByKey c nar key b a = swapRelation (compareByKey c nar key a b) := by
  by_cases hnar : a = nar ∨ b = nar
  · rw [compareByKey_of_nar hnar, compareByKey_of_nar hnar.symm, apply_ite swapRelation]
    exact if_congr (by rw [eq_comm (a := b)]) rfl rfl
  · obtain ⟨ha, hb⟩ := not_or.mp hnar
    rw [compareByKey_of_numbers ha hb, compareByKey_of_numbers hb ha, relationOf_swap]

theorem compareByKey_trans (hab : compareByKey c nar key a b = .lt)
    (hbd : compareByKey c nar key b d = .lt) : compareByKey c nar key a d = .lt := by
  obtain ⟨ha, -, hltab⟩ := compareByKey_eq_lt.mp hab
  obtain ⟨-, hd, hltbd⟩ := compareByKey_eq_lt.mp hbd
  exact compareByKey_eq_lt.mpr ⟨ha, hd, hltab.trans hltbd⟩

/-- Totality and identity of numbers (R166), for a key that tells them apart. -/
theorem compareByKey_total (hinj : key a = key b → a = b) (ha : a ≠ nar) (hb : b ≠ nar) :
    compareByKey c nar key a b ≠ .un ∧ (compareByKey c nar key a b = .eq ↔ a = b) := by
  rw [compareByKey_of_numbers ha hb, relationOf_eq_eq]
  exact ⟨relationOf_ne_un _ _, hinj, congrArg key⟩

end Key

/-! The wires a host reads (R165). -/

theorem cmpLt_bits (rel : Relation) : cmpLt rel.bits = decide (rel = .lt) := by cases rel <;> rfl

theorem cmpEq_bits (rel : Relation) : cmpEq rel.bits = decide (rel = .eq) := by cases rel <;> rfl

theorem cmpGt_bits (rel : Relation) : cmpGt rel.bits = decide (rel = .gt) := by cases rel <;> rfl

theorem cmpUn_bits (rel : Relation) : cmpUn rel.bits = decide (rel = .un) := by cases rel <;> rfl

/-- Settles O48: each wire is one answer, and the host's operators combine the wires. -/
theorem hostReadsTheRelationalOperators : Obligations.HostReadsTheRelationalOperators := by
  intro rel
  rw [hostNe, hostLe, hostGe, cmpLt_bits, cmpEq_bits, cmpGt_bits, cmpUn_bits]
  exact ⟨rfl, rfl, rfl, rfl, (decide_not ..).symm, (Bool.decide_or ..).symm, (Bool.decide_or ..).symm⟩

end Sys2Proof.Proofs
end

section
/-! The key of LCMP (spec 45_comparator.md R163): it tells the patterns apart, and the real number that a
pattern denotes is a strictly increasing function of it. -/

namespace Sys2Proof.Proofs

open Sys2Proof.Machine

theorem Lns.key_zero (c : Config) : Lns.key c (Lns.zero c) = 0 := by simp [Lns.key]

/-- R163 counts the codes of the numbers from the zero token's, under the sign. -/
theorem Lns.key_of_ne_zero {c : Config} {p : BitVec c.lN} (hzero : p ≠ Lns.zero c) :
    Lns.key c p =
      if p.msb then -(Lns.code c p - c.lERes) else Lns.code c p - c.lERes := by
  have hdist : Lns.code c p - c.lEMin + 1 = Lns.code c p - c.lERes := by
    rw [lEMin_eq]; ring
  rw [Lns.key, if_neg hzero]
  simp only [hdist]

section Number

variable {c : Config} {p : BitVec c.lN} (hzero : p ≠ Lns.zero c) (hnar : p ≠ Lns.nar c)

include hzero hnar

theorem Lns.lERes_lt_code : c.lERes < Lns.code c p :=
  (lERes_lt_lEMin c).trans_le (Lns.code_bounds hzero hnar).1

theorem Lns.abs_key : |Lns.key c p| = Lns.code c p - c.lERes := by
  have hpos := sub_pos.mpr (Lns.lERes_lt_code hzero hnar)
  rw [Lns.key_of_ne_zero hzero]
  split
  · rw [abs_neg, abs_of_pos hpos]
  · exact abs_of_pos hpos

theorem Lns.sign_key : (Lns.key c p).sign = if p.msb then -1 else 1 := by
  have hpos := sub_pos.mpr (Lns.lERes_lt_code hzero hnar)
  rw [Lns.key_of_ne_zero hzero]
  split
  · rw [Int.sign_neg, Int.sign_eq_one_of_pos hpos]
  · exact Int.sign_eq_one_of_pos hpos

end Number

/-- A pattern other than NaR is recovered from its key. -/
theorem Lns.ofCode_key {c : Config} {p : BitVec c.lN} (hnar : p ≠ Lns.nar c) :
    Lns.ofCode c (decide ((Lns.key c p).sign = -1)) (|Lns.key c p| + c.lERes) = p := by
  by_cases hzero : p = Lns.zero c
  · rw [hzero, Lns.key_zero, Lns.ofCode, abs_zero, zero_add, if_pos rfl]
  · have hcode := Lns.lERes_lt_code hzero hnar
    have hsign : decide ((if p.msb then -1 else 1 : Int) = -1) = p.msb := by
      cases p.msb <;> rfl
    rw [Lns.abs_key hzero hnar, Lns.sign_key hzero hnar, hsign, sub_add_cancel, Lns.ofCode,
      if_neg hcode.ne', Lns.pack_code]

theorem Lns.key_inj {c : Config} {a b : BitVec c.lN} (ha : a ≠ Lns.nar c) (hb : b ≠ Lns.nar c)
    (h : Lns.key c a = Lns.key c b) : a = b := by
  rw [← Lns.ofCode_key ha, h, Lns.ofCode_key hb]

/-- The real number with the key `k` (R94, R163). -/
noncomputable def Lns.numberOfKey (c : Config) (k : Int) : ℝ :=
  k.sign * (2 : ℝ) ^ (((|k| + c.lERes : Int) : ℝ) / 2 ^ c.lR)

theorem Lns.numberOfKey_neg (c : Config) (k : Int) :
    Lns.numberOfKey c (-k) = -Lns.numberOfKey c k := by
  unfold Lns.numberOfKey
  rw [Int.sign_neg, abs_neg, Int.cast_neg, neg_mul]

theorem Lns.numberOfKey_of_pos (c : Config) {k : Int} (h : 0 < k) :
    Lns.numberOfKey c k = (2 : ℝ) ^ (((k + c.lERes : Int) : ℝ) / 2 ^ c.lR) := by
  rw [Lns.numberOfKey, Int.sign_eq_one_of_pos h, abs_of_pos h, Int.cast_one, one_mul]

/-- Positive numbers grow with their key, zero is below them, and the negative ones mirror them. -/
theorem Lns.numberOfKey_strictMono (c : Config) : StrictMono (Lns.numberOfKey c) := by
  refine strictMono_of_odd_strictMonoOn_nonneg (Lns.numberOfKey_neg c) fun i hi j _ hij => ?_
  have hi : 0 ≤ i := hi
  rw [Lns.numberOfKey_of_pos c (hi.trans_lt hij)]
  rcases hi.eq_or_lt with rfl | hpos
  · rw [Lns.numberOfKey, Int.sign_zero, Int.cast_zero, zero_mul]
    positivity
  · rw [Lns.numberOfKey_of_pos c hpos]
    refine Real.rpow_lt_rpow_of_exponent_lt one_lt_two ?_
    refine div_lt_div_of_pos_right ?_ (by positivity)
    exact_mod_cast add_lt_add_left hij _

theorem Lns.ne_nar_of_denotes {c : Config} {p : BitVec c.lN} {x : ℝ} (h : (Lns.val c p).denotes x) :
    p ≠ Lns.nar c := by
  rintro rfl
  simp [Lns.val, Lns.nar_ne_zero, LnsValue.denotes] at h

/-- A pattern denotes the number with its key. -/
theorem Lns.eq_numberOfKey {c : Config} {p : BitVec c.lN} {x : ℝ} (h : (Lns.val c p).denotes x) :
    x = Lns.numberOfKey c (Lns.key c p) := by
  have hnar := Lns.ne_nar_of_denotes h
  by_cases hzero : p = Lns.zero c
  · have hx : x = 0 := by simpa [Lns.val, hzero, LnsValue.denotes] using h
    rw [hx, hzero, Lns.key_zero, Lns.numberOfKey, Int.sign_zero, Int.cast_zero, zero_mul]
  · rw [Lns.val, if_neg hzero, if_neg hnar] at h
    rw [h, Lns.numberOfKey, Lns.sign_key hzero hnar, Lns.abs_key hzero hnar, sub_add_cancel]
    push_cast
    rfl

/-- `key_L` orders the patterns as the numbers they denote (R163). -/
theorem Lns.lt_iff_key_lt {c : Config} {a b : BitVec c.lN} {x y : ℝ}
    (hx : (Lns.val c a).denotes x) (hy : (Lns.val c b).denotes y) :
    x < y ↔ Lns.key c a < Lns.key c b := by
  rw [Lns.eq_numberOfKey hx, Lns.eq_numberOfKey hy, (Lns.numberOfKey_strictMono c).lt_iff_lt]

end Sys2Proof.Proofs
end

section
/-! The comparator (spec 45_comparator.md R160 to R166). -/

namespace Sys2Proof.Proofs

open Sys2Proof.Machine

/-! PCMP, LCMP and FCMP deliver the comparison of the patterns on their ports, with no fault. -/

theorem exec_pcmp (s : State) (a b : BitVec s.cfg.pN) :
    exec (.pcmp a.toNat b.toNat) s = .next (s.answer (.compared (Posit.compare s.cfg a b))) := by
  show execPcmp a.toNat b.toNat s = _
  rw [execPcmp, posPort_toNat, posPort_toNat, deliver_ok]

theorem exec_lcmp (s : State) (a b : BitVec s.cfg.lN) :
    exec (.lcmp a.toNat b.toNat) s = .next (s.answer (.compared (Lns.compare s.cfg a b))) := by
  show execLcmp a.toNat b.toNat s = _
  rw [execLcmp, lnsPort_toNat, lnsPort_toNat, deliver_ok]

theorem exec_fcmp (s : State) (a b : BitVec s.cfg.fN) :
    exec (.fcmp a.toNat b.toNat) s = .next (s.answer (.compared (Fix.compare s.cfg a b))) := by
  show execFcmp a.toNat b.toNat s = _
  rw [execFcmp, fixPort_toNat, fixPort_toNat, deliver_ok]

/-- Settles O44: the values of numbers are ordered as the signed patterns (R84). -/
theorem pcmpOrdersTheValues : Obligations.PcmpOrdersTheValues := by
  refine fun s a b => ⟨_, exec_pcmp s a b, fun x y hx hy => ?_, compareByKey_of_nar⟩
  rw [Posit.compare_eq,
    compareByKey_of_numbers (Posit.ne_nar_of_val hx) (Posit.ne_nar_of_val hy)]
  exact relationOf_isComparison_of_lt_iff (Posit.val_lt_iff hx hy) (Posit.val_lt_iff hy hx)

/-- Settles O45: the numbers denoted are ordered as the keys (R163). -/
theorem lcmpOrdersTheRealValues : Obligations.LcmpOrdersTheRealValues := by
  refine fun s a b => ⟨_, exec_lcmp s a b, fun x y hx hy => ?_, compareByKey_of_nar⟩
  rw [Lns.compare_eq,
    compareByKey_of_numbers (Lns.ne_nar_of_denotes hx) (Lns.ne_nar_of_denotes hy)]
  exact relationOf_isComparison_of_lt_iff (Lns.lt_iff_key_lt hx hy) (Lns.lt_iff_key_lt hy hx)

theorem Fix.val_lt_iff (c : Config) (a b : BitVec c.fN) :
    Fix.val c a < Fix.val c b ↔ a.toInt < b.toInt := by
  rw [Fix.val, Fix.val, div_lt_div_iff_of_pos_right (by positivity), Int.cast_lt]

/-- Settles O46: one power of two divides both signed patterns (R108). -/
theorem fcmpOrdersTheValues : Obligations.FcmpOrdersTheValues := fun s a b =>
  ⟨_, exec_fcmp s a b, relationOf_ne_un _ _,
    relationOf_isComparison_of_lt_iff (Fix.val_lt_iff s.cfg a b) (Fix.val_lt_iff s.cfg b a)⟩

/-! PCMP agrees with PSUB: distinct posits are at least minpos apart, which no rounding takes to zero. -/

/-- The value of a pattern is an integer multiple of minpos. -/
theorem Posit.val_eq_multiple {c : Config} {p : BitVec c.pN} {x : ℚ} (h : Posit.val c p = some x) :
    ∃ z : Int, x = z * c.pMinPos := by
  have hnar := Posit.ne_nar_of_val h
  have hsucc := Posit.maxCode_succ c
  have hlt := (Posit.magPattern_lt hnar).1
  obtain ⟨z, hz⟩ := Posit.mag_eq_multiple (c := c) (n := (Posit.magPattern c p).toNat) (by omega)
  have hx := Option.some_inj.mp (h.symm.trans (Posit.val_eq_mag hnar))
  refine ⟨(if p.msb then -1 else 1) * z, ?_⟩
  rw [hx, hz, signFactor, Config.pMinPos]
  push_cast
  ring

theorem Posit.val_sub_le_of_lt {c : Config} {a b : BitVec c.pN} {x y : ℚ}
    (hx : Posit.val c a = some x) (hy : Posit.val c b = some y) (h : x < y) :
    x - y ≤ -c.pMinPos := by
  have hpos : 0 < c.pMinPos := pow2_pos _
  obtain ⟨z, rfl⟩ := Posit.val_eq_multiple hx
  obtain ⟨z', rfl⟩ := Posit.val_eq_multiple hy
  have hz : z < z' := by exact_mod_cast lt_of_mul_lt_mul_right h hpos.le
  have hz' : (z : ℚ) + 1 ≤ z' := by exact_mod_cast hz
  nlinarith

/-- What is not above the negative of minpos rounds to a negative number. -/
theorem Posit.round_msb_of_le {c : Config} {v : ℚ} (h : v ≤ -c.pMinPos) :
    (Posit.round c v).msb = true := by
  have hpos : 0 < c.pMinPos := pow2_pos _
  have hneg : v < 0 := by linarith
  have hcode : 1 ≤ Posit.roundCode c .even |v| := by
    have hmono := Posit.roundCode_mono c (x := c.pMinPos) (y := |v|)
      (by rw [abs_of_neg hneg]; linarith)
    rwa [← Posit.mag_one, Posit.roundCode_mag .even (Posit.maxCode_pos c)] at hmono
  have hvalue : Posit.roundedValue c v < 0 := by
    have hmag := Posit.mag_pos (c := c) hcode
    simpa [Posit.roundedValue, hneg, signFactor] using hmag
  rw [Posit.val_lt_iff (Posit.val_round c v) (Posit.val_zero c)] at hvalue
  rw [BitVec.msb_eq_toInt]
  simpa [Posit.zero] using hvalue

theorem Posit.psub_msb_of_lt {c : Config} {a b : BitVec c.pN} (ha : a ≠ Posit.nar c)
    (hb : b ≠ Posit.nar c) (h : a.toInt < b.toInt) : (Posit.sub c a b).msb = true := by
  have hx := Posit.val_eq_mag ha
  have hy := Posit.val_eq_mag hb
  rw [Posit.psub_of_val hx hy]
  exact Posit.round_msb_of_le
    (Posit.val_sub_le_of_lt hx hy ((Posit.val_lt_iff hx hy).mpr h))

/-- Settles O47, format by format; the laws of PCMP and LCMP are those of a comparison by a key. -/
theorem comparatorLaws : Obligations.ComparatorLaws := by
  refine ⟨fun c a b => ?posit, fun c a b => ?lns, fun c a b => ?fix⟩
  case posit =>
    obtain ⟨hlt, heq, hun⟩ := symmetry_of_swap
      (compareByKey_swap (c := c) (nar := Posit.nar c) (key := BitVec.toInt) (a := a) (b := b))
    refine ⟨fun ha hb => ?_, compareByKey_nar_left, hlt, heq, hun, fun d => compareByKey_trans⟩
    obtain ⟨htotal, hidentity⟩ := compareByKey_total (c := c) BitVec.eq_of_toInt_eq ha hb
    refine ⟨htotal, hidentity, fun h => ?_⟩
    obtain ⟨-, -, hint⟩ := compareByKey_eq_lt.mp h
    exact Posit.psub_msb_of_lt ha hb hint
  case lns =>
    obtain ⟨hlt, heq, hun⟩ := symmetry_of_swap
      (compareByKey_swap (c := c) (nar := Lns.nar c) (key := Lns.key c) (a := a) (b := b))
    exact ⟨fun ha hb => compareByKey_total (Lns.key_inj ha hb) ha hb, compareByKey_nar_left,
      hlt, heq, hun, fun d => compareByKey_trans⟩
  case fix =>
    obtain ⟨hlt, heq, -⟩ := symmetry_of_swap (relationOf_swap a.toInt b.toInt)
    refine ⟨relationOf_ne_un _ _, ?_, hlt, heq, fun d hab hbd => ?_⟩
    · rw [Fix.compare, relationOf_eq_eq, BitVec.toInt_inj]
    · rw [Fix.compare, relationOf_eq_lt] at *
      exact hab.trans hbd

end Sys2Proof.Proofs
end

section
/-! The classifiers PCLS, LCLS and FCLS (spec 46_special_values.md R174 to R176, R180). -/

namespace Sys2Proof.Proofs

open Sys2Proof.Machine

theorem exec_pcls (s : State) (a : BitVec s.cfg.pN) :
    exec (.pcls a.toNat) s = .next (s.answer (.classified (Posit.classify s.cfg a))) := by
  show execPcls a.toNat s = _
  rw [execPcls, posPort_toNat, deliver_ok]

theorem exec_lcls (s : State) (a : BitVec s.cfg.lN) :
    exec (.lcls a.toNat) s = .next (s.answer (.classified (Lns.classify s.cfg a))) := by
  show execLcls a.toNat s = _
  rw [execLcls, lnsPort_toNat, deliver_ok]

theorem exec_fcls (s : State) (a : BitVec s.cfg.fN) :
    exec (.fcls a.toNat) s = .next (s.answer (.classified (Fix.classify s.cfg a))) := by
  show execFcls a.toNat s = _
  rw [execFcls, fixPort_toNat, deliver_ok]

/-! The wires of `cls` (R59). -/

section Wires

variable (isNegative isSpecial isZero : Bool)

@[simp] theorem clsBits_isZero : (clsBits isNegative isSpecial isZero).getLsbD 0 = isZero := by
  revert isNegative isSpecial isZero
  decide

@[simp] theorem clsBits_isSpecial :
    (clsBits isNegative isSpecial isZero).getLsbD 1 = isSpecial := by
  revert isNegative isSpecial isZero
  decide

@[simp] theorem clsBits_isNegative :
    (clsBits isNegative isSpecial isZero).getLsbD 2 = isNegative := by
  revert isNegative isSpecial isZero
  decide

end Wires

/-! The bit tests are equality with the reserved patterns. -/

/-- Bit `w` is 1 and the bits below it are 0: the low `w + 1` bits are `2^w`. -/
theorem bitAlone_eq_decide {n : Nat} (a : BitVec n) (w : Nat) :
    (a.getLsbD w && a.setWidth w == 0) = decide (a.toNat % 2 ^ (w + 1) = 2 ^ w) := by
  have hlow : a.toNat % 2 ^ w < 2 ^ w := Nat.mod_lt _ (by positivity)
  have hbelow : (a.setWidth w == 0) = decide (a.toNat % 2 ^ w = 0) := by
    simp [Bool.beq_eq_decide_eq, ← BitVec.toNat_inj]
  rw [hbelow, BitVec.getLsbD, Nat.testBit_eq_decide_div_mod_eq, Nat.mod_pow_succ]
  rcases Nat.mod_two_eq_zero_or_one (a.toNat / 2 ^ w) with hbit | hbit
  · simp [hbit, hlow.ne]
  · simp [hbit]

/-- PCLS tells the zero pattern and NaR from the rest (R174). -/
theorem Posit.classify_eq (c : Config) (a : BitVec c.pN) :
    Posit.classify c a =
      clsBits a.msb (decide (a = Posit.nar c)) (decide (a = Posit.zero c)) := by
  have hwidth : c.pN - 1 + 1 = c.pN := by have := c.pN_ge; omega
  have hnar : (a.msb && a.setWidth (c.pN - 1) == 0) = decide (a = Posit.nar c) := by
    rw [BitVec.msb_eq_getLsbD_last, bitAlone_eq_decide, hwidth, Nat.mod_eq_of_lt a.isLt]
    exact decide_eq_decide.mpr (Posit.eq_nar_iff c a).symm
  rw [Posit.classify, hnar]
  rfl

/-- The reserved code is that of the zero token and of NaR (R92, R175). -/
theorem Lns.isReserved_iff (c : Config) (a : BitVec c.lN) :
    Lns.isReserved c a = true ↔ a = Lns.zero c ∨ a = Lns.nar c := by
  have hwidth : c.lN - 2 + 1 = c.lW := by have := c.lN_ge; unfold Config.lW; omega
  have hfield : Lns.isReserved c a = true ↔ a.toNat % 2 ^ c.lW = 2 ^ (c.lN - 2) := by
    rw [Lns.isReserved, bitAlone_eq_decide, hwidth, decide_eq_true_iff]
  refine hfield.trans ⟨fun h => Lns.code_eq_lERes ?_, Lns.field_of_reserved⟩
  rw [Lns.code_eq, h, if_neg (lt_irrefl _), two_pow_lW, Config.lERes]
  push_cast
  ring

theorem Posit.zero_msb (c : Config) : (Posit.zero c).msb = false := by simp [Posit.zero]

theorem Posit.nar_msb (c : Config) : (Posit.nar c).msb = true := by
  simp [BitVec.msb_eq_decide]

theorem Lns.zero_msb (c : Config) : (Lns.zero c).msb = false := by
  have hlt : 2 ^ (c.lN - 2) < 2 ^ (c.lN - 1) :=
    Nat.pow_lt_pow_right (by omega) (by have := c.lN_ge; omega)
  simp [BitVec.msb_eq_decide, hlt]

theorem Lns.nar_msb (c : Config) : (Lns.nar c).msb = true := by
  simp [BitVec.msb_eq_decide, Config.lW]

/-- LCLS tells the zero token and NaR from the rest; the sign tells them from each other (R175). -/
theorem Lns.classify_eq (c : Config) (a : BitVec c.lN) :
    Lns.classify c a = clsBits a.msb (decide (a = Lns.nar c)) (decide (a = Lns.zero c)) := by
  rw [Lns.classify]
  by_cases hzero : a = Lns.zero c
  · subst hzero
    simp [(Lns.isReserved_iff c _).mpr (.inl rfl), Lns.zero_msb, (Lns.nar_ne_zero c).symm]
  · by_cases hnar : a = Lns.nar c
    · subst hnar
      simp [(Lns.isReserved_iff c _).mpr (.inr rfl), Lns.nar_msb, Lns.nar_ne_zero]
    · have hreserved : Lns.isReserved c a = false :=
        Bool.eq_false_iff.mpr (mt (Lns.isReserved_iff c a).mp (not_or.mpr ⟨hzero, hnar⟩))
      simp [hreserved, hzero, hnar]

theorem Fix.classify_eq (c : Config) (a : BitVec c.fN) :
    Fix.classify c a = clsBits a.msb false (decide (a = Fix.zero c)) := rfl

/-- Settles O49: the wires of `classify_eq`, said of the patterns' integers. -/
theorem classifiersTestThePattern : Obligations.ClassifiersTestThePattern := by
  refine ⟨fun s a => ⟨_, exec_pcls s a, ?_⟩, fun s a => ⟨_, exec_lcls s a, ?_⟩,
    fun s a => ⟨_, exec_fcls s a, ?_⟩⟩
  · simp only [Posit.classify_eq, clsBits_isZero, clsBits_isSpecial, clsBits_isNegative,
      Posit.eq_zero_iff, Posit.eq_nar_iff, BitVec.msb_eq_decide, and_self]
  · simp only [Lns.classify_eq, clsBits_isZero, clsBits_isSpecial, clsBits_isNegative,
      Lns.eq_zero_iff, Lns.eq_nar_iff, BitVec.msb_eq_decide, and_self]
  · simp only [Fix.classify_eq, clsBits_isZero, clsBits_isSpecial, clsBits_isNegative,
      Fix.eq_zero_iff, BitVec.msb_eq_decide, and_self]

/-! The decoders test for the same patterns (R180). -/

/-- The tag of a pattern of a format with these reserved patterns (R77, R95). -/
def tagOf {n : Nat} (zero nar a : BitVec n) : Special :=
  if a = zero then .zero else if a = nar then .nar else .none

section Tag

variable {n : Nat} {zero nar : BitVec n}

theorem tagOf_bits_eq_zero (a : BitVec n) : (tagOf zero nar a).bits = 0b01#2 ↔ a = zero := by
  unfold tagOf
  split
  case isTrue hzero => exact iff_of_true rfl hzero
  case isFalse hzero => exact iff_of_false (by split <;> decide) hzero

theorem tagOf_bits_eq_nar (hne : nar ≠ zero) (a : BitVec n) :
    (tagOf zero nar a).bits = 0b11#2 ↔ a = nar := by
  unfold tagOf
  split
  case isTrue hzero => exact iff_of_false (by decide) (hzero ▸ hne.symm)
  case isFalse =>
    split
    case isTrue hnar => exact iff_of_true rfl hnar
    case isFalse hnar => exact iff_of_false (by decide) hnar

end Tag

theorem Posit.decode_tag_sign (c : Config) (a : BitVec c.pN) :
    (Posit.decode c a).special = (tagOf (Posit.zero c) (Posit.nar c) a).bits ∧
      (Posit.decode c a).sign = a.msb := by
  unfold Posit.decode tagOf
  split
  case isTrue hzero => exact ⟨rfl, by rw [hzero, Posit.zero_msb]⟩
  case isFalse =>
    split
    case isTrue hnar => exact ⟨rfl, by rw [hnar, Posit.nar_msb]⟩
    case isFalse => exact ⟨rfl, rfl⟩

theorem Lns.decode_tag_sign (c : Config) (a : BitVec c.lN) :
    (Lns.decode c a).special = (tagOf (Lns.zero c) (Lns.nar c) a).bits ∧
      (Lns.decode c a).sign = a.msb := by
  unfold Lns.decode tagOf
  split
  case isTrue hzero => exact ⟨rfl, by rw [hzero, Lns.zero_msb]⟩
  case isFalse =>
    split
    case isTrue hnar => exact ⟨rfl, by rw [hnar, Lns.nar_msb]⟩
    case isFalse => exact ⟨rfl, rfl⟩

/-- FDEC never drives the tag NaR (R109). -/
theorem Fix.decode_tag (c : Config) (a : BitVec c.fN) :
    ((Fix.decode c a).special = 0b01#2 ↔ a = Fix.zero c) ∧ (Fix.decode c a).special ≠ 0b11#2 := by
  unfold Fix.decode
  dsimp only
  split
  case isTrue hzero => exact ⟨iff_of_true rfl hzero, by decide⟩
  case isFalse hzero => exact ⟨iff_of_false (by decide) hzero, by decide⟩

/-- Only NaR is unordered with itself, if the parameter says so (R161). -/
theorem compareByKey_self_eq_un {c : Config} {n : Nat} {nar : BitVec n} {key : BitVec n → Int}
    (h : c.narEqReflexive = false) (a : BitVec n) :
    compareByKey c nar key a a = .un ↔ a = nar := by
  by_cases ha : a = nar
  · exact iff_of_true (ha ▸ compareByKey_nar_left h) ha
  · exact iff_of_false (compareByKey_of_numbers ha ha ▸ relationOf_ne_un _ _) ha

/-- Settles O50: classifier, decoder and comparator test for equality with the same patterns. -/
theorem classifiersAgreeWithDecodersAndComparator :
    Obligations.ClassifiersAgreeWithDecodersAndComparator := by
  refine ⟨fun c a => ?posit, fun c a => ?lns, fun c a => ?fix⟩
  case posit =>
    obtain ⟨htag, hsign⟩ := Posit.decode_tag_sign c a
    rw [Posit.classify_eq, clsBits_isZero, clsBits_isSpecial, clsBits_isNegative,
      decide_eq_true_iff, decide_eq_true_iff, htag]
    exact ⟨(tagOf_bits_eq_zero a).symm, (tagOf_bits_eq_nar (Posit.nar_ne_zero c) a).symm,
      hsign.symm, fun h => compareByKey_self_eq_un h a⟩
  case lns =>
    obtain ⟨htag, hsign⟩ := Lns.decode_tag_sign c a
    rw [Lns.classify_eq, clsBits_isZero, clsBits_isSpecial, clsBits_isNegative,
      decide_eq_true_iff, decide_eq_true_iff, htag]
    exact ⟨(tagOf_bits_eq_zero a).symm, (tagOf_bits_eq_nar (Lns.nar_ne_zero c) a).symm,
      hsign.symm, fun h => compareByKey_self_eq_un h a⟩
  case fix =>
    obtain ⟨hzero, hnar⟩ := Fix.decode_tag c a
    rw [Fix.classify_eq, clsBits_isZero, clsBits_isSpecial, clsBits_isNegative,
      decide_eq_true_iff, hzero]
    exact ⟨Iff.rfl, iff_of_false Bool.false_ne_true hnar, rfl,
      iff_of_false (relationOf_ne_un _ _) Bool.false_ne_true⟩

end Sys2Proof.Proofs
end

section
/-! The constants PCONST, LCONST and FCONST (spec 46_special_values.md R171 to R173, R177 to R179). -/

namespace Sys2Proof.Proofs

open Sys2Proof.Machine

section Exec

variable {s : State} {sel : Sel}

theorem exec_pconst_of_ok {r : BitVec s.cfg.pN} (h : Posit.constant s.cfg sel = .ok r) :
    exec (.pconst sel) s = .next (s.answer (.pattern r)) := by
  show execPconst sel s = _
  rw [execPconst, h]
  rfl

theorem exec_lconst_of_ok {r : BitVec s.cfg.lN} (h : Lns.constant s.cfg sel = .ok r) :
    exec (.lconst sel) s = .next (s.answer (.pattern r)) := by
  show execLconst sel s = _
  rw [execLconst, h]
  rfl

theorem exec_fconst_of_ok {r : BitVec s.cfg.fN} (h : Fix.constant s.cfg sel = .ok r) :
    exec (.fconst sel) s = .next (s.answer (.pattern r)) := by
  show execFconst sel s = _
  rw [execFconst, h]
  rfl

/-- A reserved selector (R54, R177). -/
theorem exec_pconst_of_reserved (h : Posit.constant s.cfg sel = .error .malformedOperand) :
    exec (.pconst sel) s = .next (s.answer { fault := 0b011#3 }) := by
  show execPconst sel s = _
  rw [execPconst, h]
  rfl

/-- A reserved selector (R54, R178). -/
theorem exec_lconst_of_reserved (h : Lns.constant s.cfg sel = .error .malformedOperand) :
    exec (.lconst sel) s = .next (s.answer { fault := 0b011#3 }) := by
  show execLconst sel s = _
  rw [execLconst, h]
  rfl

/-- A reserved selector (R54, R179). -/
theorem exec_fconst_of_reserved (h : Fix.constant s.cfg sel = .error .malformedOperand) :
    exec (.fconst sel) s = .next (s.answer { fault := 0b011#3 }) := by
  show execFconst sel s = _
  rw [execFconst, h]
  rfl

end Exec

/-! The posit constants (R171). -/

theorem Posit.val_maxPos (c : Config) :
    Posit.val c (Posit.maxPos c) = some ((2 : ℚ) ^ c.pMaxScale) := by
  have hone := Posit.one_lt_two_pow c
  have hmax := Posit.maxPos_toNat c
  rw [Posit.val_of_positive (by omega) (by omega), Posit.magnitude_maxPos]
  rfl

theorem Posit.val_minPos (c : Config) :
    Posit.val c (Posit.minPos c) = some ((2 : ℚ) ^ c.pMinScale) := by
  have hone := Posit.one_lt_two_pow c
  have hmin := Posit.minPos_toNat c
  rw [Posit.val_of_positive (by omega) (by omega), Posit.magnitude_minPos]
  rfl

theorem Posit.maxNeg_toNat (c : Config) : (Posit.maxNeg c).toNat = 2 ^ (c.pN - 1) + 1 := by
  have hone := Posit.one_lt_two_pow c
  have hpow := two_pow_pred (show 1 ≤ c.pN by have := c.pN_ge; omega)
  rw [Posit.maxNeg, BitVec.toNat_ofNat, Nat.mod_eq_of_lt (by omega)]

theorem Posit.minNeg_toNat (c : Config) : (Posit.minNeg c).toNat = 2 ^ c.pN - 1 := by
  rw [Posit.minNeg, BitVec.toNat_ofNat,
    Nat.mod_eq_of_lt (Nat.sub_lt (Nat.two_pow_pos _) one_pos)]

theorem Posit.val_maxNeg (c : Config) :
    Posit.val c (Posit.maxNeg c) = some (-(2 : ℚ) ^ c.pMaxScale) := by
  rw [Posit.maxNeg_eq, Posit.val_neg_pattern, Posit.val_maxPos, Option.map_some]

theorem Posit.val_minNeg (c : Config) :
    Posit.val c (Posit.minNeg c) = some (-(2 : ℚ) ^ c.pMinScale) := by
  rw [Posit.minNeg_eq, Posit.val_neg_pattern, Posit.val_minPos, Option.map_some]

/-- Settles O51, row by row; the negative constants are the negations of the positive ones. -/
theorem pconstAnswersTheTable : Obligations.PconstAnswersTheTable := fun s =>
  ⟨_, _, _, _, _, _,
    exec_pconst_of_ok rfl, exec_pconst_of_ok rfl, exec_pconst_of_ok rfl, exec_pconst_of_ok rfl,
    exec_pconst_of_ok rfl, exec_pconst_of_ok rfl, exec_pconst_of_reserved rfl,
    exec_pconst_of_reserved rfl,
    Posit.zero_toNat s.cfg, Posit.nar_toNat s.cfg, Posit.maxPos_toNat s.cfg,
    Posit.minPos_toNat s.cfg, Posit.maxNeg_toNat s.cfg, Posit.minNeg_toNat s.cfg,
    Posit.val_zero s.cfg, Posit.val_nar s.cfg, Posit.val_maxPos s.cfg, Posit.val_minPos s.cfg,
    Posit.val_maxNeg s.cfg, Posit.val_minNeg s.cfg⟩

/-! The LNS constants (R172). -/

theorem Lns.val_zero (c : Config) : Lns.val c (Lns.zero c) = .zero := by simp [Lns.val]

theorem Lns.val_nar (c : Config) : Lns.val c (Lns.nar c) = .nar := by
  simp [Lns.val, Lns.nar_ne_zero]

/-- A sign and a code of a number, composed, denote that number (R94, R96). -/
theorem Lns.val_pack {c : Config} (sign : Bool) {E : Int} (hmin : c.lEMin ≤ E) (hmax : E ≤ c.lEMax) :
    Lns.val c (Lns.pack c sign E) = .number sign (E / 2 ^ c.lR) := by
  have hcode := Lns.code_pack c sign ((lERes_lt_lEMin c).le.trans hmin) hmax
  obtain ⟨hzero, hnar⟩ := Lns.number_of_lEMin_le (hcode.symm ▸ hmin)
  rw [Lns.val, if_neg hzero, if_neg hnar, hcode, Lns.pack_msb]

theorem Lns.val_pack_lEMax (c : Config) (sign : Bool) :
    Lns.val c (Lns.pack c sign c.lEMax) = .number sign (c.lEMax / 2 ^ c.lR) :=
  Lns.val_pack sign (lEMin_le_lEMax c) le_rfl

theorem Lns.val_pack_lEMin (c : Config) (sign : Bool) :
    Lns.val c (Lns.pack c sign c.lEMin) = .number sign (c.lEMin / 2 ^ c.lR) :=
  Lns.val_pack sign le_rfl (lEMin_le_lEMax c)

/-- The field of `L_EMAX` is `0b01…1`. -/
theorem Lns.pack_lEMax_toNat (c : Config) (sign : Bool) :
    (Lns.pack c sign c.lEMax).toNat =
      (if sign then 2 ^ (c.lN - 1) else 0) + (2 ^ (c.lN - 2) - 1) := by
  have hpos := Nat.two_pow_pos (c.lN - 2)
  have hcast : c.lEMax = ((2 ^ (c.lN - 2) - 1 : Nat) : Int) := by
    rw [Config.lEMax]; push_cast [hpos]; rfl
  have hfield : (c.lEMax % 2 ^ c.lW).toNat = 2 ^ (c.lN - 2) - 1 := by
    have hW := two_pow_lW c
    have hlt : 2 ^ (c.lN - 2) - 1 < 2 ^ c.lW := by omega
    rw [hcast]
    exact_mod_cast Nat.mod_eq_of_lt hlt
  rw [Lns.pack_toNat, hfield, Config.lW]

/-- The field of `L_EMIN` is `0b10…01`, where there are two bits for it. -/
theorem Lns.pack_lEMin_toNat {c : Config} (hN : 3 ≤ c.lN) (sign : Bool) :
    (Lns.pack c sign c.lEMin).toNat =
      (if sign then 2 ^ (c.lN - 1) else 0) + (2 ^ (c.lN - 2) + 1) := by
  have hcast : c.lEMin = ((2 ^ (c.lN - 2) + 1 : Nat) : Int) - (2 ^ c.lW : Nat) := by
    rw [Config.lEMin, two_pow_lW]; push_cast; ring
  have hfield : (c.lEMin % 2 ^ c.lW).toNat = 2 ^ (c.lN - 2) + 1 := by
    have hW := two_pow_lW c
    have hone : 1 < 2 ^ (c.lN - 2) := Nat.one_lt_two_pow (by omega)
    have hlt : 2 ^ (c.lN - 2) + 1 < 2 ^ c.lW := by omega
    rw [hcast]
    have hmod := Int.sub_emod_right ((2 ^ (c.lN - 2) + 1 : Nat) : Int) ((2 ^ c.lW : Nat) : Int)
    push_cast at hmod ⊢
    rw [hmod]
    exact_mod_cast Nat.mod_eq_of_lt hlt
  rw [Lns.pack_toNat, hfield, Config.lW]

theorem Lns.maxPos_toNat (c : Config) : (Lns.maxPos c).toNat = 2 ^ (c.lN - 2) - 1 :=
  (Lns.pack_lEMax_toNat c false).trans (Nat.zero_add _)

theorem Lns.maxNeg_toNat (c : Config) :
    (Lns.maxNeg c).toNat = 2 ^ (c.lN - 1) + 2 ^ (c.lN - 2) - 1 :=
  (Lns.pack_lEMax_toNat c true).trans (Nat.add_sub_assoc (Nat.two_pow_pos _) _).symm

theorem Lns.minPos_toNat {c : Config} (hN : 3 ≤ c.lN) :
    (Lns.minPos c).toNat = 2 ^ (c.lN - 2) + 1 :=
  (Lns.pack_lEMin_toNat hN false).trans (Nat.zero_add _)

theorem Lns.minNeg_toNat {c : Config} (hN : 3 ≤ c.lN) :
    (Lns.minNeg c).toNat = 2 ^ (c.lN - 1) + 2 ^ (c.lN - 2) + 1 :=
  Lns.pack_lEMin_toNat hN true

/-- With `L_N = 2` the only code of a number is 0, so `L_EMIN` and `L_EMAX` are one code. -/
theorem Lns.min_eq_max_of_lN_eq_two {c : Config} (hN : c.lN = 2) :
    Lns.minPos c = Lns.maxPos c ∧ Lns.minNeg c = Lns.maxNeg c := by
  have hcode : c.lEMin = c.lEMax := by simp [Config.lEMin, Config.lEMax, hN]
  rw [Lns.minPos, Lns.minNeg, hcode]
  exact ⟨rfl, rfl⟩

/-- The row of R172 for `L_N = 2`. -/
theorem Lns.constants_toNat_of_lN_eq_two {c : Config} (hN : c.lN = 2) :
    (Lns.maxPos c).toNat = 0 ∧ (Lns.minPos c).toNat = 0 ∧
      (Lns.maxNeg c).toNat = 2 ∧ (Lns.minNeg c).toNat = 2 := by
  obtain ⟨hpos, hneg⟩ := Lns.min_eq_max_of_lN_eq_two hN
  rw [hpos, hneg, Lns.maxPos_toNat, Lns.maxNeg_toNat, hN]
  decide

/-! The fixed-point constants (R173). -/

theorem Fix.maxPos_toNat (c : Config) : (Fix.maxPos c).toNat = 2 ^ (c.fN - 1) - 1 := by
  have hpos := Nat.two_pow_pos (c.fN - 1)
  have hpow := two_pow_pred (show 1 ≤ c.fN by have := c.fN_ge; omega)
  rw [Fix.maxPos, BitVec.toNat_ofNat, Nat.mod_eq_of_lt (by omega)]

theorem Fix.minPos_toNat (c : Config) : (Fix.minPos c).toNat = 1 := by
  rw [Fix.minPos, BitVec.toNat_ofNat,
    Nat.mod_eq_of_lt (Nat.one_lt_two_pow (by have := c.fN_ge; omega))]

theorem Fix.maxNeg_toNat (c : Config) : (Fix.maxNeg c).toNat = 2 ^ (c.fN - 1) := by
  rw [Fix.maxNeg, BitVec.toNat_ofNat,
    Nat.mod_eq_of_lt (Nat.pow_lt_pow_right (by omega) (by have := c.fN_ge; omega))]

theorem Fix.minNeg_toNat (c : Config) : (Fix.minNeg c).toNat = 2 ^ c.fN - 1 := by
  rw [Fix.minNeg, BitVec.toNat_ofNat,
    Nat.mod_eq_of_lt (Nat.sub_lt (Nat.two_pow_pos _) one_pos)]

/-- The value of a pattern with sign bit 0 (R105). -/
theorem Fix.val_of_lt {c : Config} {p : BitVec c.fN} (h : p.toNat < 2 ^ (c.fN - 1)) :
    Fix.val c p = p.toNat / 2 ^ c.fR := by
  have hpow := two_pow_pred (show 1 ≤ c.fN by have := c.fN_ge; omega)
  rw [Fix.val, BitVec.toInt_eq_toNat_cond, if_pos (by omega), Int.cast_natCast]

/-- The value of a pattern with sign bit 1 (R105). -/
theorem Fix.val_of_le {c : Config} {p : BitVec c.fN} (h : 2 ^ (c.fN - 1) ≤ p.toNat) :
    Fix.val c p = (p.toNat - 2 ^ c.fN) / 2 ^ c.fR := by
  have hpow := two_pow_pred (show 1 ≤ c.fN by have := c.fN_ge; omega)
  rw [Fix.val, BitVec.toInt_eq_toNat_cond, if_neg (by omega)]
  push_cast
  rfl

theorem Fix.val_zero (c : Config) : Fix.val c (Fix.zero c) = 0 := by simp [Fix.val, Fix.zero]

theorem Fix.val_maxPos (c : Config) : Fix.val c (Fix.maxPos c) = c.fIMax / 2 ^ c.fR := by
  have hpos := Nat.two_pow_pos (c.fN - 1)
  have hmax := Fix.maxPos_toNat c
  rw [Fix.val_of_lt (by omega), hmax, Config.fIMax]
  push_cast [hpos]
  rfl

theorem Fix.val_minPos (c : Config) : Fix.val c (Fix.minPos c) = 1 / 2 ^ c.fR := by
  have hone : 1 < 2 ^ (c.fN - 1) := Nat.one_lt_two_pow (by have := c.fN_ge; omega)
  have hmin := Fix.minPos_toNat c
  rw [Fix.val_of_lt (by omega), hmin, Nat.cast_one]

theorem Fix.val_maxNeg (c : Config) : Fix.val c (Fix.maxNeg c) = c.fIMin / 2 ^ c.fR := by
  have hpow := two_pow_pred (show 1 ≤ c.fN by have := c.fN_ge; omega)
  have hcast : (2 : ℚ) ^ c.fN = 2 * 2 ^ (c.fN - 1) := by exact_mod_cast hpow
  have hmax := Fix.maxNeg_toNat c
  rw [Fix.val_of_le hmax.ge, hmax, hcast, Config.fIMin]
  push_cast
  ring

theorem Fix.val_minNeg (c : Config) : Fix.val c (Fix.minNeg c) = -1 / 2 ^ c.fR := by
  have hpos := Nat.two_pow_pos (c.fN - 1)
  have hpow := two_pow_pred (show 1 ≤ c.fN by have := c.fN_ge; omega)
  have hmin := Fix.minNeg_toNat c
  rw [Fix.val_of_le (by omega), hmin]
  push_cast [Nat.one_le_two_pow]
  ring

/-- Settles O52, row by row; the value of an LNS constant is that of the code it is composed of. -/
theorem lconstAndFconstAnswerTheTables : Obligations.LconstAndFconstAnswerTheTables :=
  ⟨fun s => ⟨_, _, _, _, _, _,
      exec_lconst_of_ok rfl, exec_lconst_of_ok rfl, exec_lconst_of_ok rfl, exec_lconst_of_ok rfl,
      exec_lconst_of_ok rfl, exec_lconst_of_ok rfl, exec_lconst_of_reserved rfl,
      exec_lconst_of_reserved rfl,
      Lns.zero_toNat s.cfg, Lns.nar_toNat s.cfg,
      fun hN => ⟨Lns.maxPos_toNat s.cfg, Lns.minPos_toNat hN, Lns.maxNeg_toNat s.cfg,
        Lns.minNeg_toNat hN⟩,
      Lns.val_zero s.cfg, Lns.val_nar s.cfg,
      Lns.val_pack_lEMax s.cfg false, Lns.val_pack_lEMin s.cfg false,
      Lns.val_pack_lEMax s.cfg true, Lns.val_pack_lEMin s.cfg true,
      Lns.constants_toNat_of_lN_eq_two⟩,
    fun s => ⟨_, _, _, _, _,
      exec_fconst_of_ok rfl, exec_fconst_of_reserved rfl, exec_fconst_of_ok rfl,
      exec_fconst_of_ok rfl, exec_fconst_of_ok rfl, exec_fconst_of_ok rfl,
      exec_fconst_of_reserved rfl, exec_fconst_of_reserved rfl,
      Fix.zero_toNat s.cfg, Fix.maxPos_toNat s.cfg, Fix.minPos_toNat s.cfg,
      Fix.maxNeg_toNat s.cfg, Fix.minNeg_toNat s.cfg,
      Fix.val_zero s.cfg, Fix.val_maxPos s.cfg, Fix.val_minPos s.cfg, Fix.val_maxNeg s.cfg,
      Fix.val_minNeg s.cfg⟩⟩

end Sys2Proof.Proofs
end

section
/-! The extension LNS operations LADD, LSUB, LMUL and LDIV (spec 47_ext_arith.md R186 to R191). -/

namespace Sys2Proof.Proofs

open Sys2Proof.Machine

/-- With the extension present the gate of R56 delivers what the operation answers. -/
theorem deliver_gated {s : State} (hext : s.cfg.extArith = true) (e : Except FaultCode Response) :
    deliver s (gated s.cfg e) = .next (s.answer (responseOf e)) := by
  rw [gated_present hext, deliver_eq_answer]

section Exec

variable {s : State} (hext : s.cfg.extArith = true) (a b : BitVec s.cfg.lN)

include hext

theorem exec_ladd :
    exec (.ladd a.toNat b.toNat) s = .next (s.answer (.pattern (Lns.add s.cfg a b))) := by
  show execLadd a.toNat b.toNat s = _
  rw [execLadd, lnsPort_toNat, lnsPort_toNat, deliver_gated hext, responseOf]

theorem exec_lsub :
    exec (.lsub a.toNat b.toNat) s = .next (s.answer (.pattern (Lns.sub s.cfg a b))) := by
  show execLsub a.toNat b.toNat s = _
  rw [execLsub, lnsPort_toNat, lnsPort_toNat, deliver_gated hext, responseOf]

theorem exec_lmul :
    exec (.lmul a.toNat b.toNat) s = .next (s.answer (.pattern (Lns.mul s.cfg a b))) := by
  show execLmul a.toNat b.toNat s = _
  rw [execLmul, lnsPort_toNat, lnsPort_toNat, deliver_gated hext, responseOf]

theorem exec_ldiv :
    exec (.ldiv a.toNat b.toNat) s = .next (s.answer (.pattern (Lns.div s.cfg a b))) := by
  show execLdiv a.toNat b.toNat s = _
  rw [execLdiv, lnsPort_toNat, lnsPort_toNat, deliver_gated hext, responseOf]

end Exec

/-! LMUL and LDIV, case by case (R187, R188). -/

section Cases

variable {c : Config} {a b : BitVec c.lN}

theorem Lns.lmul_of_nar (h : a = Lns.nar c ∨ b = Lns.nar c) : Lns.mul c a b = Lns.nar c := if_pos h

theorem Lns.ldiv_of_nar (h : a = Lns.nar c ∨ b = Lns.nar c) : Lns.div c a b = Lns.nar c := if_pos h

theorem Lns.lmul_of_zero (ha : a ≠ Lns.nar c) (hb : b ≠ Lns.nar c)
    (h : a = Lns.zero c ∨ b = Lns.zero c) : Lns.mul c a b = Lns.zero c := by
  rw [Lns.mul, if_neg (not_or.mpr ⟨ha, hb⟩), if_pos h]

/-- Division by zero has no number for an answer (R188). -/
theorem Lns.ldiv_zero (c : Config) (a : BitVec c.lN) : Lns.div c a (Lns.zero c) = Lns.nar c := by
  rw [Lns.div, if_pos rfl, ite_self]

theorem Lns.zero_ldiv (hb : b ≠ Lns.nar c) (hzero : b ≠ Lns.zero c) :
    Lns.div c (Lns.zero c) b = Lns.zero c := by
  rw [Lns.div, if_neg (not_or.mpr ⟨(Lns.nar_ne_zero c).symm, hb⟩), if_neg hzero, if_pos rfl]

theorem Lns.lmul_of_numbers (ha : a ≠ Lns.nar c) (ha' : a ≠ Lns.zero c) (hb : b ≠ Lns.nar c)
    (hb' : b ≠ Lns.zero c) :
    Lns.mul c a b = Lns.combine c a b (Lns.code c a + Lns.code c b) := by
  rw [Lns.mul, if_neg (not_or.mpr ⟨ha, hb⟩), if_neg (not_or.mpr ⟨ha', hb'⟩)]

theorem Lns.ldiv_of_numbers (ha : a ≠ Lns.nar c) (ha' : a ≠ Lns.zero c) (hb : b ≠ Lns.nar c)
    (hb' : b ≠ Lns.zero c) :
    Lns.div c a b = Lns.combine c a b (Lns.code c a - Lns.code c b) := by
  rw [Lns.div, if_neg (not_or.mpr ⟨ha, hb⟩), if_neg hb', if_neg ha']

end Cases

/-- The logarithm of an integer code is rounded by clamping the code (R127 to R129, R187). -/
theorem Lns.round_clampsTo (c : Config) (sign : Bool) (E : Int) :
    Lns.clampsTo c sign E (Lns.round c sign (E / 2 ^ c.lR)) := by
  have hunit : (0 : ℚ) < 2 ^ c.lR := by positivity
  have hmax := lEMin_le_lEMax c
  unfold Lns.clampsTo
  split
  case isTrue hle =>
    refine Lns.round_of_le sign ?_
    rw [div_le_iff₀ hunit, sub_mul, div_mul_cancel₀ _ hunit.ne', one_mul]
    exact_mod_cast hle
  case isFalse hgt =>
    rcases lt_or_ge E c.lEMin with hlt | hge
    · have hround : Lns.round c sign (E / 2 ^ c.lR) = Lns.pack c sign c.lEMin := by
        refine Lns.round_of_underflow sign ?_ ?_
        · rw [lt_div_iff₀ hunit, sub_mul, div_mul_cancel₀ _ hunit.ne', one_mul]
          exact_mod_cast not_le.mp hgt
        · exact div_lt_div_of_pos_right (by exact_mod_cast hlt) hunit
      rw [hround, Lns.pack_msb, Lns.code_pack c sign (lERes_lt_lEMin c).le hmax]
      exact ⟨rfl, by omega⟩
    · obtain ⟨hsign, hcode⟩ := Lns.round_of_ge (c := c) (L := E / 2 ^ c.lR) sign
        (div_le_div_of_nonneg_right (by exact_mod_cast hge) hunit.le)
      rw [div_mul_cancel₀ _ hunit.ne', rne, roundInt_intCast] at hcode
      exact ⟨hsign, by omega⟩

theorem Lns.combine_clampsTo (c : Config) (a b : BitVec c.lN) (E : Int) :
    Lns.clampsTo c (a.msb != b.msb) E (Lns.combine c a b E) :=
  Lns.round_clampsTo c _ E

/-- Settles O53, by the cases of R187 and R188; the code of two numbers is clamped by the rounding. -/
theorem lmulAndLdivCombineTheLogarithms : Obligations.LmulAndLdivCombineTheLogarithms := by
  intro s a b hext
  rw [exec_lmul hext, exec_ldiv hext]
  refine ⟨fun h => ?absorb, fun ha h => ?byZero, fun h hb hb' => ?ofZero,
    fun ha ha' hb hb' => ?numbers⟩
  case absorb => rw [Lns.lmul_of_nar h, Lns.ldiv_of_nar h]; exact ⟨rfl, rfl⟩
  case byZero =>
    subst h
    rw [Lns.lmul_of_zero ha (Lns.nar_ne_zero _).symm (.inr rfl), Lns.ldiv_zero]
    exact ⟨rfl, rfl⟩
  case ofZero =>
    subst h
    rw [Lns.lmul_of_zero (Lns.nar_ne_zero _).symm hb (.inl rfl), Lns.zero_ldiv hb hb']
    exact ⟨rfl, rfl⟩
  case numbers =>
    refine ⟨_, _, rfl, ?_, rfl, ?_⟩
    · rw [Lns.lmul_of_numbers ha ha' hb hb']
      exact Lns.combine_clampsTo s.cfg a b _
    · rw [Lns.ldiv_of_numbers ha ha' hb hb']
      exact Lns.combine_clampsTo s.cfg a b _

/-! LADD, case by case (R190). -/

section Cases

variable {c : Config} {a b : BitVec c.lN}

theorem Lns.ladd_of_nar (h : a = Lns.nar c ∨ b = Lns.nar c) : Lns.add c a b = Lns.nar c := if_pos h

theorem Lns.zero_ladd (c : Config) (b : BitVec c.lN) : Lns.add c (Lns.zero c) b = b := by
  by_cases hb : b = Lns.nar c
  · rw [hb, Lns.ladd_of_nar (.inr rfl)]
  · rw [Lns.add, if_neg (not_or.mpr ⟨(Lns.nar_ne_zero c).symm, hb⟩), if_pos rfl]

theorem Lns.ladd_zero (c : Config) (a : BitVec c.lN) : Lns.add c a (Lns.zero c) = a := by
  by_cases ha : a = Lns.nar c
  · rw [ha, Lns.ladd_of_nar (.inl rfl)]
  · rw [Lns.add, if_neg (not_or.mpr ⟨ha, (Lns.nar_ne_zero c).symm⟩), if_pos rfl]
    split
    · exact Eq.symm ‹_›
    · rfl

/-- Two numbers of one magnitude under different signs (R190). -/
def Lns.Opposite (c : Config) (a b : BitVec c.lN) : Prop :=
  a.msb ≠ b.msb ∧ Lns.code c a = Lns.code c b

theorem Lns.Opposite.symm (h : Lns.Opposite c a b) : Lns.Opposite c b a := ⟨h.1.symm, h.2.symm⟩

section Numbers

variable (ha : a ≠ Lns.nar c) (ha' : a ≠ Lns.zero c) (hb : b ≠ Lns.nar c) (hb' : b ≠ Lns.zero c)

include ha ha' hb hb'

theorem Lns.ladd_of_opposite (h : Lns.Opposite c a b) : Lns.add c a b = Lns.zero c := by
  rw [Lns.add, if_neg (not_or.mpr ⟨ha, hb⟩), if_neg ha', if_neg hb']
  exact if_pos h

theorem Lns.ladd_of_numbers (h : ¬ Lns.Opposite c a b) : Lns.add c a b = Lns.addSub c a b := by
  rw [Lns.add, if_neg (not_or.mpr ⟨ha, hb⟩), if_neg ha', if_neg hb']
  exact if_neg h

end Numbers

/-! The open function (R189). -/

/-- The operand of larger magnitude is the same in either order, unless the operands cancel. -/
theorem Lns.sumSign_comm (h : ¬ Lns.Opposite c a b) : Lns.sumSign c a b = Lns.sumSign c b a := by
  unfold Lns.sumSign
  rcases lt_trichotomy (Lns.code c a) (Lns.code c b) with hlt | heq | hgt
  · rw [if_pos hlt, if_neg hlt.not_gt]
  · rw [if_neg heq.not_lt, if_neg heq.not_gt]
    exact not_not.mp fun hsign => h ⟨hsign, heq⟩
  · rw [if_neg hgt.not_gt, if_pos hgt]

theorem Lns.addSub_comm (h : ¬ Lns.Opposite c a b) : Lns.addSub c a b = Lns.addSub c b a := by
  rw [Lns.addSub, Lns.addSub, min_comm, max_comm, Lns.sumSign_comm h]

/-- The open function answers the zero token, or a number with the sign of `sumSign`. -/
theorem Lns.addSub_cases (c : Config) (a b : BitVec c.lN) :
    Lns.addSub c a b = Lns.zero c ∨
      ∃ E, c.lEMin ≤ E ∧ E ≤ c.lEMax ∧ Lns.addSub c a b = Lns.pack c (Lns.sumSign c a b) E := by
  unfold Lns.addSub
  split
  · exact .inl rfl
  · obtain ⟨hmin, hmax⟩ := clampInt_mem (lEMin_le_lEMax c) _
    exact .inr ⟨_, hmin, hmax, rfl⟩

theorem Lns.addSub_ne_nar (c : Config) (a b : BitVec c.lN) : Lns.addSub c a b ≠ Lns.nar c := by
  rcases Lns.addSub_cases c a b with h | ⟨E, hmin, hmax, h⟩
  · rw [h]
    exact (Lns.nar_ne_zero c).symm
  · have hcode := Lns.code_pack c (Lns.sumSign c a b) ((lERes_lt_lEMin c).le.trans hmin) hmax
    rw [h]
    exact (Lns.number_of_lEMin_le (hcode.symm ▸ hmin)).2

theorem Lns.addSub_sign (c : Config) (a b : BitVec c.lN) :
    Lns.addSub c a b = Lns.zero c ∨ (Lns.addSub c a b).msb = Lns.sumSign c a b := by
  rcases Lns.addSub_cases c a b with h | ⟨E, -, -, h⟩
  · exact .inl h
  · exact .inr (by rw [h, Lns.pack_msb])

end Cases

theorem Lns.ladd_comm (c : Config) (a b : BitVec c.lN) : Lns.add c a b = Lns.add c b a := by
  by_cases ha : a = Lns.nar c
  · rw [Lns.ladd_of_nar (.inl ha), Lns.ladd_of_nar (.inr ha)]
  by_cases hb : b = Lns.nar c
  · rw [Lns.ladd_of_nar (.inr hb), Lns.ladd_of_nar (.inl hb)]
  by_cases ha' : a = Lns.zero c
  · rw [ha', Lns.zero_ladd, Lns.ladd_zero]
  by_cases hb' : b = Lns.zero c
  · rw [hb', Lns.zero_ladd, Lns.ladd_zero]
  by_cases h : Lns.Opposite c a b
  · rw [Lns.ladd_of_opposite ha ha' hb hb' h, Lns.ladd_of_opposite hb hb' ha ha' h.symm]
  · rw [Lns.ladd_of_numbers ha ha' hb hb' h, Lns.ladd_of_numbers hb hb' ha ha' (mt .symm h),
      Lns.addSub_comm h]

/-! The sign of the exact sum (R189). -/

/-- A pattern that denotes a nonzero number denotes the one of its sign and its code (R94). -/
theorem Lns.number_of_denotes {c : Config} {p : BitVec c.lN} {x : ℝ} (h : (Lns.val c p).denotes x)
    (hx : x ≠ 0) :
    p ≠ Lns.zero c ∧
      x = (if p.msb then -1 else 1) * (2 : ℝ) ^ ((Lns.code c p : ℝ) / 2 ^ c.lR) := by
  have hzero : p ≠ Lns.zero c := by
    rintro rfl
    rw [Lns.val_zero] at h
    exact hx h
  have hnar := Lns.ne_nar_of_denotes h
  rw [Lns.val, if_neg hzero, if_neg hnar] at h
  exact ⟨hzero, by simpa [LnsValue.denotes] using h⟩

/-- The sum has the sign of a summand that is no smaller than the other. -/
theorem add_neg_iff_of_abs_le {x y : ℝ} (hle : |y| ≤ |x|) (hsum : x + y ≠ 0) :
    x + y < 0 ↔ x < 0 := by
  obtain ⟨hlow, hhigh⟩ := abs_le.mp hle
  rcases lt_or_ge x 0 with hneg | hnonneg
  · rw [abs_of_neg hneg] at hhigh
    exact iff_of_true (lt_of_le_of_ne (by linarith) hsum) hneg
  · rw [abs_of_nonneg hnonneg] at hlow
    exact iff_of_false (by linarith) hnonneg.not_gt

section Sum

variable {c : Config} {a b : BitVec c.lN} {x y : ℝ}

theorem Lns.abs_of_denotes (hx : (Lns.val c a).denotes x) (hx' : x ≠ 0) :
    |x| = (2 : ℝ) ^ ((Lns.code c a : ℝ) / 2 ^ c.lR) := by
  have hpos : (0 : ℝ) < (2 : ℝ) ^ ((Lns.code c a : ℝ) / 2 ^ c.lR) := by positivity
  rw [(Lns.number_of_denotes hx hx').2, abs_mul, abs_of_pos hpos]
  cases a.msb <;> simp

theorem Lns.neg_iff_msb (hx : (Lns.val c a).denotes x) (hx' : x ≠ 0) : x < 0 ↔ a.msb = true := by
  have hpos : (0 : ℝ) < (2 : ℝ) ^ ((Lns.code c a : ℝ) / 2 ^ c.lR) := by positivity
  rw [(Lns.number_of_denotes hx hx').2]
  cases a.msb
  · simpa using hpos.le
  · simpa using hpos

variable (hx : (Lns.val c a).denotes x) (hy : (Lns.val c b).denotes y) (hx' : x ≠ 0) (hy' : y ≠ 0)

include hx hy hx' hy'

theorem Lns.abs_le_iff_code_le : |x| ≤ |y| ↔ Lns.code c a ≤ Lns.code c b := by
  rw [Lns.abs_of_denotes hx hx', Lns.abs_of_denotes hy hy',
    Real.rpow_le_rpow_left_iff one_lt_two, div_le_div_iff_of_pos_right (by positivity), Int.cast_le]

variable (hsum : x + y ≠ 0)

include hsum

/-- Opposite numbers cancel, and these do not. -/
theorem Lns.not_opposite_of_sum_ne_zero : ¬ Lns.Opposite c a b := by
  rintro ⟨hsign, hcode⟩
  refine hsum ?_
  rw [(Lns.number_of_denotes hx hx').2, (Lns.number_of_denotes hy hy').2, hcode,
    Bool.eq_not.mpr hsign]
  cases b.msb <;> simp

/-- `sumSign` is the sign of the exact sum. -/
theorem Lns.sumSign_iff : Lns.sumSign c a b = true ↔ x + y < 0 := by
  unfold Lns.sumSign
  split
  case isTrue hlt =>
    have hle := (Lns.abs_le_iff_code_le hx hy hx' hy').mpr hlt.le
    rw [add_comm x y] at hsum ⊢
    rw [add_neg_iff_of_abs_le hle hsum, Lns.neg_iff_msb hy hy']
  case isFalse hge =>
    have hle := (Lns.abs_le_iff_code_le hy hx hy' hx').mpr (not_lt.mp hge)
    rw [add_neg_iff_of_abs_le hle hsum, Lns.neg_iff_msb hx hx']

end Sum

/-- Settles O55: the operands do not cancel, so the open function answers, under its constraints. -/
theorem openLnsSumsMeetTheConstraints : Obligations.OpenLnsSumsMeetTheConstraints := by
  intro s a b x y hext hx hy hx' hy' hsum
  refine ⟨Lns.add s.cfg a b, exec_ladd hext a b, ?_, ?_⟩
  · rw [Lns.ladd_comm]
    exact exec_ladd hext b a
  · have hadd := Lns.ladd_of_numbers (Lns.ne_nar_of_denotes hx) (Lns.number_of_denotes hx hx').1
      (Lns.ne_nar_of_denotes hy) (Lns.number_of_denotes hy hy').1
      (Lns.not_opposite_of_sum_ne_zero hx hy hx' hy' hsum)
    rw [hadd]
    refine ⟨Lns.addSub_ne_nar s.cfg a b, (Lns.addSub_sign s.cfg a b).imp_right fun hsign => ?_⟩
    rw [hsign]
    exact Lns.sumSign_iff hx hy hx' hy' hsum

/-! The negation (R191). -/

/-- The pattern with the sign bit alone. -/
theorem Lns.signBit_toNat (c : Config) : (BitVec.ofNat c.lN (2 ^ (c.lN - 1))).toNat = 2 ^ c.lW := by
  rw [BitVec.toNat_ofNat, Config.lW]
  exact Nat.mod_eq_of_lt (Nat.pow_lt_pow_right (by omega) (by have := c.lN_ge; omega))

/-- A pattern with its sign bit inverted is opposite to the pattern. -/
theorem Lns.opposite_xor_signBit (c : Config) (a : BitVec c.lN) :
    Lns.Opposite c a (a ^^^ BitVec.ofNat c.lN (2 ^ (c.lN - 1))) := by
  have hfield : (BitVec.ofNat c.lN (2 ^ (c.lN - 1))).setWidth c.lW = 0 := by
    apply BitVec.eq_of_toNat_eq
    rw [BitVec.toNat_setWidth, Lns.signBit_toNat]
    simp
  have hmsb : (BitVec.ofNat c.lN (2 ^ (c.lN - 1))).msb = true := by
    rw [BitVec.msb_eq_decide, Lns.signBit_toNat, Config.lW]
    exact decide_eq_true le_rfl
  constructor
  · rw [BitVec.msb_xor, hmsb]
    simp
  · rw [Lns.code, Lns.code, BitVec.setWidth_xor, hfield]
    simp

/-- What is opposite to a number is a number: it has the code of one. -/
theorem Lns.Opposite.number {c : Config} {a b : BitVec c.lN} (h : Lns.Opposite c a b)
    (ha : a ≠ Lns.nar c) (ha' : a ≠ Lns.zero c) : b ≠ Lns.nar c ∧ b ≠ Lns.zero c :=
  (Lns.number_of_lEMin_le (h.2 ▸ (Lns.code_bounds ha' ha).1)).symm

theorem Lns.ladd_xor_signBit {c : Config} {a : BitVec c.lN} (ha : a ≠ Lns.nar c)
    (ha' : a ≠ Lns.zero c) :
    Lns.add c a (a ^^^ BitVec.ofNat c.lN (2 ^ (c.lN - 1))) = Lns.zero c := by
  have h := Lns.opposite_xor_signBit c a
  obtain ⟨hb, hb'⟩ := h.number ha ha'
  exact Lns.ladd_of_opposite ha ha' hb hb' h

theorem Lns.neg_of_reserved {c : Config} {p : BitVec c.lN} (h : p = Lns.zero c ∨ p = Lns.nar c) :
    Lns.neg c p = p := if_pos h

theorem Lns.neg_of_number {c : Config} {p : BitVec c.lN} (hnar : p ≠ Lns.nar c)
    (hzero : p ≠ Lns.zero c) : Lns.neg c p = p ^^^ BitVec.ofNat c.lN (2 ^ (c.lN - 1)) :=
  if_neg (not_or.mpr ⟨hzero, hnar⟩)

/-- Settles O54, by the cases of R190; LSUB is LADD of the negation by definition (R191). -/
theorem laddFixedCasesAndLsub : Obligations.LaddFixedCasesAndLsub := by
  intro s a b hext
  simp only [exec_ladd hext, exec_lsub hext, Lns.sub]
  refine ⟨fun h => ?_, fun h _ => ?_, fun _ h => ?_, fun ha ha' h => ?_, fun h => ?_,
    fun hb hb' => ?_, _, rfl⟩
  · rw [Lns.ladd_of_nar h]
  · rw [h, Lns.zero_ladd]
  · rw [h, Lns.ladd_zero]
  · rw [h, Lns.ladd_xor_signBit ha ha']
  · rw [Lns.neg_of_reserved h.symm]
  · rw [Lns.neg_of_number hb hb']

end Sys2Proof.Proofs
end

section
/-! The extension fixed-point operations FADD, FSUB, FMUL and FDIV (spec 47_ext_arith.md R192 to R197), and
the laws of the extension (R198). -/

namespace Sys2Proof.Proofs

open Sys2Proof.Machine

section Exec

variable {s : State} (hext : s.cfg.extArith = true) (a b : BitVec s.cfg.fN)

include hext

theorem exec_fadd :
    exec (.fadd a.toNat b.toNat) s = .next (s.answer (.pattern (Fix.add s.cfg a b))) := by
  show execFadd a.toNat b.toNat s = _
  rw [execFadd, fixPort_toNat, fixPort_toNat, deliver_gated hext, responseOf]

theorem exec_fsub :
    exec (.fsub a.toNat b.toNat) s = .next (s.answer (.pattern (Fix.sub s.cfg a b))) := by
  show execFsub a.toNat b.toNat s = _
  rw [execFsub, fixPort_toNat, fixPort_toNat, deliver_gated hext, responseOf]

theorem exec_fmul :
    exec (.fmul a.toNat b.toNat) s = .next (s.answer (.pattern (Fix.mul s.cfg a b))) := by
  show execFmul a.toNat b.toNat s = _
  rw [execFmul, fixPort_toNat, fixPort_toNat, deliver_gated hext, responseOf]

theorem exec_fdiv :
    exec (.fdiv a.toNat b.toNat) s =
      .next (s.answer (responseOf ((Fix.div s.cfg a b).map Response.pattern))) := by
  show execFdiv a.toNat b.toNat s = _
  rw [execFdiv, fixPort_toNat, fixPort_toNat, deliver_gated hext]

end Exec

/-! The code of each result (R193 to R196). -/

section Codes

variable (c : Config) (a b : BitVec c.fN)

theorem Fix.fadd_toInt :
    (Fix.add c a b).toInt = clampInt c.fIMin c.fIMax (a.toInt + b.toInt) :=
  Fix.saturate_toInt c _

theorem Fix.fsub_toInt :
    (Fix.sub c a b).toInt = clampInt c.fIMin c.fIMax (a.toInt - b.toInt) :=
  Fix.saturate_toInt c _

theorem Fix.fmul_toInt :
    (Fix.mul c a b).toInt =
      clampInt c.fIMin c.fIMax (rne ((a.toInt : ℚ) * b.toInt / 2 ^ c.fR)) := by
  rw [Fix.mul, Fix.saturate_toInt, Int.cast_mul]

variable {c b}

/-- A divisor other than zero (R196). -/
theorem Fix.fdiv_of_ne_zero (hb : b.toInt ≠ 0) :
    ∃ r, Fix.div c a b = .ok r ∧
      r.toInt = clampInt c.fIMin c.fIMax (rne ((a.toInt : ℚ) * 2 ^ c.fR / b.toInt)) := by
  refine ⟨_, if_neg hb, ?_⟩
  rw [Fix.saturate_toInt]
  push_cast
  rfl

/-- A zero divisor, by the policy (R197). -/
theorem Fix.fdiv_of_zero (hb : b.toInt = 0) :
    (c.fxDiv0Policy = .signal → Fix.div c a b = .error .divByZero) ∧
      (c.fxDiv0Policy = .clamp → Fix.div c a b = .ok (Fix.bound c a.msb)) := by
  constructor <;> intro hpolicy <;> rw [Fix.div, if_pos hb, hpolicy]

end Codes

theorem toInt_eq_zero_iff {n : Nat} (b : BitVec n) : b.toInt = 0 ↔ b.toNat = 0 := by
  have hlt := b.isLt
  rw [BitVec.toInt_eq_toNat_cond]
  split <;> omega

/-- Settles O56: `clampInt` is the `min` and `max` of the statement. -/
theorem fixedArithmeticRoundsAndSaturates : Obligations.FixedArithmeticRoundsAndSaturates := by
  intro s a b hext
  rw [exec_fadd hext, exec_fsub hext, exec_fmul hext, exec_fdiv hext, ne_eq, ← toInt_eq_zero_iff]
  refine ⟨⟨_, rfl, Fix.fadd_toInt s.cfg a b⟩, ⟨_, rfl, Fix.fsub_toInt s.cfg a b⟩,
    ⟨_, rfl, Fix.fmul_toInt s.cfg a b⟩, fun hb => ?_, fun hb hpolicy => ?_, fun hb hpolicy => ?_⟩
  · obtain ⟨r, hdiv, hr⟩ := Fix.fdiv_of_ne_zero a hb
    exact ⟨r, by rw [hdiv]; rfl, hr⟩
  · rw [(Fix.fdiv_of_zero a hb).1 hpolicy]
    rfl
  · rw [(Fix.fdiv_of_zero a hb).2 hpolicy]
    rfl

/-! The laws of R198. -/

theorem Lns.lmul_comm (c : Config) (a b : BitVec c.lN) : Lns.mul c a b = Lns.mul c b a := by
  simp only [Lns.mul, Lns.combine, or_comm, add_comm, bne_comm]

theorem Fix.fadd_comm (c : Config) (a b : BitVec c.fN) : Fix.add c a b = Fix.add c b a := by
  rw [Fix.add, Fix.add, add_comm]

theorem Fix.fmul_comm (c : Config) (a b : BitVec c.fN) : Fix.mul c a b = Fix.mul c b a := by
  rw [Fix.mul, Fix.mul, mul_comm]

theorem clampInt_mono (lo hi : Int) : Monotone (clampInt lo hi) := fun i j h => by
  unfold clampInt
  omega

theorem Fix.val_nonneg_iff {c : Config} {b : BitVec c.fN} : 0 ≤ Fix.val c b ↔ 0 ≤ b.toInt := by
  rw [Fix.val, le_div_iff₀ (by positivity), zero_mul, Int.cast_nonneg_iff]

section Monotone

variable {c : Config} {a a' : BitVec c.fN} (h : a.toInt ≤ a'.toInt) (b : BitVec c.fN)

include h

theorem Fix.fadd_mono : (Fix.add c a b).toInt ≤ (Fix.add c a' b).toInt := by
  rw [Fix.fadd_toInt, Fix.fadd_toInt]
  exact clampInt_mono _ _ (by omega)

theorem Fix.fsub_mono : (Fix.sub c a b).toInt ≤ (Fix.sub c a' b).toInt := by
  rw [Fix.fsub_toInt, Fix.fsub_toInt]
  exact clampInt_mono _ _ (by omega)

variable {b}

theorem Fix.fmul_mono (hb : 0 ≤ Fix.val c b) :
    (Fix.mul c a b).toInt ≤ (Fix.mul c a' b).toInt := by
  have hprod : a.toInt * b.toInt ≤ a'.toInt * b.toInt :=
    mul_le_mul_of_nonneg_right h (Fix.val_nonneg_iff.mp hb)
  rw [Fix.fmul_toInt, Fix.fmul_toInt]
  refine clampInt_mono _ _ (roundInt_mono .even (div_le_div_of_nonneg_right ?_ (by positivity)))
  exact_mod_cast hprod

theorem Fix.fmul_anti (hb : Fix.val c b < 0) :
    (Fix.mul c a' b).toInt ≤ (Fix.mul c a b).toInt := by
  have hneg : b.toInt < 0 := not_le.mp (mt Fix.val_nonneg_iff.mpr hb.not_ge)
  have hprod : a'.toInt * b.toInt ≤ a.toInt * b.toInt := mul_le_mul_of_nonpos_right h hneg.le
  rw [Fix.fmul_toInt, Fix.fmul_toInt]
  refine clampInt_mono _ _ (roundInt_mono .even (div_le_div_of_nonneg_right ?_ (by positivity)))
  exact_mod_cast hprod

end Monotone

/-- A number and its negation cancel, and so does the zero token with itself. -/
theorem Lns.ladd_neg_self {c : Config} {x : BitVec c.lN} (hnar : x ≠ Lns.nar c) :
    Lns.add c x (Lns.neg c x) = Lns.zero c := by
  by_cases hzero : x = Lns.zero c
  · rw [hzero, Lns.neg_of_reserved (.inl rfl), Lns.zero_ladd]
  · rw [Lns.neg_of_number hnar hzero, Lns.ladd_xor_signBit hnar hzero]

theorem Fix.maxNeg_eq_intMin (c : Config) : Fix.maxNeg c = BitVec.intMin c.fN := by
  have hN := c.fN_ge
  apply BitVec.eq_of_toNat_eq
  rw [Fix.maxNeg_toNat, BitVec.toNat_intMin_of_pos (by omega)]

/-- The negation of a code that has one is added exactly. -/
theorem Fix.fadd_neg_self {c : Config} {a : BitVec c.fN} (h : a ≠ Fix.maxNeg c) :
    Fix.add c a (-a) = Fix.zero c := by
  have hneg : (-a).toInt = -a.toInt := BitVec.toInt_neg_of_ne_intMin (Fix.maxNeg_eq_intMin c ▸ h)
  have hzero : (Fix.zero c).toInt = 0 := by simp [Fix.zero]
  rw [Fix.add, hneg, add_neg_cancel, ← hzero, Fix.saturate_toInt_self]

/-- The least code is its own two's complement, and twice it is clamped to it. -/
theorem Fix.fadd_neg_maxNeg (c : Config) : Fix.add c (Fix.maxNeg c) (-Fix.maxNeg c) = Fix.maxNeg c := by
  have hpos : (0 : Int) < 2 ^ (c.fN - 1) := by positivity
  have hle := fIMin_le_fIMax c
  have hcode : (Fix.maxNeg c).toInt = c.fIMin := by
    rw [Fix.maxNeg_eq_intMin, BitVec.toInt_intMin_of_pos (by have := c.fN_ge; omega), Config.fIMin]
  have hneg : -Fix.maxNeg c = Fix.maxNeg c := by rw [Fix.maxNeg_eq_intMin, BitVec.neg_intMin]
  apply BitVec.eq_of_toInt_eq
  rw [Fix.fadd_toInt, hneg, hcode]
  unfold clampInt Config.fIMin at *
  omega

/-- Settles O57, law by law. -/
theorem extensionArithmeticLaws : Obligations.ExtensionArithmeticLaws :=
  ⟨fun c a b => ⟨Lns.ladd_comm c a b, Lns.lmul_comm c a b⟩,
    fun c a b => ⟨Fix.fadd_comm c a b, Fix.fmul_comm c a b⟩,
    fun _ _ _ b h => ⟨Fix.fadd_mono h b, Fix.fsub_mono h b, Fix.fmul_mono h, Fix.fmul_anti h⟩,
    fun _ _ => ⟨Lns.ladd_of_nar (.inl rfl), Lns.ladd_of_nar (.inr rfl), Lns.ladd_of_nar (.inl rfl),
      Lns.ladd_of_nar (.inr (Lns.neg_of_reserved (.inr rfl))), Lns.lmul_of_nar (.inl rfl),
      Lns.lmul_of_nar (.inr rfl), Lns.ldiv_of_nar (.inl rfl), Lns.ldiv_of_nar (.inr rfl),
      Lns.ladd_neg_self⟩,
    fun c _ => ⟨Fix.fadd_neg_self, Fix.fadd_neg_maxNeg c⟩⟩

end Sys2Proof.Proofs
end

section
/-! Which fault each operation raises, and when (spec 60_exceptions.md R206 to R210). -/

namespace Sys2Proof.Proofs

open Sys2Proof.Machine

/-! The fault of a delivered response. -/

theorem State.answer_fault_iff (s : State) (p : Response) (w : FaultWires) :
    (s.answer p).resp.map (·.fault) = some w ↔ p.fault = w := by
  simp

theorem none_bits_ne {f : FaultCode} (hf : f ≠ .none) : FaultCode.none.bits ≠ f.bits :=
  mt (FaultCode.bits_eq_iff _ _).mp hf.symm

/-- What is built from a result has no fault, so the fault is that of the operation. -/
theorem responseOf_map_fault_iff {α : Type} {g : α → Response} {f : FaultCode} (hf : f ≠ .none)
    (hg : ∀ r, (g r).fault = FaultCode.none.bits) (e : Except FaultCode α) :
    (responseOf (e.map g)).fault = f.bits ↔ e = .error f := by
  cases e with
  | ok r => exact iff_of_false (hg r ▸ none_bits_ne hf) (by simp)
  | error f' => exact (FaultCode.bits_eq_iff f' f).trans (by simp)

/-- The gate of R56 raises `ILLEGAL_OP` where it is closed, and nothing where it is open. -/
theorem responseOf_gated_fault_iff (c : Config) (e : Except FaultCode Response) (f : FaultCode) :
    (responseOf (gated c e)).fault = f.bits ↔
      (c.extArith = false ∧ f = .illegalOp) ∨
        (c.extArith = true ∧ (responseOf e).fault = f.bits) := by
  cases hext : c.extArith with
  | true => simp [gated_present hext]
  | false =>
    rw [gated_absent hext]
    exact (FaultCode.bits_eq_iff .illegalOp f).trans (by simp [eq_comm])

/-! Each operation that can raise a fault. -/

theorem specialWires_cases (w : SpecialWires) :
    w = Special.none.bits ∨ w = Special.zero.bits ∨ w = Special.inf.bits ∨ w = Special.nar.bits := by
  revert w
  decide

/-- What can fail in one way only fails in that way, if at all. -/
theorem eq_error_iff_of_only {α : Type} {e : Except FaultCode α} {only : FaultCode}
    (h : ∀ {f}, e = .error f → f = only) (f : FaultCode) :
    e = .error f ↔ f = only ∧ e = .error only := by
  constructor
  · intro he
    obtain rfl := h he
    exact ⟨rfl, he⟩
  · rintro ⟨rfl, he⟩
    exact he

/-- The row of R209 for PENC, for a tuple tagged None: the hidden bit is not set, or the tuple is too wide,
or its magnitude is in range and is the value of no pattern. -/
def Posit.Unencodable (c : Config) (d : PositDec) : Prop :=
  d.sig < 2 ^ c.pFW ∨ 2 ^ (c.pFW + 1) ≤ d.sig ∨
    (c.pMinPos ≤ Posit.tupleMagnitude c d.scale d.sig ∧
      Posit.tupleMagnitude c d.scale d.sig ≤ c.pMaxPos ∧
      ∀ p, Posit.val c p ≠ some (Posit.tupleMagnitude c d.scale d.sig))

/-- Nothing of the bit string is cut off exactly where a pattern has that magnitude (R80, R81). -/
theorem Posit.tail_eq_zero_iff {c : Config} {scale : Int} {sig : Nat} (hsig : Posit.HiddenBit c sig) :
    (Posit.bitString c scale sig).2 = 0 ↔
      ∃ p, Posit.val c p = some (Posit.tupleMagnitude c scale sig) := by
  constructor
  · intro htail
    obtain ⟨q, hq⟩ := Posit.represents_of_tail hsig htail
    exact ⟨_, by simpa [signFactor] using hq.val_ofCode false⟩
  · rintro ⟨p, hp⟩
    obtain ⟨q, hq, -⟩ := Posit.represents_of_val (sign := false) hsig
      (by simpa [signFactor] using hp)
    rw [hq.bitString_eq]

theorem Posit.encode_malformed_iff_of_hiddenBit {c : Config} {d : PositDec}
    (hspecial : d.special = Special.none.bits) (hsig : Posit.HiddenBit c d.sig) :
    Posit.encode c d = .error .malformedOperand ↔ Posit.Unencodable c d := by
  have htail := Posit.tail_eq_zero_iff (scale := d.scale) hsig
  rw [Posit.encode_wellFormed hspecial hsig, Posit.Unencodable, or_iff_right hsig.1.not_gt,
    or_iff_right hsig.2.not_ge]
  by_cases hout : c.pMaxPos < Posit.tupleMagnitude c d.scale d.sig ∨
      Posit.tupleMagnitude c d.scale d.sig < c.pMinPos
  · rw [if_pos hout]
    refine iff_of_false (by simp) ?_
    rintro ⟨hmin, hmax, -⟩
    exact hout.elim hmax.not_gt hmin.not_gt
  · obtain ⟨hmax, hmin⟩ := not_or.mp hout
    rw [if_neg hout, ← and_assoc, and_iff_right ⟨not_lt.mp hmin, not_lt.mp hmax⟩, ← not_exists,
      ← htail]
    split <;> simp_all

theorem Posit.encode_malformed_iff (c : Config) (d : PositDec) :
    Posit.encode c d = .error .malformedOperand ↔
      d.special = 0b00#2 ∧ Posit.Unencodable c d := by
  rcases specialWires_cases d.special with h | h | h | h
  · refine Iff.trans ?_ (and_iff_right h).symm
    by_cases hsig : Posit.HiddenBit c d.sig
    · exact Posit.encode_malformed_iff_of_hiddenBit h hsig
    · have hwide : d.sig < 2 ^ c.pFW ∨ 2 ^ (c.pFW + 1) ≤ d.sig := by
        rwa [Posit.HiddenBit, not_and_or, not_le, not_lt] at hsig
      exact iff_of_true (Posit.encode_unnormalised h hwide) (or_assoc.mp (.inl hwide))
  · simp [Posit.encode_zeroTag h, h, Special.bits]
  · simp [Posit.encode_infOrNarTag (.inl h), h, Special.bits]
  · simp [Posit.encode_infOrNarTag (.inr h), h, Special.bits]

theorem Lns.encode_malformed_iff (c : Config) (d : LnsDec) :
    Lns.encode c d = .error .malformedOperand ↔ d.special = 0b00#2 ∧ 2 ^ c.lR ≤ d.logfrac := by
  rcases specialWires_cases d.special with h | h | h | h
  · refine Iff.trans ?_ (and_iff_right h).symm
    rcases lt_or_ge d.logfrac (2 ^ c.lR) with hfrac | hfrac
    · rw [Lns.encode_wellFormed h hfrac rfl]
      exact iff_of_false (by split <;> simp) hfrac.not_ge
    · exact iff_of_true (Lns.encode_oversized h hfrac) hfrac
  · simp [Lns.encode_zeroTag h, h, Special.bits]
  · simp [Lns.encode_infOrNarTag (.inl h), h, Special.bits]
  · simp [Lns.encode_infOrNarTag (.inr h), h, Special.bits]

theorem Fix.encode_error_iff (c : Config) (d : FixDec) (f : FaultCode) :
    Fix.encode c d = .error f ↔
      (f = .noImage ∧ d.special = 0b11#2) ∨
        (f = .malformedOperand ∧ d.special = 0b00#2 ∧ 2 ^ c.fR ≤ d.fpart) := by
  rcases specialWires_cases d.special with h | h | h | h
  · rcases lt_or_ge d.fpart (2 ^ c.fR) with hfrac | hfrac
    · simp [Fix.encode_wellFormed h hfrac, h, Special.bits, hfrac]
    · simp [Fix.encode_oversized h hfrac, h, Special.bits, hfrac, eq_comm]
  · simp [Fix.encode_zeroTag h, h, Special.bits]
  · simp [Fix.encode_infTag h, h, Special.bits]
  · simp [Fix.encode_narTag h, h, Special.bits, eq_comm]

theorem Fix.roundOperand_noImage_iff (c : Config) (u : Unrounded) (pick : Nat × Nat) :
    Fix.roundOperand c u pick = .error .noImage ↔ u.special = 0b11#2 := by
  unfold Fix.roundOperand
  rcases specialWires_cases u.special with h | h | h | h <;> rw [h, Special.ofBits_bits]
  · refine iff_of_false ?_ (by decide)
    dsimp only
    split <;> simp
  · exact iff_of_false (by simp) (by decide)
  · exact iff_of_false (by simp) (by decide)
  · exact iff_of_true rfl rfl

theorem sel_cases (sel : Sel) : sel = 0#3 ∨ sel = 1#3 ∨ sel = 2#3 ∨ sel = 3#3 ∨ sel = 4#3 ∨
    sel = 5#3 ∨ sel = 6#3 ∨ sel = 7#3 := by
  revert sel
  decide

theorem Posit.constant_malformed_iff (c : Config) (sel : Sel) :
    Posit.constant c sel = .error .malformedOperand ↔ sel = 0b110#3 ∨ sel = 0b111#3 := by
  rcases sel_cases sel with rfl | rfl | rfl | rfl | rfl | rfl | rfl | rfl <;> simp [Posit.constant]

theorem Lns.constant_malformed_iff (c : Config) (sel : Sel) :
    Lns.constant c sel = .error .malformedOperand ↔ sel = 0b110#3 ∨ sel = 0b111#3 := by
  rcases sel_cases sel with rfl | rfl | rfl | rfl | rfl | rfl | rfl | rfl <;> simp [Lns.constant]

/-- Fixed-point has no NaR to name (R179). -/
theorem Fix.constant_malformed_iff (c : Config) (sel : Sel) :
    Fix.constant c sel = .error .malformedOperand ↔
      sel = 0b001#3 ∨ sel = 0b110#3 ∨ sel = 0b111#3 := by
  rcases sel_cases sel with rfl | rfl | rfl | rfl | rfl | rfl | rfl | rfl <;> simp [Fix.constant]

theorem Fix.div_divByZero_iff (c : Config) (a b : BitVec c.fN) :
    Fix.div c a b = .error .divByZero ↔ c.fxDiv0Policy = .signal ∧ b.toNat = 0 := by
  rw [← toInt_eq_zero_iff]
  by_cases hb : b.toInt = 0
  · obtain ⟨hsignal, hclamp⟩ := Fix.fdiv_of_zero a hb
    cases hpolicy : c.fxDiv0Policy with
    | signal => exact iff_of_true (hsignal hpolicy) ⟨rfl, hb⟩
    | clamp => simp [hclamp hpolicy]
  · obtain ⟨r, hdiv, -⟩ := Fix.fdiv_of_ne_zero a hb
    simp [hdiv, hb]

/-! The table of the faults. -/

/-- R207 to R210 as one table: the instruction raises the fault `f`. -/
def Raises (c : Config) (i : Instr) (f : FaultCode) : Prop :=
  match i with
  | .penc d => f = .malformedOperand ∧ d.special = 0b00#2 ∧ Posit.Unencodable c d
  | .lenc d => f = .malformedOperand ∧ d.special = 0b00#2 ∧ 2 ^ c.lR ≤ d.logfrac
  | .fenc d =>
      (f = .noImage ∧ d.special = 0b11#2) ∨
        (f = .malformedOperand ∧ d.special = 0b00#2 ∧ 2 ^ c.fR ≤ d.fpart)
  | .frnd u => f = .noImage ∧ u.special = 0b11#2
  | .pconst sel | .lconst sel => f = .malformedOperand ∧ (sel = 0b110#3 ∨ sel = 0b111#3)
  | .fconst sel => f = .malformedOperand ∧ (sel = 0b001#3 ∨ sel = 0b110#3 ∨ sel = 0b111#3)
  | .fdiv _ b =>
      (c.extArith = false ∧ f = .illegalOp) ∨
        (c.extArith = true ∧ f = .divByZero ∧ c.fxDiv0Policy = .signal ∧ (fixPort c b).toNat = 0)
  | .ladd .. | .lsub .. | .lmul .. | .ldiv .. | .fadd .. | .fsub .. | .fmul .. =>
      c.extArith = false ∧ f = .illegalOp
  | _ => False

/-- An operation that cannot fail raises what its gate raises. -/
theorem responseOf_gated_ok_fault_iff {f : FaultCode} (hf : f ≠ .none) (c : Config) {p : Response}
    (hp : p.fault = FaultCode.none.bits) :
    (responseOf (gated c (.ok p))).fault = f.bits ↔ c.extArith = false ∧ f = .illegalOp := by
  rw [responseOf_gated_fault_iff, responseOf, hp]
  simp [none_bits_ne hf]

/-- An operation with one way to fail, `P`, raises that fault alone. -/
theorem answer_map_fault_iff {α : Type} {g : α → Response} {e : Except FaultCode α}
    {f only : FaultCode} {P : Prop} (hf : f ≠ .none)
    (hg : ∀ r, (g r).fault = FaultCode.none.bits) (honly : ∀ {f}, e = .error f → f = only)
    (hP : e = .error only ↔ P) (s : State) :
    (s.answer (responseOf (e.map g))).resp.map (·.fault) = some f.bits ↔ f = only ∧ P := by
  rw [State.answer_fault_iff, responseOf_map_fault_iff hf hg, eq_error_iff_of_only honly, hP]

/-- `exec` raises the faults of the table, and no other. -/
theorem exec_raises_iff {f : FaultCode} (hf : f ≠ .none) (i : Instr) (s : State) :
    ∃ t, exec i s = .next t ∧ (t.resp.map (·.fault) = some f.bits ↔ Raises s.cfg i f) := by
  cases i with
  | penc d =>
    exact ⟨_, deliver_eq_answer _ _, answer_map_fault_iff hf (fun _ => rfl) Posit.encode_error
      (Posit.encode_malformed_iff s.cfg d) _⟩
  | lenc d =>
    exact ⟨_, deliver_eq_answer _ _, answer_map_fault_iff hf (fun _ => rfl) Lns.encode_error
      (Lns.encode_malformed_iff s.cfg d) _⟩
  | fenc d =>
    refine ⟨_, deliver_eq_answer _ _, (State.answer_fault_iff _ _ _).trans ?_⟩
    rw [responseOf_map_fault_iff hf fun _ => rfl, Fix.encode_error_iff, Raises]
  | frnd u =>
    exact ⟨_, deliver_eq_answer _ _, answer_map_fault_iff hf (fun _ => rfl) Fix.roundOperand_error
      (Fix.roundOperand_noImage_iff s.cfg u _) _⟩
  | pconst sel =>
    exact ⟨_, deliver_eq_answer _ _, answer_map_fault_iff hf (fun _ => rfl) Posit.constant_error
      (Posit.constant_malformed_iff s.cfg sel) _⟩
  | lconst sel =>
    exact ⟨_, deliver_eq_answer _ _, answer_map_fault_iff hf (fun _ => rfl) Lns.constant_error
      (Lns.constant_malformed_iff s.cfg sel) _⟩
  | fconst sel =>
    exact ⟨_, deliver_eq_answer _ _, answer_map_fault_iff hf (fun _ => rfl) Fix.constant_error
      (Fix.constant_malformed_iff s.cfg sel) _⟩
  | fdiv a b =>
    refine ⟨_, deliver_eq_answer _ _, (State.answer_fault_iff _ _ _).trans ?_⟩
    rw [responseOf_gated_fault_iff, responseOf_map_fault_iff hf fun _ => rfl,
      eq_error_iff_of_only (fun h => (Fix.div_error h).1), Fix.div_divByZero_iff, Raises]
  | ladd | lsub | lmul | ldiv | fadd | fsub | fmul =>
    exact ⟨_, deliver_eq_answer _ _, (State.answer_fault_iff _ _ _).trans
      (responseOf_gated_ok_fault_iff hf s.cfg rfl)⟩
  | _ =>
    exact ⟨_, rfl, (State.answer_fault_iff _ _ _).trans (iff_of_false (none_bits_ne hf) id)⟩

/-! The rows of the table. -/

/-- The row of R207. -/
theorem raises_divByZero_iff {c : Config} {i : Instr} (hwf : i.wellFormed c = true) :
    Raises c i .divByZero ↔
      c.extArith = true ∧ c.fxDiv0Policy = .signal ∧ ∃ a, i = .fdiv a 0 := by
  cases i with
  | fdiv a b =>
    have hb : (fixPort c b).toNat = b := by
      have hlt : b < 2 ^ c.fN := of_decide_eq_true (Bool.and_eq_true_iff.mp hwf).2
      rw [fixPort, BitVec.toNat_ofNat, Nat.mod_eq_of_lt hlt]
    simp [Raises, hb]
  | _ => simp [Raises]

/-- The row of R210. -/
theorem raises_noImage_iff (c : Config) (i : Instr) :
    Raises c i .noImage ↔
      (∃ d, i = .fenc d ∧ d.special = 0b11#2) ∨ (∃ u, i = .frnd u ∧ u.special = 0b11#2) := by
  cases i <;> simp [Raises]

/-- The row of R209. -/
theorem raises_malformedOperand_iff (c : Config) (i : Instr) :
    Raises c i .malformedOperand ↔
      (∃ d, i = .penc d ∧ d.special = 0b00#2 ∧ Posit.Unencodable c d) ∨
      (∃ d, i = .lenc d ∧ d.special = 0b00#2 ∧ 2 ^ c.lR ≤ d.logfrac) ∨
      (∃ d, i = .fenc d ∧ d.special = 0b00#2 ∧ 2 ^ c.fR ≤ d.fpart) ∨
      (∃ sel, (i = .pconst sel ∨ i = .lconst sel ∨ i = .fconst sel) ∧
        (sel = 0b110#3 ∨ sel = 0b111#3)) ∨
      i = .fconst 0b001#3 := by
  cases i with
  | fconst sel => simp [Raises, or_comm]
  | _ => simp [Raises]

/-- Settles O13: `exec` raises what the table says, and the row of `MALFORMED_OPERAND` is R209's. -/
theorem malformedOperandIsRaisedExactlyByTheTable :
    Obligations.MalformedOperandIsRaisedExactlyByTheTable := by
  intro s i
  obtain ⟨t, hexec, hfault⟩ := exec_raises_iff (f := .malformedOperand) (by decide) i s
  exact ⟨t, hexec, hfault.trans (raises_malformedOperand_iff s.cfg i)⟩

/-- Settles O12. -/
theorem noImageIsRaisedExactlyForNarTags : Obligations.NoImageIsRaisedExactlyForNarTags := by
  intro s i
  obtain ⟨t, hexec, hfault⟩ := exec_raises_iff (f := .noImage) (by decide) i s
  exact ⟨t, hexec, hfault.trans (raises_noImage_iff s.cfg i)⟩

theorem Posit.pdiv_zero (c : Config) (a : BitVec c.pN) :
    Posit.div c a (Posit.zero c) = Posit.nar c := by
  by_cases hnar : a = Posit.nar c
  · rw [hnar]
    exact Posit.operate_nar_left c _ _
  · rw [Posit.pdiv_of_val (Posit.val_eq_mag hnar) (Posit.val_zero c), if_pos rfl]

/-- Settles O11: the row of `DIV_BY_ZERO`, and the other two quotients by zero are NaR. -/
theorem divByZeroIsRaisedExactlyByFdiv : Obligations.DivByZeroIsRaisedExactlyByFdiv := by
  refine ⟨fun s i hwf => ?_, fun s a => ?_, fun s a hext => ?_⟩
  · obtain ⟨t, hexec, hfault⟩ := exec_raises_iff (f := .divByZero) (by decide) i s
    exact ⟨t, hexec, hfault.trans (raises_divByZero_iff hwf)⟩
  · rw [← Posit.zero_toNat s.cfg, exec_pdiv, Posit.pdiv_zero]
  · rw [exec_ldiv hext, Lns.ldiv_zero]

/-! `ILLEGAL_OP` (R208). -/

/-- The row of R208: an extension operation that is absent. -/
theorem raises_illegalOp_iff (c : Config) (i : Instr) :
    Raises c i .illegalOp ↔ i.isExt = true ∧ c.extArith = false := by
  cases i <;> simp [Raises, Instr.isExt]

/-- The codes whose request is illegal under a configuration (R55, R56, R208). -/
def IllegalCode (c : Config) (op : OpCode) : Prop :=
  isReservedCode op = true ∨ (c.extArith = false ∧ isExtCode op = true)

/-- The codes written out. -/
theorem illegalCode_iff (c : Config) (op : OpCode) :
    IllegalCode c op ↔
      op = 0b11011#5 ∨ op = 0b11111#5 ∨
        (c.extArith = false ∧ op ∈ [0b01100#5, 0b01101#5, 0b01110#5, 0b01111#5,
          0b10100#5, 0b10101#5, 0b10110#5, 0b10111#5]) := by
  have hext : isExtCode op = true ↔ op ∈ [0b01100#5, 0b01101#5, 0b01110#5, 0b01111#5,
      0b10100#5, 0b10101#5, 0b10110#5, 0b10111#5] := by
    revert op
    decide
  rw [IllegalCode, hext, isReservedCode, Bool.or_eq_true, beq_iff_eq, beq_iff_eq, or_assoc]

/-- A request that decodes has an illegal code exactly when its instruction is absent. -/
theorem illegalCode_iff_of_decode {q : Request} {i : Instr} (h : decode q = .ok i) (c : Config) :
    IllegalCode c q.op ↔ i.isExt = true ∧ c.extArith = false := by
  obtain ⟨hreserved, hext⟩ := opField i
  rw [op_encode_of_decode h] at hreserved hext
  simp [IllegalCode, hreserved, hext, and_comm]

/-- An absent operation does not look at its operands (R185). -/
theorem exec_of_absent {i : Instr} {s : State} (hext : i.isExt = true)
    (habsent : s.cfg.extArith = false) :
    exec i s = .next (s.answer (.faulted .illegalOp)) := by
  have hgate (e : Except FaultCode Response) :
      deliver s (gated s.cfg e) = .next (s.answer (.faulted .illegalOp)) := by
    rw [gated_absent habsent, deliver_error, State.takeFault]
  cases i with
  | ladd | lsub | lmul | ldiv | fadd | fsub | fmul | fdiv => exact hgate _
  | _ => cases hext

theorem step_of_illegalCode {s : State} (h : IllegalCode s.cfg s.req.op) :
    step s = .next (s.answer (.faulted .illegalOp)) := by
  cases hdec : decode s.req with
  | error e => rw [step_of_decode_error hdec, deliver_error, State.takeFault]
  | ok i =>
    obtain ⟨hext, habsent⟩ := (illegalCode_iff_of_decode hdec s.cfg).mp h
    rw [step_of_decode hdec, exec_of_absent hext habsent]

theorem illegalCode_of_step {s t : State} (hstep : step s = .next t)
    (hfault : t.resp.map (·.fault) = some FaultCode.illegalOp.bits) :
    IllegalCode s.cfg s.req.op := by
  cases hdec : decode s.req with
  | error e => exact .inl (isReservedCode_of_decode_error hdec)
  | ok i =>
    obtain ⟨t', hexec, hraises⟩ := exec_raises_iff (f := .illegalOp) (by decide) i s
    rw [step_of_decode hdec, hexec] at hstep
    cases hstep
    exact (illegalCode_iff_of_decode hdec s.cfg).mpr
      ((raises_illegalOp_iff s.cfg i).mp (hraises.mp hfault))

/-- Settles O10. -/
theorem illegalOpIsRaisedExactlyForIllegalCodes :
    Obligations.IllegalOpIsRaisedExactlyForIllegalCodes := by
  refine ⟨fun s h => ?_, fun s t hstep hfault => ?_, fun s i => exec_of_absent⟩
  · exact step_of_illegalCode ((illegalCode_iff s.cfg s.req.op).mpr h)
  · exact (illegalCode_iff s.cfg s.req.op).mp (illegalCode_of_step hstep hfault)

end Sys2Proof.Proofs
end

section
/-! What a transaction leaves behind, and a host's run of transactions (spec 70_reset_and_hazards.md R225,
R227, R230, 60_exceptions.md R214, R216). -/

namespace Sys2Proof.Proofs

open Sys2Proof.Machine

/-- A step reads the configuration, the request and the draw counter, and no other field; it counts a
draw, if it makes one, and answers. -/
theorem step_reads_cfg_req_draws {s s' : State} (hcfg : s.cfg = s'.cfg) (hreq : s.req = s'.req)
    (hdraws : s.draws = s'.draws) :
    ∃ drawn p, step s = .next ((s.countDraw drawn).answer p) ∧
      step s' = .next ((s'.countDraw drawn).answer p) := by
  cases hdec : decode s.req with
  | error e =>
    exact ⟨false, .faulted .illegalOp, step_of_decode_error hdec, step_of_decode_error (hreq ▸ hdec)⟩
  | ok i =>
    rw [step_of_decode hdec, step_of_decode (hreq ▸ hdec)]
    exact ⟨_, exec_reads_cfg_draws i hcfg hdraws⟩

theorem step_answers (s : State) : ∃ drawn p, step s = .next ((s.countDraw drawn).answer p) := by
  obtain ⟨drawn, p, hstep, -⟩ := step_reads_cfg_req_draws (rfl : s.cfg = s.cfg) rfl rfl
  exact ⟨drawn, p, hstep⟩

/-- Once the host presents the next request, nothing is left of a transaction but the count of its
draws. -/
theorem present_of_step {s t : State} (hstep : step s = .next t) (hdraws : t.draws = s.draws)
    (q : Request) : t.present q = s.present q := by
  obtain ⟨drawn, p, hanswer⟩ := step_answers s
  cases hanswer.symm.trans hstep
  rw [State.answer_draws] at hdraws
  simp [State.present, hdraws]

/-- A step replaces the response on the ports, so it does not matter that a reset has taken it away. -/
theorem step_assertReset (s : State) : step s.assertReset = step s := by
  obtain ⟨drawn, p, hreset, hstep⟩ :=
    step_reads_cfg_req_draws (s := s.assertReset) (s' := s) rfl rfl rfl
  rw [hreset, hstep]
  rfl

/-- Settles O7: the states in which the next request stands on the ports are equal. -/
theorem earlierTransactionsAndResetLeaveNoTrace :
    Obligations.EarlierTransactionsAndResetLeaveNoTrace :=
  ⟨fun _ _ q hstep hdraws => congrArg step (present_of_step hstep hdraws q),
    fun s => ⟨rfl, rfl, rfl, step_assertReset s⟩⟩

/-! A run (R230). -/

/-- A step always leaves a response on the ports (R214). -/
theorem step_responds (s : State) : ∃ t p, step s = .next t ∧ t.resp = some p := by
  obtain ⟨drawn, p, hstep⟩ := step_answers s
  exact ⟨_, p, hstep, rfl⟩

section Run

variable {s t : State} {held : List Response} {request : Transaction} {p : Response}
  (hstep : step (s.present (request held)) = .next t) (hresp : t.resp = some p)

include hstep hresp

theorem runTest_cons_of_misuse (hmisuse : isMisuse p.fault = true) (rest : List Transaction) :
    runTest s held (request :: rest) = .misuse p.fault held := by
  simp [runTest, hstep, hresp, hmisuse]

theorem runTest_cons_of_ok (hok : isMisuse p.fault = false) (rest : List Transaction) :
    runTest s held (request :: rest) = runTest t (held ++ [p]) rest := by
  simp [runTest, hstep, hresp, hok]

end Run

/-- `answeredInOrder` from any state and with the responses that the host holds so far. -/
def AnsweredFrom (s : State) (held : List Response) (program : List Transaction)
    (responses : List Response) (states : Nat → State) : Prop :=
  states 0 = s ∧
    ∀ k request p, program[k]? = some request → responses[k]? = some p →
      step ((states k).present (request (held ++ responses.take k))) = .next (states (k + 1)) ∧
        (states (k + 1)).resp = some p

theorem answeredInOrder_iff (c : Config) (program : List Transaction) (responses : List Response)
    (states : Nat → State) :
    answeredInOrder c program responses states ↔
      AnsweredFrom (State.resetWith c) [] program responses states := Iff.rfl

/-- How a run from a state ends: with its list, or at a first Misuse (R230). -/
def EndsAtListOrMisuse (s : State) (held : List Response) (program : List Transaction)
    (responses : List Response) (states : Nat → State) : Prop :=
  (runTest s held program = .completed (held ++ responses) ∧ responses.length = program.length) ∨
    ∃ request t p, runTest s held program = .misuse p.fault (held ++ responses) ∧
      program[responses.length]? = some request ∧
      step ((states responses.length).present (request (held ++ responses))) = .next t ∧
      t.resp = some p ∧ isMisuse p.fault = true

/-- The states of a run that begins with one more state. -/
def consState (s : State) (states : Nat → State) : Nat → State
  | 0 => s
  | k + 1 => states k

/-- Before the first response there is nothing to answer for. -/
theorem AnsweredFrom.nil (s : State) (held : List Response) (program : List Transaction) :
    AnsweredFrom s held program [] fun _ => s :=
  ⟨rfl, fun k _ _ _ hresponse => by simp at hresponse⟩

section Cons

variable {s t : State} {held : List Response} {request : Transaction} {p : Response}
  (hstep : step (s.present (request held)) = .next t) (hresp : t.resp = some p)
  {rest : List Transaction} {responses : List Response} {states : Nat → State}

include hstep hresp

/-- One transaction more at the front of a run. -/
theorem AnsweredFrom.cons (hrest : AnsweredFrom t (held ++ [p]) rest responses states) :
    AnsweredFrom s held (request :: rest) (p :: responses) (consState s states) := by
  obtain ⟨hfirst, hsteps⟩ := hrest
  refine ⟨rfl, fun k request' p' hrequest hresponse => ?_⟩
  cases k with
  | zero =>
    cases hrequest
    cases hresponse
    rw [consState, consState, hfirst, List.take_zero, List.append_nil]
    exact ⟨hstep, hresp⟩
  | succ k =>
    have hnext := hsteps k request' p' hrequest hresponse
    rwa [List.append_assoc] at hnext

theorem EndsAtListOrMisuse.cons (hok : isMisuse p.fault = false)
    (hend : EndsAtListOrMisuse t (held ++ [p]) rest responses states) :
    EndsAtListOrMisuse s held (request :: rest) (p :: responses) (consState s states) := by
  unfold EndsAtListOrMisuse at *
  rw [List.append_assoc, List.singleton_append] at hend
  rw [runTest_cons_of_ok hstep hresp hok]
  exact hend.imp_left fun ⟨hrun, hlength⟩ => ⟨hrun, congrArg (· + 1) hlength⟩

end Cons

/-- Every run ends with its list or at its first Misuse, whatever the host holds already. -/
theorem runTest_ends (program : List Transaction) :
    ∀ (s : State) (held : List Response), ∃ responses states,
      AnsweredFrom s held program responses states ∧
        (∀ p ∈ responses, isMisuse p.fault = false) ∧
        EndsAtListOrMisuse s held program responses states := by
  induction program with
  | nil =>
    intro s held
    exact ⟨[], _, .nil s held [], by simp, .inl ⟨by simp [runTest], rfl⟩⟩
  | cons request rest ih =>
    intro s held
    obtain ⟨t, p, hstep, hresp⟩ := step_responds (s.present (request held))
    cases hmisuse : isMisuse p.fault with
    | true =>
      refine ⟨[], _, .nil s held _, by simp, .inr ⟨request, t, p, ?_, rfl, ?_, hresp, hmisuse⟩⟩
      · rw [List.append_nil, runTest_cons_of_misuse hstep hresp hmisuse]
      · rwa [List.append_nil]
    | false =>
      obtain ⟨responses, states, hanswered, hnone, hend⟩ := ih t (held ++ [p])
      exact ⟨_, _, hanswered.cons hstep hresp, List.forall_mem_cons.mpr ⟨hmisuse, hnone⟩,
        hend.cons hstep hresp hmisuse⟩

/-- Settles O60: a test is a run from the state after reset that holds no response yet. -/
theorem runsEndAtTheListOrTheFirstMisuse : Obligations.RunsEndAtTheListOrTheFirstMisuse := by
  intro c program
  obtain ⟨responses, states, hanswered, hnone, hend⟩ := runTest_ends program (State.resetWith c) []
  exact ⟨responses, states, (answeredInOrder_iff c program responses states).mpr hanswered, hnone,
    hend⟩

end Sys2Proof.Proofs
end
